-- ==== Sys2Proof/Word.lean ====
section
/-! DEFINITION. The word and byte types of the engine (00_scope R5, R11): unsigned bit vectors of fixed width. -/

namespace Sys2Proof

/-- A Word: 32 bits, unsigned, arithmetic mod 2^32 (R5, R15). -/
abbrev Word := BitVec 32

/-- A Byte: 8 bits, unsigned (R5, R15). -/
abbrev Byte := BitVec 8

end Sys2Proof
end

