-- ==== Sys2Proof/Config.lean ====
section
/-! DEFINITION. What one build fixes (00_scope R6 to R8: LEN_FIELD_BYTES, MSG_CAP, ADDR_W) and the FREE VALUES:
opaque constants with no body, for what the spec leaves open (93_implementation_defined U1, U2, U3, U10). -/

namespace Sys2Proof

/-- LEN_FIELD_BYTES, the width in bytes of the bit-length trailer: 8 or 2 (R6). -/
inductive LenField where
  | eight
  | two
deriving DecidableEq, Repr

/-- The number of bytes LEN_FIELD_BYTES stands for (R6). -/
def LenField.bytes : LenField → Nat
  | .eight => 8
  | .two => 2

/-- The build parameters (R6 to R8, 10_state R53): fixed for a build, written by nothing. -/
structure Config where
  /-- LEN_FIELD_BYTES (R6). -/
  lenField : LenField
  /-- MSG_CAP, the capacity in bytes of MSG (R7). -/
  msgCap : Nat
  /-- ADDR_W, the width in bits of the port's byte offset (R8). -/
  addrW : Nat
deriving DecidableEq, Repr

/-- The default build: LEN_FIELD_BYTES = 8, MSG_CAP = 4096, ADDR_W = 16 (R6 to R8). -/
def Config.defaultBuild : Config := { lenField := .eight, msgCap := 4096, addrW := 16 }

/-- The two agents that step (R9). -/
inductive Agent where
  | host
  | engine
deriving DecidableEq, Repr, Inhabited

/-- FREE VALUE (93 U1, 20_memory R71, R301): what the n-th host read returns where the spec says "any value",
and what the host's variable holds after a refused read, whose data is unspecified (R68). Logs 5 and 6. -/
opaque Config.freeRead : Nat → Word

/-- FREE VALUE (93 U3, 70 R291): the byte of MSG at an index not written since reset number `epoch`. Log 7. -/
opaque Config.freeMsg : (epoch : Nat) → (index : Nat) → Byte

/-- FREE VALUE (93 U2, 10_state R25): the byte of PADBUF at an index not written since reset number `epoch`. Log 8. -/
opaque Config.freePad : (epoch : Nat) → (index : Nat) → Byte

/-- FREE VALUE (93 U10, 00_scope R9): which agent moves at a choice between the two. Log 2. -/
opaque Config.freeAgent : Nat → Agent

/-- FREE VALUE: what a host variable holds before anything is assigned to it (30_encoding R97 gives none). Log 18. -/
opaque Config.freeVar : Nat → Word

end Sys2Proof
end

