-- ==== Sys2Proof/Syntax.lean ====
section
/-! DEFINITION. The engine's instructions: the six commands of spec/opcode_table.json (30_encoding R93).
A command word has no operand fields (R92): its operands are implicit engine state. -/

namespace Sys2Proof

/-- The six commands a host can write to CMD (R93). The internal micro-operations are not commands (R96). -/
inductive Instr where
  /-- 0x00 NOP: no operation (R210). -/
  | nop
  /-- 0x01 HASH: the whole digest of the Message in MSG (R211). -/
  | hash
  /-- 0x02 INIT: H <- IV (R212). -/
  | init
  /-- 0x03 PAD: build the PaddedMessage (R213). -/
  | pad
  /-- 0x04 BLOCK: expand, compress and chain one block (R214). -/
  | block
  /-- 0x05 ENCODE: render H as the digest string (R215). -/
  | encode
deriving DecidableEq, Repr

end Sys2Proof
end

