-- ==== Sys2Proof/WellFormed.lean ====
section
/-! DEFINITION. What must hold of the terms a reader can write: command words (30_encoding R90, R93 to R95)
and build parameters (00_scope R6 to R8). -/

namespace Sys2Proof

/-- The reserved field RSVD of a command word, bits 31:8, must be 0 (R90). -/
def CommandWord.rsvdClear (c : Word) : Bool := c.extractLsb' 8 24 == 0#24

/-- The code OPC of a command word, bits 7:0, is one of the six codes 0x00 to 0x05 (R93). -/
def CommandWord.codeKnown (c : Word) : Bool := (c.extractLsb' 0 8).toNat ≤ 5

/-- A legal command word: neither kind of illegal word of R95. -/
def CommandWord.wf (c : Word) : Bool := CommandWord.rsvdClear c && CommandWord.codeKnown c

/-- Every instruction is well-formed: a command has no operand field that could be wrong (R92). -/
def Instr.wf : Instr → Bool
  | .nop | .hash | .init | .pad | .block | .encode => true

/-- 13 <= ADDR_W <= 32 (R8). -/
def Config.addrWOk (c : Config) : Bool := 13 ≤ c.addrW && c.addrW ≤ 32

/-- MSG_CAP is a multiple of 4 (R7). -/
def Config.msgCapAligned (c : Config) : Bool := c.msgCap % 4 == 0

/-- 4 <= MSG_CAP <= 2^ADDR_W - 4096 (R7). -/
def Config.msgCapInRange (c : Config) : Bool := 4 ≤ c.msgCap && c.msgCap + 4096 ≤ 2 ^ c.addrW

/-- A build the spec admits (R6 to R8; R6's two widths are the two constructors of LenField). -/
def Config.wf (c : Config) : Bool := c.addrWOk && c.msgCapAligned && c.msgCapInRange

end Sys2Proof
end

