-- ==== Sys2Proof/Decode.lean ====
section
/-! DEFINITION. Command words: the decoder, total on any word and any bytes and rejecting by name (30_encoding R94,
R95), and the encoder, from the match values of R93. The byte lanes of a bus word are little-endian (20_memory R62). -/

namespace Sys2Proof

/-- Why a word is ILLEGAL (R95). -/
inductive DecodeError where
  /-- RSVD is not 0, whatever the OPC. -/
  | reservedBits (rsvd : BitVec 24)
  /-- RSVD = 0 and OPC is in 0x06 to 0xFF. -/
  | unknownCode (opc : Byte)
  /-- Fewer than the four bytes a command has (R91). -/
  | tooShort (given : Nat)
deriving DecidableEq, Repr

/-- {b3, b2, b1, b0}: the 32-bit bus word whose lanes carry b0 on bits 7:0 up to b3 on bits 31:24 (R62). -/
def laneWord (b0 b1 b2 b3 : Byte) : Word := b3 ++ b2 ++ b1 ++ b0

/-- The byte on lane b of a bus word: bits 8b+7 .. 8b (R62). -/
def laneByte (v : Word) (b : Nat) : Byte := v.extractLsb' (8 * b) 8

/-- The first n lanes of a bus word, lane 0 first (R62, R67). -/
def laneBytes (n : Nat) (v : Word) : List Byte := (List.range n).map (laneByte v)

/-- decode(c) (R94). -/
def decode (c : Word) : Except DecodeError Instr :=
  let rsvd := c.extractLsb' 8 24
  let opc := c.extractLsb' 0 8
  if rsvd ≠ 0#24 then .error (.reservedBits rsvd)
  else if opc = 0x00#8 then .ok .nop
  else if opc = 0x01#8 then .ok .hash
  else if opc = 0x02#8 then .ok .init
  else if opc = 0x03#8 then .ok .pad
  else if opc = 0x04#8 then .ok .block
  else if opc = 0x05#8 then .ok .encode
  else .error (.unknownCode opc)

/-- A command from the bytes of a 32-bit write to CMD, lowest lane first, and the bytes left over (R62, R91). -/
def decodeBytes : List Byte → Except DecodeError (Instr × List Byte)
  | b0 :: b1 :: b2 :: b3 :: rest =>
    match decode (laneWord b0 b1 b2 b3) with
    | .ok i => .ok (i, rest)
    | .error e => .error e
  | short => .error (.tooShort short.length)

/-- The OPC of each command (R93). -/
def Instr.opc : Instr → Byte
  | .nop => 0x00
  | .hash => 0x01
  | .init => 0x02
  | .pad => 0x03
  | .block => 0x04
  | .encode => 0x05

/-- The command word of an instruction: its OPC in bits 7:0 and RSVD = 0 in bits 31:8 (R90, R93). -/
def encode (i : Instr) : Word := 0#24 ++ i.opc

/-- The instruction the decoder reads from the table's numbering: w's low nbits bits laid out as a 32-bit write to
CMD. A number that needs more than 32 bits is no command (R91). Log 21. -/
def decodeTableWord (nbits w : Nat) : Option Instr :=
  let bits := w % 2 ^ nbits
  if bits < 2 ^ 32 then
    match decodeBytes (laneBytes 4 (BitVec.ofNat 32 bits)) with
    | .ok (i, _) => some i
    | .error _ => none
  else none

end Sys2Proof
end

