-- ==== Sys2Proof/Machine/BitOps.lean ====
section
/-! DEFINITION. BitOps: the pure word functions of the datapath (40_bitops R110 to R119). They read no state and
raise no error. -/

namespace Sys2Proof.Machine

/-- ADD32(a, b): addition mod 2^32; no carry is kept (R110). -/
def add32 (a b : Word) : Word := a + b

/-- ROTR(x, n): circular right rotation by n mod 32 (R111). -/
def rotr (x : Word) (n : Nat) : Word :=
  let m := n % 32
  if m = 0 then x else (x >>> m) ||| (x <<< (32 - m))

/-- SHR(x, n): logical right shift by n mod 32, so SHR(x, 32) = x (R112, 90_conflicts C7). -/
def shr (x : Word) (n : Nat) : Word := x >>> (n % 32)

/-- CH(e, f, g): per-bit select (R113). -/
def ch (e f g : Word) : Word := (e &&& f) ^^^ (~~~e &&& g)

/-- MAJ(x, y, z): per-bit majority (R114). -/
def maj (x y z : Word) : Word := (x &&& y) ^^^ (x &&& z) ^^^ (y &&& z)

/-- SSIG0(x), the source's lowerSigma0 (R115). -/
def ssig0 (x : Word) : Word := rotr x 7 ^^^ rotr x 18 ^^^ shr x 3

/-- SSIG1(x), the source's lowerSigma1 (R116). -/
def ssig1 (x : Word) : Word := rotr x 17 ^^^ rotr x 19 ^^^ shr x 10

/-- BSIG0(x), the source's upperSigma0 (R117). -/
def bsig0 (x : Word) : Word := rotr x 2 ^^^ rotr x 13 ^^^ rotr x 22

/-- BSIG1(x), the source's upperSigma1 (R118). -/
def bsig1 (x : Word) : Word := rotr x 6 ^^^ rotr x 11 ^^^ rotr x 25

end Sys2Proof.Machine
end

