-- ==== Sys2Proof/Machine/State.lean ====
section
/-! DEFINITION. The machine's state as plain data: the engine's tuple of 10_state R53, the host agent, and the
environment's choices; the reasons a step can stop; and the state after reset (70_reset_and_hazards R290). -/

namespace Sys2Proof.Machine

/-- Eight Words, the slots A to H of the source's HashState: H[0] = a up to H[7] = h (10_state R20, R21). -/
structure HashState where
  a : Word
  b : Word
  c : Word
  d : Word
  e : Word
  f : Word
  g : Word
  h : Word
deriving DecidableEq, Repr

/-- All eight words 0 (the reset value of H and WV, R290). -/
def HashState.zero : HashState := ⟨0, 0, 0, 0, 0, 0, 0, 0⟩

/-- The MessageSchedule: 64 Words (10_state R22). -/
abbrev Schedule := Vector Word 64

/-- A Block: exactly 64 bytes (00_scope R5, R15), so InvalidBlockSize cannot occur (42_schedule R155). -/
abbrev Block := Vector Byte 64

/-- The digest-string register file: 64 bytes (10_state R28). -/
abbrev HexString := Vector Byte 64

/-- Sparse contents by index, in the canonical form `Cells.wf` (Machine/Ops.lean): indices strictly rising.
An index not listed holds nothing written yet. -/
abbrev Cells (α : Type) := List (Nat × α)

/-- A sparse byte array: a list of Host.Cell. -/
abbrev Memory := List Host.Cell

/-- The error codes of STATUS.ERR by name (60_exceptions R260). Codes 7 to 15 are reserved and never raised. Log 11. -/
inductive ErrCode where
  | none
  | invalidInput
  | invalidBlockSize
  | invalidHashSize
  | invalidSchedule
  | illegalCommand
  | noBlock
deriving DecidableEq, Repr

/-- The sequencer's phases (10_state R30). -/
inductive Phase where
  | idle
  | pad
  | init
  | load
  | exp
  | rnd
  | chain
  | enc
deriving DecidableEq, Repr

/-- CUR, the command in progress (10_state R30). -/
inductive Cur where
  | none
  | hash
  | init
  | pad
  | block
  | encode
deriving DecidableEq, Repr

/-- seq = (phase, t), the sequencer's position; t is a 6-bit index (10_state R30). -/
structure Seq where
  phase : Phase
  t : Fin 64
deriving DecidableEq, Repr

/-- (IDLE, 0): where seq stands at reset and between commands (R30). -/
def Seq.idle : Seq := ⟨.idle, 0⟩

/-- The engine: the tuple of 10_state R53 (BUSY is computed from seq, R31), its read-only build configuration, and
the model's own reset counter. -/
structure Engine where
  /-- H[0..7], the chaining values (R20). -/
  h : HashState
  /-- WV[0..7], the working variables A to H (R21). -/
  wv : HashState
  /-- W[0..63], the message schedule (R22). -/
  w : Schedule
  /-- PADBUF, the padded-message buffer (R25). -/
  padbuf : Memory
  /-- NBLK, the number of blocks in PADBUF (R26). -/
  nblk : Word
  /-- BLKIDX, the index of the next block to compress (R27). -/
  blkidx : Word
  /-- HEX[0..63], the digest string (R28). -/
  hex : HexString
  /-- MSG, the message buffer (R29). -/
  msg : Memory
  /-- MSG_LEN (R36). -/
  msgLen : Word
  /-- DONE, STATUS bit 1 (R33). -/
  done : Bool
  /-- ERR, STATUS bits 7:4 (R34). -/
  err : ErrCode
  /-- seq, the sequencer's position (R30). -/
  seq : Seq
  /-- CUR, the command in progress (R30). -/
  cur : Cur
  /-- The build configuration: not state (R53), nothing writes it. Log 1. -/
  cfg : Config
  /-- MODEL FIELD: how many reset inputs have been taken; it picks the free values of bytes not written since. Log 7. -/
  epoch : Nat
deriving DecidableEq, Repr

/-- One statement of an assembled host program (30_encoding R97): a bus transaction (direction, offset, width in
bytes, data), or the host-side branch with its target resolved to a statement number. -/
inductive HostStmt where
  /-- `r <- MemRead(off, width)`: RD32 with width 4, RD8 with width 1. -/
  | read (off width r : Nat)
  /-- `MemWrite(off, width, v)`: WR32 with width 4, WR8 with width 1. -/
  | write (off width : Nat) (v : Word)
  /-- `BNZ r, mask, label`: go to target if (r & mask) != 0. -/
  | bnz (r : Nat) (mask : Word) (target : Nat)
deriving DecidableEq, Repr

/-- What the slave port last answered the host (20_memory R66 to R68). -/
inductive BusResp where
  | none
  | ack
  | data (v : Word)
  | busError (off width : Nat)
deriving DecidableEq, Repr

/-- MODEL FIELDS: the host agent (00_scope R9, 30_encoding R97). Log 4. -/
structure HostAgent where
  prog : List HostStmt
  /-- The number of the next statement. -/
  pc : Nat
  /-- The host-side variables assigned so far, by number. -/
  vars : Cells Word
  /-- The response to the last transaction. -/
  resp : BusResp
deriving DecidableEq, Repr

/-- A choice of the environment: which agent moves next, or the reset input (R9, R290). -/
inductive Turn where
  | host
  | engine
  | reset
deriving DecidableEq, Repr

/-- The whole machine: the engine, the host agent and the environment's choices. -/
structure State extends Engine where
  /-- MODEL FIELD: the host agent. -/
  host : HostAgent
  /-- MODEL FIELD: the environment's choices not yet taken, oldest first. Log 2. -/
  turns : List Turn
  /-- MODEL FIELD: how many free scheduling choices have been drawn. Log 2. -/
  ticks : Nat
  /-- MODEL FIELD: how many host reads have been made; it picks the free value of the next one. Log 6. -/
  draws : Nat
deriving DecidableEq, Repr

/-- Why the engine is stuck. No state that a run reaches raises either. -/
inductive Fault where
  /-- Raised by the EXP micro-step at an index t < 16, for which 42_schedule R153 gives no effect. Safe. Log 9. -/
  | expIndex (t : Nat)
  /-- Raised by the sequencer after a micro-step whose phase and CUR have no row in 44 R221. Safe. Log 10. -/
  | noTransition (phase : Phase) (cur : Cur)
deriving DecidableEq, Repr

/-- Why a transaction or an instruction has no outcome. -/
inductive Refusal where
  /-- Raised by exec's arm of an instruction that has no meaning yet; no arm does. Safe. -/
  | notModelled (mnemonic : String)
  /-- The outcome of a bus transaction that 20_memory R68 does not admit, with its offset and width in bytes. Raised
  by memRead and memWrite; the host's step turns it into an error response and the machine goes on. Safe. Log 5. -/
  | busError (off width : Nat)
deriving DecidableEq, Repr

/-- The engine after its reset input (70_reset R290): MSG and PADBUF are unspecified, so nothing of them is listed and
each byte reads as a free value of this epoch (R291, 93 U2, U3). -/
def Engine.resetWith (cfg : Config) (epoch : Nat) : Engine where
  h := .zero
  wv := .zero
  w := Vector.replicate 64 0
  padbuf := []
  nblk := 0
  blkidx := 0
  hex := Vector.replicate 64 0
  msg := []
  msgLen := 0
  done := false
  err := .none
  seq := .idle
  cur := .none
  cfg := cfg
  epoch := epoch

/-- A host with no program, no variables and no response. Log 4. -/
def HostAgent.empty : HostAgent := { prog := [], pc := 0, vars := [], resp := .none }

/-- The machine right after reset, in the default build (R290, R6 to R8): the engine at its reset values, the model's
own fields empty or 0 (logs 1, 2, 4, 6, 7). -/
def State.reset : State where
  toEngine := .resetWith .defaultBuild 0
  host := .empty
  turns := []
  ticks := 0
  draws := 0

end Sys2Proof.Machine
end

