-- ==== Sys2Proof/Machine/Ops.lean ====
section
/-! DEFINITION. The named operations over memory and registers, taking an error (60_exceptions R270, R272), and the
start and the finish of a command (44_digest_commands R200, R221). -/

namespace Sys2Proof.Machine

/-! ## Sparse memory in canonical form -/

/-- The canonical form: indices strictly rising, so equal contents are equal lists. -/
abbrev Cells.wf {α : Type} (m : Cells α) : Prop := (m.map Prod.fst).Pairwise (· < ·)

/-- The canonical form of a byte memory. An unlisted byte reads as a free value, which no listed byte stands for, so
no entry is redundant. -/
abbrev Memory.wf (m : Memory) : Prop := Cells.wf m

/-- Every listed index is below `size`. -/
abbrev Cells.within {α : Type} (m : Cells α) (size : Nat) : Prop := ∀ c ∈ m, c.1 < size

/-- What is listed at index i, if anything. -/
def Cells.lookup {α : Type} (i : Nat) : Cells α → Option α
  | [] => none
  | (k, v) :: rest => if k = i then some v else lookup i rest

/-- The list with its entries numbered from `base`. -/
def Cells.numbered {α : Type} (base : Nat) : List α → Cells α
  | [] => []
  | v :: rest => (base, v) :: numbered (base + 1) rest

/-- Write the values `vs` at the indices base, base + 1, ... -/
def Cells.write {α : Type} (m : Cells α) (base : Nat) (vs : List α) : Cells α :=
  m.filter (fun c => c.1 < base) ++ Cells.numbered base vs ++ m.filter (fun c => base + vs.length ≤ c.1)

/-! ## Register files -/

/-- H[k] or WV[k]: slot k of a HashState in the order A to H (10_state R20, R21). -/
def HashState.get (s : HashState) (k : Fin 8) : Word :=
  match k with
  | 0 => s.a
  | 1 => s.b
  | 2 => s.c
  | 3 => s.d
  | 4 => s.e
  | 5 => s.f
  | 6 => s.g
  | 7 => s.h

/-- MSG[i]: the byte written, or the free value of this epoch (10_state R29, 93 U3). -/
def Engine.msgByte (e : Engine) (i : Nat) : Byte := (Cells.lookup i e.msg).getD (Config.freeMsg e.epoch i)

/-- PADBUF[i]: the byte written, or the free value of this epoch (10_state R25, 93 U2). -/
def Engine.padByte (e : Engine) (i : Nat) : Byte := (Cells.lookup i e.padbuf).getD (Config.freePad e.epoch i)

/-! ## Updates, one per register an operation writes -/

/-- H <- v. -/
def Engine.setH (e : Engine) (v : HashState) : Engine := { e with h := v }
/-- WV <- v. -/
def Engine.setWv (e : Engine) (v : HashState) : Engine := { e with wv := v }
/-- W <- v. -/
def Engine.setW (e : Engine) (v : Schedule) : Engine := { e with w := v }
/-- PADBUF <- v. -/
def Engine.setPadbuf (e : Engine) (v : Memory) : Engine := { e with padbuf := v }
/-- NBLK <- n and BLKIDX <- i. -/
def Engine.setBlocks (e : Engine) (n i : Word) : Engine := { e with nblk := n, blkidx := i }
/-- HEX <- v. -/
def Engine.setHex (e : Engine) (v : HexString) : Engine := { e with hex := v }
/-- MSG <- v. -/
def Engine.setMsg (e : Engine) (v : Memory) : Engine := { e with msg := v }
/-- MSG_LEN <- v. -/
def Engine.setMsgLen (e : Engine) (v : Word) : Engine := { e with msgLen := v }
/-- DONE <- d and ERR <- c. -/
def Engine.setFlags (e : Engine) (d : Bool) (c : ErrCode) : Engine := { e with done := d, err := c }
/-- seq <- q. -/
def Engine.setSeq (e : Engine) (q : Seq) : Engine := { e with seq := q }
/-- CUR <- c. -/
def Engine.setCur (e : Engine) (c : Cur) : Engine := { e with cur := c }

/-- The machine with its engine replaced. -/
def State.setEngine (s : State) (e : Engine) : State := { s with toEngine := e }
/-- The machine with its host agent replaced. -/
def State.setHost (s : State) (h : HostAgent) : State := { s with host := h }
/-- The machine with the environment's choices replaced. -/
def State.setTurns (s : State) (l : List Turn) : State := { s with turns := l }
/-- The machine with the count of free scheduling choices replaced. -/
def State.setTicks (s : State) (n : Nat) : State := { s with ticks := n }
/-- The machine with the count of host reads replaced. -/
def State.setDraws (s : State) (n : Nat) : State := { s with draws := n }

/-! ## Taking an error -/

/-- The empty buffer: NBLK <- 0 and BLKIDX <- 0 (R272, 41_padder R135). -/
def Engine.emptyBuffer (e : Engine) : Engine := e.setBlocks 0 0

/-- neutral(op, E), the neutral value an erroneous command leaves (R272): `op` is `none` for an illegal word. -/
def Engine.neutral (e : Engine) (op : Option Instr) (c : ErrCode) : Engine :=
  match op, c with
  | some .hash, .invalidInput => e.emptyBuffer
  | some .pad, .invalidInput => e.emptyBuffer
  | _, _ => e

/-- raise E (R270): the neutral result, then ERR <- code and DONE <- 1. BUSY, seq and CUR stay; nothing is saved and
nothing is vectored to, so there is no return from it (R273). -/
def Engine.raise (e : Engine) (op : Option Instr) (c : ErrCode) : Engine := (e.neutral op c).setFlags true c

/-! ## Starting and finishing a command -/

/-- CUR <- op; seq <- first(op) (44 R200). -/
def Engine.start (e : Engine) (c : Cur) (q : Seq) : Engine := (e.setCur c).setSeq q

/-- finish: seq <- (IDLE, 0); CUR <- NONE; DONE <- 1; ERR stays (44 R221). -/
def Engine.finish (e : Engine) : Engine := ((e.setSeq .idle).setCur .none).setFlags true e.err

end Sys2Proof.Machine
end

