-- ==== Sys2Proof/Machine/Flags.lean ====
section
/-! DEFINITION. The STATUS fields (10_state R31 to R35, R42), the error codes' numbers (60_exceptions R260), and the
acceptance checks that decide ERR (R261, R266, R267). The engine has no condition codes. -/

namespace Sys2Proof.Machine

/-- STATUS.BUSY = 1 exactly when phase != IDLE (R31). Log 12. -/
def Engine.busy (e : Engine) : Bool := e.seq.phase != .idle

/-- code(E), the number in STATUS bits 7:4 (R260). -/
def ErrCode.code : ErrCode → BitVec 4
  | .none => 0
  | .invalidInput => 1
  | .invalidBlockSize => 2
  | .invalidHashSize => 3
  | .invalidSchedule => 4
  | .illegalCommand => 5
  | .noBlock => 6

/-- The STATUS word: ERR in bits 7:4, DONE in bit 1, BUSY in bit 0, every other bit 0 (R42). -/
def Engine.status (e : Engine) : Word :=
  0#24 ++ e.err.code ++ 0#2 ++ BitVec.ofBool e.done ++ BitVec.ofBool e.busy

/-- R261: MSG_LEN > MSG_CAP (a), or a bit length that the 2-byte trailer cannot hold (b). -/
def Engine.inputInvalid (e : Engine) : Bool :=
  e.cfg.msgCap < e.msgLen.toNat || (e.cfg.lenField == .two && 65535 < 8 * e.msgLen.toNat)

/-- R266: no padded block is left to compress. -/
def Engine.noBlockLeft (e : Engine) : Bool := e.nblk.toNat ≤ e.blkidx.toNat

/-- check(op) in R267's priority order; `none` is the illegal word. -/
def Engine.check (e : Engine) (op : Option Instr) : ErrCode :=
  match op with
  | none => .illegalCommand
  | some .hash | some .pad => if e.inputInvalid then .invalidInput else .none
  | some .block => if e.noBlockLeft then .noBlock else .none
  | some .nop | some .init | some .encode => .none

/-- DONE <- 0; ERR <- 0 at the acceptance of a command that is not NOP (44 R200). -/
def Engine.clearFlags (e : Engine) : Engine := e.setFlags false .none

end Sys2Proof.Machine
end

