-- ==== Sys2Proof/Machine/Operands.lean ====
section
/-! DEFINITION. The commands' operands, all implicit engine state (30_encoding R92), and the byte orders they are read
in: big-endian inside the algorithm (20_memory R61). The port's little-endian lanes stand in Decode.lean (R62). -/

namespace Sys2Proof.Machine

/-- {b0, b1, b2, b3}: the big-endian word of four bytes (R61(a)). -/
def beWord (b0 b1 b2 b3 : Byte) : Word := b0 ++ b1 ++ b2 ++ b3

/-- be_N(v): the N-byte big-endian encoding of v (00_scope R13, R61(b)). -/
def beBytes (n v : Nat) : List Byte := (List.range n).map fun i => BitVec.ofNat 8 (v / 256 ^ (n - 1 - i))

/-- ceil64(n): the smallest multiple of 64 that is >= n (R13). -/
def ceil64 (n : Nat) : Nat := (n + 63) / 64 * 64

/-- PADCAP, the capacity of PADBUF (10_state R25). -/
def padCap (c : Config) : Nat := ceil64 (c.msgCap + 1 + c.lenField.bytes)

/-- The operand of PAD and HASH: the Message, MSG[0 .. MSG_LEN) (R92). -/
def Engine.message (e : Engine) : List Byte := (List.range e.msgLen.toNat).map e.msgByte

/-- The operand of BLOCK: PADBUF's block BLKIDX, PADBUF[64*BLKIDX .. 64*BLKIDX + 64) (R92, 42 R152). -/
@[irreducible] def Engine.block (e : Engine) : Block := Vector.ofFn fun i => e.padByte (64 * e.blkidx.toNat + i.val)

/-- Block j of a byte sequence, P[64j .. 64j+64) (44 R202). -/
@[irreducible] def blockOf (p : List Byte) (j : Nat) : Block := Vector.ofFn fun i => p.getD (64 * j + i.val) 0

end Sys2Proof.Machine
end

