-- ==== Sys2Proof/Machine/Schedule.lean ====
section
/-! DEFINITION. The ScheduleExpander: expand(B) and the LOAD and EXP micro-steps (42_schedule R150 to R156). -/

namespace Sys2Proof.Machine

/-- Word j of a Block: {B[4j], B[4j+1], B[4j+2], B[4j+3]} (R151). -/
def Block.word (b : Block) (j : Fin 16) : Word :=
  beWord b[4 * j.val] b[4 * j.val + 1] b[4 * j.val + 2] b[4 * j.val + 3]

/-- W[0..15] <- the Block's words; the other entries of W stay (R151, R152). -/
@[irreducible] def Schedule.load (w : Schedule) (b : Block) : Schedule :=
  Vector.ofFn fun t => if ht : t.val < 16 then Block.word b ⟨t.val, ht⟩ else w[t]

/-- SSIG1(w[t-2]) + w[t-7] + SSIG0(w[t-15]) + w[t-16], mod 2^32 (R153). -/
def Schedule.expWord (w : Schedule) (t : Nat) (lo : 16 ≤ t) (hi : t < 64) : Word :=
  add32 (add32 (ssig1 w[t - 2]) w[t - 7]) (add32 (ssig0 w[t - 15]) w[t - 16])

/-- W[t] <- its word (R153); defined for 16 <= t <= 63 only. -/
def Schedule.expAt (w : Schedule) (t : Nat) : Schedule :=
  if h : 16 ≤ t ∧ t < 64 then w.set t (w.expWord t h.1 h.2) h.2 else w

/-- The schedule after the first n expansion indices t = 16, 17, ..., 16 + n - 1, in that order (R154). -/
def Schedule.expandTo (w : Schedule) : Nat → Schedule
  | 0 => w
  | n + 1 => (w.expandTo n).expAt (16 + n)

/-- expand(B): words 0 to 15 from the Block, words 16 to 63 derived (R150). -/
@[irreducible] def expand (b : Block) : Schedule := Schedule.expandTo (Schedule.load (Vector.replicate 64 0) b) 48

/-- The LOAD micro-step (R152): W[0..15] from block BLKIDX, WV <- H; H is not written. -/
def Engine.loadStep (e : Engine) : Engine := (e.setW (e.w.load e.block)).setWv e.h

/-- The EXP(t) micro-step (R153). -/
def Engine.expStep (e : Engine) (t : Fin 64) : Host.Outcome Engine Fault Refusal :=
  if 16 ≤ t.val then .next (e.setW (e.w.expAt t.val)) else .fault (.expIndex t.val)

end Sys2Proof.Machine
end

