-- ==== Sys2Proof/Machine/Compressor.lean ====
section
/-! DEFINITION. The Compressor: the ROM K, round, compress and the RND and CHAIN micro-steps (43_compressor R170 to
R179). -/

namespace Sys2Proof.Machine

/-- The rows of R170's table, as it prints them: row j holds K[j], K[j + 16], K[j + 32] and K[j + 48]. -/
def kRows : Vector (Vector Word 4) 16 := #v[
  #v[0x428a2f98, 0xe49b69c1, 0x27b70a85, 0x19a4c116],
  #v[0x71374491, 0xefbe4786, 0x2e1b2138, 0x1e376c08],
  #v[0xb5c0fbcf, 0x0fc19dc6, 0x4d2c6dfc, 0x2748774c],
  #v[0xe9b5dba5, 0x240ca1cc, 0x53380d13, 0x34b0bcb5],
  #v[0x3956c25b, 0x2de92c6f, 0x650a7354, 0x391c0cb3],
  #v[0x59f111f1, 0x4a7484aa, 0x766a0abb, 0x4ed8aa4a],
  #v[0x923f82a4, 0x5cb0a9dc, 0x81c2c92e, 0x5b9cca4f],
  #v[0xab1c5ed5, 0x76f988da, 0x92722c85, 0x682e6ff3],
  #v[0xd807aa98, 0x983e5152, 0xa2bfe8a1, 0x748f82ee],
  #v[0x12835b01, 0xa831c66d, 0xa81a664b, 0x78a5636f],
  #v[0x243185be, 0xb00327c8, 0xc24b8b70, 0x84c87814],
  #v[0x550c7dc3, 0xbf597fc7, 0xc76c51a3, 0x8cc70208],
  #v[0x72be5d74, 0xc6e00bf3, 0xd192e819, 0x90befffa],
  #v[0x80deb1fe, 0xd5a79147, 0xd6990624, 0xa4506ceb],
  #v[0x9bdc06a7, 0x06ca6351, 0xf40e3585, 0xbef9a3f7],
  #v[0xc19bf174, 0x14292967, 0x106aa070, 0xc67178f2]]

/-- The RoundConstants ROM K[0..63] (R170, 10_state R23): K[t] stands in row t mod 16 and column t / 16 of the table. The
spec takes the values from general knowledge. Log 14. -/
def K : Vector Word 64 := Vector.ofFn fun t => kRows[t.val % 16][t.val / 16]

/-- round(v, k, x): all eight new working variables from the values at the start of the round (R172, R174). -/
def HashState.round (v : HashState) (k x : Word) : HashState :=
  let t1 := add32 (add32 (add32 (bsig1 v.e) (ch v.e v.f v.g)) (add32 v.h k)) x
  let t2 := add32 (bsig0 v.a) (maj v.a v.b v.c)
  ⟨add32 t1 t2, v.a, v.b, v.c, add32 v.d t1, v.e, v.f, v.g⟩

/-- The working variables after rounds 0 to n - 1 of a schedule, in that order (R175). -/
def HashState.roundsTo (v : HashState) (w : Schedule) : Nat → HashState
  | 0 => v
  | n + 1 => if h : n < 64 then (v.roundsTo w n).round K[n] w[n] else v.roundsTo w n

/-- Block chaining: word by word addition mod 2^32 (R176). -/
def HashState.add (s v : HashState) : HashState :=
  ⟨add32 s.a v.a, add32 s.b v.b, add32 s.c v.c, add32 s.d v.d,
   add32 s.e v.e, add32 s.f v.f, add32 s.g v.g, add32 s.h v.h⟩

/-- compress(w, s): 64 rounds from s, then s added back in (R171). -/
@[irreducible] def compress (w : Schedule) (s : HashState) : HashState := s.add (s.roundsTo w 64)

/-- The RND(t) micro-step (R173). -/
def Engine.rndStep (e : Engine) (t : Fin 64) : Engine := e.setWv (e.wv.round K[t] e.w[t])

/-- The CHAIN micro-step (R176): H[k] <- H[k] + WV[k], BLKIDX <- BLKIDX + 1; WV stays. -/
def Engine.chainStep (e : Engine) : Engine := (e.setH (e.h.add e.wv)).setBlocks e.nblk (e.blkidx + 1)

end Sys2Proof.Machine
end

