-- ==== Sys2Proof/Machine/HexEncoder.lean ====
section
/-! DEFINITION. The HexEncoder: encode(s) and the ENC micro-step (45_hex_encoder R240 to R244, 44 R205). -/

namespace Sys2Proof.Machine

/-- hexchar(v): '0'..'9' are 0x30..0x39 and 'a'..'f' are 0x61..0x66 (R242). ASCII is the spec's G5. Log 14. -/
def hexchar (v : BitVec 4) : Byte :=
  if v.toNat < 10 then BitVec.ofNat 8 (0x30 + v.toNat) else BitVec.ofNat 8 (0x61 + (v.toNat - 10))

/-- Nibble d of a Word, most significant first: bits 31-4d .. 28-4d (R240). -/
def nibble (x : Word) (d : Fin 8) : BitVec 4 := x.extractLsb' (28 - 4 * d.val) 4

/-- encode(s): 8 characters per Word, Words in state order A to H; character 8k + d is nibble d of Word k (R240,
R241). -/
@[irreducible] def encodeHex (s : HashState) : HexString :=
  Vector.ofFn fun i => hexchar (nibble (s.get ⟨i.val / 8, by omega⟩) ⟨i.val % 8, by omega⟩)

/-- The ENC micro-step: HEX <- encode(H) (R241, R205). -/
def Engine.encStep (e : Engine) : Engine := e.setHex (encodeHex e.h)

end Sys2Proof.Machine
end

