-- ==== Sys2Proof/Machine/Padder.lean ====
section
/-! DEFINITION. The Padder: pad(m) and the PAD micro-step (41_padder R130 to R140). -/

namespace Sys2Proof.Machine

/-- len(P) = ceil64(n + 1 + LFB) (R131). -/
def padLen (lf : LenField) (n : Nat) : Nat := ceil64 (n + 1 + lf.bytes)

/-- R133: the bit length of an n-byte message does not fit the trailer. -/
def lengthUnfit (lf : LenField) (n : Nat) : Bool := lf == .two && 65535 < 8 * n

/-- pad(m): the Message, 0x80, zero bytes and the big-endian bit length, or INVALID_INPUT (R130 to R134). It reads m
and LEN_FIELD_BYTES and nothing else. -/
def pad (lf : LenField) (m : List Byte) : Except ErrCode (List Byte) :=
  let n := m.length
  if lengthUnfit lf n then .error .invalidInput
  else .ok (m ++ [0x80] ++ List.replicate (padLen lf n - lf.bytes - (n + 1)) 0 ++ beBytes lf.bytes (8 * n))

/-- The PAD micro-step (R135): PADBUF[0 .. len(P)) <- P, NBLK <- len(P)/64, BLKIDX <- 0. The bytes at or beyond
64·NBLK are any value (93 U2), so nothing of them is listed: they read as free values. Log 8. The check of R133 was made at
acceptance; were it to fail here, the padder's neutral result is the empty buffer. Log 17. -/
def Engine.padStep (e : Engine) : Engine :=
  match pad e.cfg.lenField e.message with
  | .error _ => e.emptyBuffer
  | .ok p => (e.setPadbuf (Cells.numbered 0 p)).setBlocks (BitVec.ofNat 32 (p.length / 64)) 0

end Sys2Proof.Machine
end

