-- ==== Sys2Proof/Machine/Digest.lean ====
section
/-! DEFINITION. The Digest orchestrator's functions: the ROM IV, the INIT micro-step and hash(m) (44_digest_commands
R201 to R204). -/

namespace Sys2Proof.Machine

/-- The InitialHashValues ROM IV[0..7] (R201, 10_state R24). The spec takes the values from general knowledge. Log 14. -/
def IV : HashState :=
  ⟨0x6a09e667, 0xbb67ae85, 0x3c6ef372, 0xa54ff53a, 0x510e527f, 0x9b05688c, 0x1f83d9ab, 0x5be0cd19⟩

/-- The INIT micro-step: H <- IV (R203). -/
def Engine.initStep (e : Engine) : Engine := e.setH IV

/-- The HashState after blocks 0 to n - 1 of a padded message, from s, in order (R202, 43 R177). -/
def compressTo (p : List Byte) (s : HashState) : Nat → HashState
  | 0 => s
  | n + 1 => compress (expand (blockOf p n)) (compressTo p s n)

/-- The final HashState of a message: pad, then compress every block from IV (R202). -/
def digest (lf : LenField) (m : List Byte) : Except ErrCode HashState :=
  match pad lf m with
  | .error c => .error c
  | .ok p => .ok (compressTo p IV (p.length / 64))

/-- hash(m): the 64 characters of the digest, or INVALID_INPUT (R202). -/
def hash (lf : LenField) (m : List Byte) : Except ErrCode HexString :=
  match digest lf m with
  | .error c => .error c
  | .ok s => .ok (encodeHex s)

end Sys2Proof.Machine
end

