-- ==== Sys2Proof/Machine/Sequencer.lean ====
section
/-! DEFINITION. The sequencer: first(op), the transition table and the engine's step (44_digest_commands R220 to
R222). The step order is the spec's reference realisation. Log 13. -/

namespace Sys2Proof.Machine

/-- first(op) (R220); NOP enters no phase (R210). -/
def firstPhase : Instr → Seq
  | .hash => ⟨.pad, 0⟩
  | .init => ⟨.init, 0⟩
  | .pad => ⟨.pad, 0⟩
  | .block => ⟨.load, 0⟩
  | .encode => ⟨.enc, 0⟩
  | .nop => .idle

/-- Where the sequencer goes after a micro-step. -/
inductive SeqMove where
  | goto (q : Seq)
  | finish
  /-- R221's table has no row for this phase and CUR. -/
  | undefined
deriving DecidableEq, Repr

/-- R221's table. `blkidx` is BLKIDX after CHAIN's increment. -/
def nextSeq (q : Seq) (cur : Cur) (blkidx nblk : Word) : SeqMove :=
  match q.phase with
  | .idle => .undefined
  | .pad =>
    match cur with
    | .hash => .goto ⟨.init, 0⟩
    | .pad => .finish
    | .none | .init | .block | .encode => .undefined
  | .init =>
    match cur with
    | .hash => .goto ⟨.load, 0⟩
    | .init => .finish
    | .none | .pad | .block | .encode => .undefined
  | .load => .goto ⟨.exp, 16⟩
  | .exp => if q.t.val < 63 then .goto ⟨.exp, q.t + 1⟩ else .goto ⟨.rnd, 0⟩
  | .rnd => if q.t.val < 63 then .goto ⟨.rnd, q.t + 1⟩ else .goto ⟨.chain, 0⟩
  | .chain =>
    match cur with
    | .hash =>
      if blkidx.toNat < nblk.toNat then .goto ⟨.load, 0⟩
      else if blkidx = nblk then .goto ⟨.enc, 0⟩
      else .undefined
    | .block => .finish
    | .none | .init | .pad | .encode => .undefined
  | .enc => .finish

/-- The micro-step of the phase seq stands in (R222). -/
def Engine.microStep (e : Engine) : Host.Outcome Engine Fault Refusal :=
  match e.seq.phase with
  | .idle => .next e
  | .pad => .next e.padStep
  | .init => .next e.initStep
  | .load => .next e.loadStep
  | .exp => e.expStep e.seq.t
  | .rnd => .next (e.rndStep e.seq.t)
  | .chain => .next e.chainStep
  | .enc => .next e.encStep

/-- seq <- next(phase, t, CUR, BLKIDX, NBLK), or finish (R221, R222). -/
def Engine.moveSeq (e : Engine) : Host.Outcome Engine Fault Refusal :=
  match nextSeq e.seq e.cur e.blkidx e.nblk with
  | .goto q => .next (e.setSeq q)
  | .finish => .next e.finish
  | .undefined => .fault (.noTransition e.seq.phase e.cur)

/-- engine_step(): one micro-step, then the move of seq; with phase = IDLE there is no step (R222, 60 R281). -/
def Engine.step (e : Engine) : Host.Outcome Engine Fault Refusal :=
  if e.busy then
    match e.microStep with
    | .next e' => e'.moveSeq
    | .fault f => .fault f
    | .refused r => .refused r
  else .next e

/-- n engine steps in a row, stopping at a fault. -/
def Engine.run : Nat → Engine → Host.Outcome Engine Fault Refusal
  | 0, e => .next e
  | n + 1, e =>
    match e.step with
    | .next e' => Engine.run n e'
    | .fault f => .fault f
    | .refused r => .refused r

end Sys2Proof.Machine
end

