-- ==== Sys2Proof/Machine/Commands.lean ====
section
/-! DEFINITION. The six commands (44_digest_commands R210 to R215): what a CMD write of each word does (R200). A
command that passes its check starts the sequencer; the effect completes with its last micro-step (Sequencer.lean). -/

namespace Sys2Proof.Machine

/-- The steps of R200 for a command that is not NOP: ignored while BUSY; otherwise DONE and ERR are cleared, check(op)
is made, and the command raises its error or starts. -/
def Engine.issue (e : Engine) (op : Instr) (cur : Cur) : Engine :=
  if e.busy then e
  else
    let c := e.clearFlags
    match c.check (some op) with
    | .none => c.start cur (firstPhase op)
    | err => c.raise (some op) err

/-- An accepted word that decodes as ILLEGAL (30 R95, 60 R265): ERR = 5, DONE = 1 and nothing else; ignored while BUSY. -/
def Engine.issueIllegal (e : Engine) : Engine :=
  if e.busy then e else e.clearFlags.raise none (e.clearFlags.check none)

/-- NOP: nothing happens, DONE and ERR included (R210). -/
def execNop (s : State) : Host.Outcome State Fault Refusal := .next s

/-- HASH: the whole digest of the Message in MSG (R211). -/
def execHash (s : State) : Host.Outcome State Fault Refusal := .next (s.setEngine (s.toEngine.issue .hash .hash))

/-- INIT: load the initial hash values (R212). -/
def execInit (s : State) : Host.Outcome State Fault Refusal := .next (s.setEngine (s.toEngine.issue .init .init))

/-- PAD: build the PaddedMessage (R213). -/
def execPad (s : State) : Host.Outcome State Fault Refusal := .next (s.setEngine (s.toEngine.issue .pad .pad))

/-- BLOCK: expand and compress one block, then chain it (R214). -/
def execBlock (s : State) : Host.Outcome State Fault Refusal := .next (s.setEngine (s.toEngine.issue .block .block))

/-- ENCODE: render H as the digest string (R215). -/
def execEncode (s : State) : Host.Outcome State Fault Refusal := .next (s.setEngine (s.toEngine.issue .encode .encode))

end Sys2Proof.Machine
end

