-- ==== Sys2Proof/Machine/Bus.lean ====
section
/-! DEFINITION. The slave port: which accesses are admitted (20_memory R63 to R65, R68), the register map (10_state
section 4), MemRead (R66), MemWrite (R67) and issue_command (44 R200). -/

namespace Sys2Proof.Machine

/-! ## The address map (10_state section 4, 30_encoding R98) -/

/-- Offset of ID (R40). -/
abbrev offId : Nat := 0x000
/-- Offset of CMD (R41). -/
abbrev offCmd : Nat := 0x004
/-- Offset of STATUS (R42). -/
abbrev offStatus : Nat := 0x008
/-- Offset of MSG_LEN (R43). -/
abbrev offMsgLen : Nat := 0x00C
/-- Offset of NBLK (R44). -/
abbrev offNblk : Nat := 0x010
/-- Offset of BLKIDX (R45). -/
abbrev offBlkidx : Nat := 0x014
/-- Offset of CAPS (R46). -/
abbrev offCaps : Nat := 0x018
/-- Offset of MSGCAP (R47). -/
abbrev offMsgCap : Nat := 0x01C
/-- Offset of DIGEST0; DIGESTk is at 0x020 + 4k (R48). -/
abbrev offDigest : Nat := 0x020
/-- Offset of the HEX window, 64 bytes (R49). -/
abbrev offHex : Nat := 0x040
/-- Offset of WV0; WVk is at 0x080 + 4k (R50). -/
abbrev offWv : Nat := 0x080
/-- The first reserved offset below the MSG window (R51). -/
abbrev offReserved : Nat := 0x0A0
/-- Offset of the MSG window (R52). -/
abbrev offMsg : Nat := 0x1000

/-- The constant ID: "S256" with 'S' in bits 31:24 (R40). -/
def idValue : Word := 0x53323536

/-- CAPS: LEN_FIELD_BYTES in bits 7:0, ADDR_W in bits 15:8, bits 31:16 zero (R46). -/
def capsWord (c : Config) : Word := 0#16 ++ BitVec.ofNat 8 c.addrW ++ BitVec.ofNat 8 c.lenField.bytes

/-- MSGCAP: MSG_CAP (R47). -/
def msgCapWord (c : Config) : Word := BitVec.ofNat 32 c.msgCap

/-- Offset a lies in the HEX window (R49). -/
def inHexWindow (a : Nat) : Bool := offHex ≤ a && a < offWv

/-- Offset a lies in the MSG window of this build (R52). -/
def inMsgWindow (c : Config) (a : Nat) : Bool := offMsg ≤ a && a < offMsg + c.msgCap

/-- The access of n bytes at offset a is admitted (R63 to R65); every other one is R68's. -/
def admitted (c : Config) (a n : Nat) : Bool :=
  a < 2 ^ c.addrW && ((n == 4 && a % 4 == 0) || (n == 1 && (inHexWindow a || offMsg ≤ a)))

/-! ## Reads -/

/-- v, or the free value d while BUSY = 1 (20_memory R71). -/
def Engine.settled (e : Engine) (d v : Word) : Word := if e.busy then d else v

/-- Byte a of a byte window or of the reserved range above MSG (10_state R49, R51, R52). HEX is unsettled while BUSY. -/
def Engine.windowByte (e : Engine) (d : Word) (a : Nat) : Byte :=
  if a < offMsg then
    if e.busy then laneByte d 0 else e.hex.toList.getD (a - offHex) 0
  else if inMsgWindow e.cfg a then e.msgByte (a - offMsg)
  else 0

/-- Register k of a register file at base, for an aligned offset a in it (R48, R50). -/
def fileWord (s : HashState) (base a : Nat) : Word := s.get ⟨(a - base) / 4 % 8, by omega⟩

/-- The 32-bit value at an admitted offset (10_state R40 to R52). -/
def Engine.readWord (e : Engine) (d : Word) (a : Nat) : Word :=
  if a = offId then idValue
  else if a = offCmd then 0
  else if a = offStatus then e.status
  else if a = offMsgLen then e.msgLen
  else if a = offNblk then e.settled d e.nblk
  else if a = offBlkidx then e.settled d e.blkidx
  else if a = offCaps then capsWord e.cfg
  else if a = offMsgCap then msgCapWord e.cfg
  else if a < offHex then e.settled d (fileWord e.h offDigest a)
  else if a < offWv then
    e.settled d (laneWord (e.windowByte d a) (e.windowByte d (a + 1)) (e.windowByte d (a + 2)) (e.windowByte d (a + 3)))
  else if a < offReserved then e.settled d (fileWord e.wv offWv a)
  else if a < offMsg then 0
  else laneWord (e.windowByte d a) (e.windowByte d (a + 1)) (e.windowByte d (a + 2)) (e.windowByte d (a + 3))

/-- MemRead(a, n) (R66): the value, or the refusal of R68. It changes no state. `d` is the free value of this read. -/
def Engine.memRead (e : Engine) (d : Word) (a n : Nat) : Except Refusal Word :=
  if admitted e.cfg a n then
    if n = 1 then .ok ((e.windowByte d a).zeroExtend 32) else .ok (e.readWord d a)
  else .error (.busError a n)

/-! ## Writes -/

/-- issue_command(c) (R200): ignored while BUSY, otherwise the decoded command's meaning or ILLEGAL_COMMAND. -/
def issueCommand (c : Word) (s : State) : Host.Outcome State Fault Refusal :=
  match decode c with
  | .ok i => exec i s
  | .error _ => .next (s.setEngine s.toEngine.issueIllegal)

/-- Offset a is a target that ignores writes while BUSY = 1: CMD, MSG_LEN or the MSG window (R70). -/
def lockedWhileBusy (c : Config) (a : Nat) : Bool := a == offCmd || a == offMsgLen || inMsgWindow c a

/-- MemWrite(a, n, v) (R67). -/
def memWrite (s : State) (a n : Nat) (v : Word) : Host.Outcome State Fault Refusal :=
  if admitted s.cfg a n then
    if s.busy && lockedWhileBusy s.cfg a then .next s
    else if a = offCmd then issueCommand v s
    else if a = offMsgLen then .next (s.setEngine (s.toEngine.setMsgLen v))
    else if inMsgWindow s.cfg a then
      .next (s.setEngine (s.toEngine.setMsg (Cells.write s.msg (a - offMsg) (laneBytes n v))))
    else .next s
  else .refused (.busError a n)

end Sys2Proof.Machine
end

