-- ==== Sys2Proof/Machine/Agents.lean ====
section
/-! DEFINITION. The agents that step: the host (00_scope R9, 30_encoding R97), the engine (44 R222) and the reset input
(70_reset R290), which of them moves next, and how a command is placed where the next step runs it. -/

namespace Sys2Proof.Machine

/-! ## The host -/

/-- The host has a step while its program has a next statement. -/
def State.hostReady (s : State) : Bool := s.host.pc < s.host.prog.length

/-- A host variable: the value assigned, or a free value while none has been. Log 18. -/
def HostAgent.var (h : HostAgent) (r : Nat) : Word := (Cells.lookup r h.vars).getD (Config.freeVar r)

/-- r <- v. -/
def HostAgent.assign (h : HostAgent) (r : Nat) (v : Word) : HostAgent := { h with vars := Cells.write h.vars r [v] }

/-- The host goes to statement pc. -/
def HostAgent.goto (h : HostAgent) (pc : Nat) : HostAgent := { h with pc := pc }

/-- The host has the port's response r. -/
def HostAgent.answer (h : HostAgent) (r : BusResp) : HostAgent := { h with resp := r }

/-- The host past its statement, its write acknowledged. -/
def State.hostAck (s : State) : State := s.setHost ((s.host.goto (s.host.pc + 1)).answer .ack)

/-- The host past its statement, its access answered with the error response of R68. -/
def State.hostError (s : State) (a n : Nat) : State := s.setHost ((s.host.goto (s.host.pc + 1)).answer (.busError a n))

/-- `write a n v`: MemWrite(a, n, v). A refused access changes no state of the engine and the host goes on (R68). Log 5. -/
def State.hostWrite (s : State) (a n : Nat) (v : Word) : Host.Outcome State Fault Refusal :=
  match memWrite s.hostAck a n v with
  | .next t => .next t
  | .fault f => .fault f
  | .refused (.busError _ _) => .next (s.hostError a n)
  | .refused r => .refused r

/-- `read a n r`: r <- MemRead(a, n). A refused read leaves r a free value, since its data is unspecified (R68). Log 5. -/
def State.hostRead (s : State) (a n r : Nat) : State :=
  let d := Config.freeRead s.draws
  let h := s.host.goto (s.host.pc + 1)
  match s.toEngine.memRead d a n with
  | .ok v => (s.setHost ((h.assign r v).answer (.data v))).setDraws (s.draws + 1)
  | .error _ => (s.setHost ((h.assign r d).answer (.busError a n))).setDraws (s.draws + 1)

/-- `bnz r mask target`, on the host alone (R97). -/
def State.hostBranch (s : State) (r : Nat) (mask : Word) (target : Nat) : State :=
  s.setHost (s.host.goto (if s.host.var r &&& mask ≠ 0 then target else s.host.pc + 1))

/-- One step of the host: its next statement. Past the end of its program it has none. -/
def hostStep (s : State) : Host.Outcome State Fault Refusal :=
  match s.host.prog[s.host.pc]? with
  | none => .next s
  | some (.read a n r) => .next (s.hostRead a n r)
  | some (.write a n v) => s.hostWrite a n v
  | some (.bnz r mask target) => .next (s.hostBranch r mask target)

/-! ## The engine and the reset input -/

/-- One step of the engine, the rest of the machine unchanged. -/
def engineStep (s : State) : Host.Outcome State Fault Refusal :=
  match s.toEngine.step with
  | .next e => .next (s.setEngine e)
  | .fault f => .fault f
  | .refused r => .refused r

/-- The reset input (R290): every piece of the engine's state at its reset value, the build unchanged, and MSG and
PADBUF unspecified anew (R291). The host agent is outside the engine and keeps its state. Log 16. -/
def State.resetInput (s : State) : State := s.setEngine (.resetWith s.cfg (s.epoch + 1))

/-! ## Which agent moves -/

/-- What the next step is. `quiet` is a turn whose agent has no step. -/
inductive Move where
  | host
  | engine
  | reset
  | quiet
deriving DecidableEq, Repr

/-- The next move and the machine with that choice taken. A listed turn decides; where none is listed the one agent
with a step moves, and between two the choice is a free value (R9, 93 U10). Logs 2 and 3. -/
def State.nextMove (s : State) : Move × State :=
  match s.turns with
  | .reset :: rest => (.reset, s.setTurns rest)
  | .host :: rest => (if s.hostReady then .host else .quiet, s.setTurns rest)
  | .engine :: rest => (if s.busy then .engine else .quiet, s.setTurns rest)
  | [] =>
    if s.hostReady && s.busy then
      match Config.freeAgent s.ticks with
      | .host => (.host, s.setTicks (s.ticks + 1))
      | .engine => (.engine, s.setTicks (s.ticks + 1))
    else if s.hostReady then (.host, s)
    else if s.busy then (.engine, s)
    else (.quiet, s)

/-- The machine's step: the next move, made by its agent. -/
def machineStep (s : State) : Host.Outcome State Fault Refusal :=
  match s.nextMove with
  | (.host, t) => hostStep t
  | (.engine, t) => engineStep t
  | (.reset, t) => .next t.resetInput
  | (.quiet, t) => .next t

/-! ## Placing a command -/

/-- The machine about to run the command word w (its low nbits bits): the host's program is the one write of it to
CMD, and the host moves next. Log 15. -/
def State.placeCommand (s : State) (nbits w : Nat) : State :=
  (s.setHost { s.host with prog := [.write offCmd 4 (BitVec.ofNat 32 (w % 2 ^ nbits))], pc := 0 }).setTurns
    (.host :: s.turns)

end Sys2Proof.Machine
end

