-- ==== Sys2Proof/Machine/Step.lean ====
section
/-! DEFINITION. The machine's one step and the placing of a command, in their fixed names. -/

namespace Sys2Proof.Machine

/-- One step of the machine (Machine/Agents.lean). -/
def step (s : State) : Host.Outcome State Fault Refusal := machineStep s

/-- s with the command word w placed so that the very next step runs it (Machine/Agents.lean). -/
def State.withFetchWord (s : State) (nbits w : Nat) : State := s.placeCommand nbits w

end Sys2Proof.Machine
end

