-- ==== Sys2Proof/Machine/HostAsm.lean ====
section
/-! DEFINITION. The host assembly of 30_encoding R97 to R102: its text, its statements and pseudo-instructions, their
expansions, and the assembled program the host agent runs. Log 20. -/

namespace Sys2Proof.Machine

/-! ## Core lines: what every statement expands to -/

/-- A label: one written in the program, or the fresh label of the k-th line's WAIT_IDLE (R101). -/
inductive Label where
  | named (name : String)
  | fresh (k : Nat)
deriving DecidableEq, Repr

/-- A line of R97's table, its label and its variable still by name. -/
inductive CoreLine where
  | label (l : Label)
  | write (off width : Nat) (v : Word)
  | read (off width : Nat) (r : String)
  | bnz (r : String) (mask : Word) (l : Label)
deriving DecidableEq, Repr

/-- A line of a host program: a machine statement (R97), a pseudo-instruction (R99 to R102) or a label. -/
inductive AsmLine where
  | label (name : String)
  | wr32 (off : Nat) (v : Word)
  | wr8 (off : Nat) (v : Word)
  | rd32 (off : Nat) (r : String)
  | rd8 (off : Nat) (r : String)
  | bnz (r : String) (mask : Word) (l : String)
  | cmdw (op : Instr)
  | loadMsg (bytes : List Byte)
  | waitIdle
  | run (op : Instr)
  /-- `READHEX -> r0..r15`; the stem is the variables' common name. -/
  | readHex (stem : String)
  /-- `READDIG -> d0..d7`. -/
  | readDig (stem : String)
deriving DecidableEq, Repr

/-- LOADMSG's writes from MSG index i on: a 32-bit write for each full group of four bytes, an 8-bit write for each
byte left (R100). -/
def loadMsgLines (i : Nat) : List Byte → List CoreLine
  | b0 :: b1 :: b2 :: b3 :: rest => .write (offMsg + i) 4 (laneWord b0 b1 b2 b3) :: loadMsgLines (i + 4) rest
  | b0 :: rest => .write (offMsg + i) 1 (b0.zeroExtend 32) :: loadMsgLines (i + 1) rest
  | [] => []

/-- WAIT_IDLE in the k-th line (R101). -/
def waitIdleLines (k : Nat) : List CoreLine :=
  [.label (.fresh k), .read offStatus 4 "s", .bnz "s" 1 (.fresh k)]

/-- The core lines of the k-th line (R97, R99 to R102). -/
def AsmLine.expand (k : Nat) : AsmLine → List CoreLine
  | .label name => [.label (.named name)]
  | .wr32 off v => [.write off 4 v]
  | .wr8 off v => [.write off 1 v]
  | .rd32 off r => [.read off 4 r]
  | .rd8 off r => [.read off 1 r]
  | .bnz r mask l => [.bnz r mask (.named l)]
  | .cmdw op => [.write offCmd 4 (encode op)]
  | .loadMsg bytes => loadMsgLines 0 bytes ++ [.write offMsgLen 4 (BitVec.ofNat 32 bytes.length)]
  | .waitIdle => waitIdleLines k
  | .run op => .write offCmd 4 (encode op) :: waitIdleLines k
  | .readHex stem => (List.range 16).map fun j => .read (offHex + 4 * j) 4 (stem ++ toString j)
  | .readDig stem => (List.range 8).map fun j => .read (offDigest + 4 * j) 4 (stem ++ toString j)

/-! ## Assembling -/

/-- The core lines of a whole program. -/
def expandLines (lines : List AsmLine) : List CoreLine := lines.zipIdx.flatMap fun p => p.1.expand p.2

/-- The statement numbers at which label l stands, counting from n. -/
def labelSites (l : Label) (n : Nat) : List CoreLine → List Nat
  | [] => []
  | .label m :: rest => if m = l then n :: labelSites l n rest else labelSites l n rest
  | _ :: rest => labelSites l (n + 1) rest

/-- The variables a program names, without repeats; a variable's number is its place here. -/
def variableNames (core : List CoreLine) : List String :=
  (core.filterMap fun
    | .read _ _ r => some r
    | .bnz r _ _ => some r
    | .write _ _ _ => none
    | .label _ => none).eraseDups

/-- The number of a variable. -/
def variableNumber (core : List CoreLine) (r : String) : Nat := (variableNames core).idxOf r

/-- The statements of the lines `rest` of the program `core`; none where a branch names a label that does not stand at
exactly one place. -/
def emit (core : List CoreLine) : List CoreLine → Option (List HostStmt)
  | [] => some []
  | .label _ :: rest => emit core rest
  | .write off width v :: rest => (emit core rest).map (.write off width v :: ·)
  | .read off width r :: rest => (emit core rest).map (.read off width (variableNumber core r) :: ·)
  | .bnz r mask l :: rest =>
    match labelSites l 0 core with
    | [site] => (emit core rest).map (.bnz (variableNumber core r) mask site :: ·)
    | _ => none

/-- The assembled program. -/
def assemble (lines : List AsmLine) : Option (List HostStmt) := emit (expandLines lines) (expandLines lines)

/-- The machine with a host program loaded and the host at its first statement. A program's variables are its own, by
the model's choice: none of the new program's is assigned yet, so each reads as log 18's free value. Log 15. -/
def State.loadProgram (s : State) (prog : List HostStmt) : State :=
  s.setHost { s.host with prog := prog, pc := 0, vars := [] }

/-! ## The text of a line -/

/-- A token: a run of letters, digits and underscores, a string literal's characters, or one other character. -/
inductive Token where
  | word (cs : String)
  | text (cs : List Char)
  | sym (c : Char)
deriving DecidableEq, Repr

/-- The scanner's place: the tokens so far and the pending characters, latest first. -/
structure Scan where
  tokens : List Token
  pending : List Char
  inText : Bool
  inComment : Bool
deriving DecidableEq, Repr

/-- The double quote that opens and closes a string literal. -/
def quoteChar : Char := Char.ofNat 0x22

/-- A character of a name or a number. -/
def nameChar (c : Char) : Bool := c.isAlphanum || c == '_'

/-- The pending word, if any, becomes a token. -/
def Scan.flush (s : Scan) : Scan :=
  if s.pending.isEmpty then s
  else { s with tokens := .word (String.ofList s.pending.reverse) :: s.tokens, pending := [] }

/-- One character read. `;` starts a comment that runs to the end of the line (R97), but inside a string literal it is a
character of the literal, which stands for its bytes (R100): the model's choice, log 20. -/
def Scan.char (s : Scan) (c : Char) : Scan :=
  if s.inComment then s
  else if s.inText then
    if c == quoteChar then { s with tokens := .text s.pending.reverse :: s.tokens, pending := [], inText := false }
    else { s with pending := c :: s.pending }
  else if nameChar c then { s with pending := c :: s.pending }
  else if c == quoteChar then { s.flush with inText := true }
  else if c == ';' then { s.flush with inComment := true }
  else if c.isWhitespace then s.flush
  else { s.flush with tokens := .sym c :: s.flush.tokens }

/-- The line's end. A string literal still open there leaves its opening quote as a token, which no statement admits, so
the line does not assemble: the model's choice, log 20. -/
def Scan.finish (s : Scan) : Scan :=
  if s.inText then { s with tokens := .sym quoteChar :: s.tokens, pending := [] } else s.flush

/-- The tokens of one line. -/
def tokens (line : String) : List Token :=
  (line.toList.foldl Scan.char { tokens := [], pending := [], inText := false, inComment := false }).finish.tokens.reverse

/-- The value of a digit in base 16. -/
def digitValue (c : Char) : Option Nat :=
  if '0' ≤ c ∧ c ≤ '9' then some (c.toNat - '0'.toNat)
  else if 'a' ≤ c ∧ c ≤ 'f' then some (c.toNat - 'a'.toNat + 10)
  else if 'A' ≤ c ∧ c ≤ 'F' then some (c.toNat - 'A'.toNat + 10)
  else none

/-- The value of digits in a base, from n on. -/
def digitsFrom (base n : Nat) : List Char → Option Nat
  | [] => some n
  | c :: rest =>
    match digitValue c with
    | some d => if d < base then digitsFrom base (base * n + d) rest else none
    | none => none

/-- A number: decimal, or hexadecimal after 0x (R97). -/
def number (cs : String) : Option Nat :=
  match cs.toList with
  | '0' :: 'x' :: d :: rest => digitsFrom 16 0 (d :: rest)
  | d :: rest => digitsFrom 10 0 (d :: rest)
  | [] => none

/-- The register names that stand for offsets (R98). -/
def registerNames : List (String × Nat) :=
  [("ID", offId), ("CMD", offCmd), ("STATUS", offStatus), ("MSG_LEN", offMsgLen), ("NBLK", offNblk),
   ("BLKIDX", offBlkidx), ("CAPS", offCaps), ("MSGCAP", offMsgCap), ("HEX", offHex), ("MSG", offMsg)]
  ++ (List.range 8).map (fun k => ("DIGEST" ++ toString k, offDigest + 4 * k))
  ++ (List.range 8).map (fun k => ("WV" ++ toString k, offWv + 4 * k))

/-- A name or a number as an offset. -/
def offsetWord (cs : String) : Option Nat :=
  match registerNames.lookup cs with
  | some a => some a
  | none => number cs

/-- An offset expression: one register name or number, or MSG+n (R98). Beyond that, any register name + n (HEX+n, as R102
uses it, STATUS+n and the others) and number + n are admitted, and no longer sum: the model's choice, log 20. -/
def offset : List Token → Option Nat
  | [.word a] => offsetWord a
  | [.word a, .sym '+', .word b] =>
    match offsetWord a, number b with
    | some x, some y => some (x + y)
    | _, _ => none
  | _ => none

/-- A command's mnemonic (R93). -/
def opNamed (cs : String) : Option Instr :=
  [("NOP", Instr.nop), ("HASH", .hash), ("INIT", .init), ("PAD", .pad), ("BLOCK", .block), ("ENCODE", .encode)].lookup cs

/-- The tokens before and after the first comma. -/
def atComma : List Token → List Token × List Token
  | [] => ([], [])
  | .sym ',' :: rest => ([], rest)
  | t :: rest => (t :: (atComma rest).1, (atComma rest).2)

/-- The tokens before `->` and the one word after it. -/
def atArrow : List Token → Option (List Token × String)
  | [.sym '-', .sym '>', .word r] => some ([], r)
  | t :: rest => (atArrow rest).map fun p => (t :: p.1, p.2)
  | [] => none

/-- `WR32 off, v` and `WR8 off, v`: the offset and the data. -/
def writeArgs (ts : List Token) : Option (Nat × Word) :=
  match offset (atComma ts).1, (atComma ts).2 with
  | some off, [.word v] => (number v).map fun n => (off, BitVec.ofNat 32 n)
  | _, _ => none

/-- `RD32 off -> r` and `RD8 off -> r`: the offset and the variable. -/
def readArgs (ts : List Token) : Option (Nat × String) :=
  match atArrow ts with
  | some (off, r) => (offset off).map fun a => (a, r)
  | none => none

/-- The stem of a run of variables `r0..r<last>`. -/
def variableRun (last : Nat) : List Token → Option String
  | [.sym '-', .sym '>', .word a, .sym '.', .sym '.', .word b] =>
    let stem := String.ofList a.toList.dropLast
    if a = stem ++ "0" ∧ b = stem ++ toString last then some stem else none
  | _ => none

/-- One statement (R97, R99 to R102). -/
def statement (head : String) (args : List Token) : Option AsmLine :=
  if head = "WR32" then (writeArgs args).map fun p => .wr32 p.1 p.2
  else if head = "WR8" then (writeArgs args).map fun p => .wr8 p.1 p.2
  else if head = "RD32" then (readArgs args).map fun p => .rd32 p.1 p.2
  else if head = "RD8" then (readArgs args).map fun p => .rd8 p.1 p.2
  else if head = "BNZ" then
    match args with
    | [.word r, .sym ',', .word mask, .sym ',', .word l] => (number mask).map fun n => .bnz r (BitVec.ofNat 32 n) l
    | _ => none
  else if head = "CMDW" then
    match args with
    | [.word op] => (opNamed op).map .cmdw
    | _ => none
  else if head = "RUN" then
    match args with
    | [.word op] => (opNamed op).map .run
    | _ => none
  else if head = "WAIT_IDLE" then (if args = [] then some .waitIdle else none)
  else if head = "LOADMSG" then
    match args with
    | [.text cs] => some (.loadMsg (cs.map fun c => BitVec.ofNat 8 c.toNat))
    | _ => none
  else if head = "READHEX" then (variableRun 15 args).map .readHex
  else if head = "READDIG" then (variableRun 7 args).map .readDig
  else none

/-- The lines of one text line: a label `name:`, a statement, a label before a statement, or nothing (R97). -/
def parseTokens : List Token → Option (List AsmLine)
  | [] => some []
  | [.word name, .sym ':'] => some [.label name]
  | .word name :: .sym ':' :: .word head :: args => (statement head args).map fun l => [.label name, l]
  | .word head :: args => (statement head args).map fun l => [l]
  | _ => none

/-- A host program from its text lines. -/
def parseProgram : List String → Option (List AsmLine)
  | [] => some []
  | line :: rest =>
    match parseTokens (tokens line), parseProgram rest with
    | some a, some b => some (a ++ b)
    | _, _ => none

/-- The assembled program of a text. -/
def assembleText (text : List String) : Option (List HostStmt) :=
  match parseProgram text with
  | some lines => assemble lines
  | none => none

end Sys2Proof.Machine
end

