-- ==== Sys2Proof/Safety.lean ====
section
/-! DEFINITION. What counts as a safe run, in the terms claims use: the invariant of the machine, commands performed to
their completion with the step counts of 44_digest_commands R223, and runs. -/

namespace Sys2Proof.Machine

/-- seq and CUR stand together as R220 and R221 allow, and EXP's index is in 16 .. 63 (R153). -/
def Engine.seqLegal (e : Engine) : Prop :=
  match e.seq.phase with
  | .idle => e.cur = .none ∧ e.seq.t = 0
  | .pad => (e.cur = .hash ∨ e.cur = .pad) ∧ e.seq.t = 0
  | .init => (e.cur = .hash ∨ e.cur = .init) ∧ e.seq.t = 0
  | .load => (e.cur = .hash ∨ e.cur = .block) ∧ e.seq.t = 0
  | .exp => (e.cur = .hash ∨ e.cur = .block) ∧ 16 ≤ e.seq.t.val
  | .rnd => e.cur = .hash ∨ e.cur = .block
  | .chain => (e.cur = .hash ∨ e.cur = .block) ∧ e.seq.t = 0
  | .enc => (e.cur = .hash ∨ e.cur = .encode) ∧ e.seq.t = 0

/-- The engine is working on a block, or is about to: HASH between its PAD and its first LOAD, or any of LOAD, EXP, RND
and CHAIN. -/
def Engine.inBlock (e : Engine) : Prop :=
  (e.seq.phase = .init ∧ e.cur = .hash) ∨ e.seq.phase = .load ∨ e.seq.phase = .exp ∨ e.seq.phase = .rnd ∨
    e.seq.phase = .chain

/-- The error codes that commands raise, and NONE (60 R260). -/
def ErrCode.raised (c : ErrCode) : Prop :=
  c = .none ∨ c = .invalidInput ∨ c = .illegalCommand ∨ c = .noBlock

/-- The invariant of the engine. -/
structure Engine.Inv (e : Engine) : Prop where
  /-- The build is one the spec admits (00_scope R6 to R8). -/
  cfg_wf : e.cfg.wf = true
  /-- MSG is in canonical form and inside its MSG_CAP bytes (10 R29). -/
  msg_wf : Memory.wf e.msg
  msg_within : Cells.within e.msg e.cfg.msgCap
  /-- PADBUF is in canonical form and inside its PADCAP bytes (10 R25). -/
  padbuf_wf : Memory.wf e.padbuf
  padbuf_within : Cells.within e.padbuf (padCap e.cfg)
  /-- PADBUF holds the 64·NBLK padded bytes (42 R155), which fit it. -/
  padbuf_held : ∀ i, i < 64 * e.nblk.toNat → (Cells.lookup i e.padbuf).isSome
  nblk_fits : 64 * e.nblk.toNat ≤ padCap e.cfg
  /-- BLKIDX never exceeds NBLK (60 R266), and a block being worked on exists. -/
  blkidx_le : e.blkidx.toNat ≤ e.nblk.toNat
  block_held : e.inBlock → e.blkidx.toNat < e.nblk.toNat
  /-- The sequencer stands where R220 and R221 can put it. -/
  seq_legal : e.seqLegal
  /-- The Message was accepted before PAD reads it (60 R267). -/
  input_held : e.seq.phase = .pad → e.inputInvalid = false
  /-- While BUSY = 1, DONE = 0 and ERR = 0 (10 R42). -/
  busy_flags : e.busy = true → e.done = false ∧ e.err = .none
  /-- Only codes 0, 1, 5 and 6 are held (60 R260), and an error is held only with DONE = 1 (60 R270). -/
  err_raised : e.err.raised
  err_done : e.err ≠ .none → e.done = true

/-- The invariant of the machine: the engine's, and the host's variables in canonical form. -/
structure State.Inv (s : State) : Prop where
  engine : s.toEngine.Inv
  vars_wf : Cells.wf s.host.vars

/-! ## Commands performed to completion -/

/-- NBLK as PAD computes it for the Message in MSG: len(pad(m))/64 (41 R135). -/
def Engine.messageBlocks (e : Engine) : Nat := padLen e.cfg.lenField e.msgLen.toNat / 64

/-- The number of engine steps an accepted command takes in the reference sequencer (44 R223); NOP takes none. -/
def Engine.stepCount (e : Engine) : Instr → Nat
  | .nop => 0
  | .hash => 3 + 114 * e.messageBlocks
  | .init => 1
  | .pad => 1
  | .block => 114
  | .encode => 1

/-- A command issued and then run for n engine steps: exec, then the engine alone. -/
def performFor (n : Nat) (i : Instr) (s : State) : Host.Outcome Engine Fault Refusal :=
  match exec i s with
  | .next t => t.toEngine.run n
  | .fault f => .fault f
  | .refused r => .refused r

/-- A command issued and run for its step count. -/
def perform (i : Instr) (s : State) : Host.Outcome Engine Fault Refusal := performFor (s.toEngine.stepCount i) i s

/-- Commands performed one after another, each from the engine the one before it left. -/
def performAll : List Instr → State → Host.Outcome Engine Fault Refusal
  | [], s => .next s.toEngine
  | i :: rest, s =>
    match perform i s with
    | .next e => performAll rest (s.setEngine e)
    | .fault f => .fault f
    | .refused r => .refused r

/-- The bus writes of a list of core lines, one after another; a line that is no write is passed over. -/
def writeAll : List CoreLine → State → Host.Outcome State Fault Refusal
  | [], s => .next s
  | .write off width v :: rest, s =>
    match memWrite s off width v with
    | .next t => writeAll rest t
    | .fault f => .fault f
    | .refused r => .refused r
  | .label _ :: rest, s => writeAll rest s
  | .read _ _ _ :: rest, s => writeAll rest s
  | .bnz _ _ _ :: rest, s => writeAll rest s

/-! ## Runs of the machine -/

/-- k steps of the machine lead from s to t, and in each state before the last one P holds. -/
inductive Runs (P : State → Prop) : Nat → State → State → Prop where
  | refl (s : State) : Runs P 0 s s
  | step {k : Nat} {s m t : State} : P s → Machine.step s = .next m → Runs P k m t → Runs P (k + 1) s t

/-- The environment asserts no reset in the choices listed. -/
def State.noResetListed (s : State) : Prop := Turn.reset ∉ s.turns

end Sys2Proof.Machine
end

