-- ==== Sys2Proof/Certificates/Slice0/Obligations.lean ====
section
/-! DEFINITION. The statements about the model, from the numbered rules of spec/. Each docstring names the rules it rests
on; OBLIGATIONS.json lists them. A statement about a free value holds for every value of it. -/

open Sys2Proof Sys2Proof.Machine

/-! ## Command words -/

/-- The six words of the opcode table, and three illegal ones, through the decoder (30 R93, R94, 95 section 2.7). -/
def Obligations.TableWordsDecode : Prop :=
  decodeTableWord 32 0x00000000 = some .nop ∧ decodeTableWord 32 0x00000001 = some .hash ∧
    decodeTableWord 32 0x00000002 = some .init ∧ decodeTableWord 32 0x00000003 = some .pad ∧
    decodeTableWord 32 0x00000004 = some .block ∧ decodeTableWord 32 0x00000005 = some .encode ∧
    decodeTableWord 32 0x00000006 = none ∧ decodeTableWord 32 0x00000100 = none ∧ decodeTableWord 32 0x80000001 = none

/-- R93: a command is selected exactly by its whole 32-bit match value, for all 2^32 words, so decoding and encoding
agree both ways; the match values are the table's. -/
def Obligations.DecodeSelectsTheWholeWord : Prop :=
  (∀ (c : Word) (i : Instr), decode c = .ok i ↔ c = encode i) ∧
    (∀ i : Instr, decodeTableWord 32 (encode i).toNat = some i) ∧
    encode .nop = 0x00000000 ∧ encode .hash = 0x00000001 ∧ encode .init = 0x00000002 ∧ encode .pad = 0x00000003 ∧
    encode .block = 0x00000004 ∧ encode .encode = 0x00000005

/-- R95, R265: the illegal words are exactly those with RSVD != 0 or OPC in 0x06..0xFF; accepted, such a word leaves
ERR = 5 and DONE = 1 and changes nothing else; with BUSY = 1 it is ignored. -/
def Obligations.IllegalWordsRaiseIllegalCommand : Prop :=
  ∀ c : Word,
    ((∃ x, decode c = .error x) ↔ c.extractLsb' 8 24 ≠ 0#24 ∨ 6 ≤ (c.extractLsb' 0 8).toNat) ∧
    ∀ s : State, (∃ x, decode c = .error x) →
      (s.busy = false → issueCommand c s = .next { s with err := .illegalCommand, done := true }) ∧
      (s.busy = true → issueCommand c s = .next s)

/-! ## BitOps -/

/-- R110: ADD32 is addition mod 2^32; a sum of k Words is the sum of their values mod 2^32, whatever the order in which
they are taken and however the additions are bracketed. -/
def Obligations.AdditionWrapsInAnyOrder : Prop :=
  (∀ a b : Word, (add32 a b).toNat = (a.toNat + b.toNat) % 2 ^ 32) ∧
    (∀ a b c : Word, add32 (add32 a b) c = add32 a (add32 b c)) ∧
    ∀ l : List Word, (l.foldl add32 0).toNat = (l.map BitVec.toNat).sum % 2 ^ 32 ∧
      ∀ l' : List Word, l.Perm l' → l'.foldl add32 0 = l.foldl add32 0

/-- R111: bit i of ROTR(x, n) is bit (i + n mod 32) mod 32 of x, for every n. -/
def Obligations.RotateMovesEveryBit : Prop :=
  ∀ (x : Word) (n i : Nat), i < 32 → (rotr x n).getLsbD i = x.getLsbD ((i + n % 32) % 32)

/-- R112: bit i of SHR(x, n) is bit i + (n mod 32) of x, or 0 past bit 31; in particular SHR(x, 32) = x. -/
def Obligations.ShiftFillsWithZeros : Prop :=
  ∀ (x : Word) (n i : Nat), i < 32 →
    (shr x n).getLsbD i = (if i + n % 32 ≤ 31 then x.getLsbD (i + n % 32) else false) ∧ shr x 32 = x

/-- R113, R114: CH selects per bit, MAJ is 1 exactly where at least two operands are. -/
def Obligations.ChooseAndMajorityPerBit : Prop :=
  ∀ (x y z : Word) (i : Nat), i < 32 →
    (ch x y z).getLsbD i = (if x.getLsbD i then y.getLsbD i else z.getLsbD i) ∧
    ((maj x y z).getLsbD i = true ↔ 2 ≤ (x.getLsbD i).toNat + (y.getLsbD i).toNat + (z.getLsbD i).toNat) ∧
    maj y x z = maj x y z ∧ maj x z y = maj x y z

/-- R115 to R118, bit by bit through R111 and R112: every result bit of a sigma is the XOR of its three source bits. -/
def Obligations.SigmasXorTheirSourceBits : Prop :=
  ∀ (x : Word) (i : Nat), i < 32 →
    (ssig0 x).getLsbD i = ((x.getLsbD ((i + 7) % 32) ^^ x.getLsbD ((i + 18) % 32)) ^^ (decide (i + 3 ≤ 31) && x.getLsbD (i + 3))) ∧
    (ssig1 x).getLsbD i = ((x.getLsbD ((i + 17) % 32) ^^ x.getLsbD ((i + 19) % 32)) ^^ (decide (i + 10 ≤ 31) && x.getLsbD (i + 10))) ∧
    (bsig0 x).getLsbD i = ((x.getLsbD ((i + 2) % 32) ^^ x.getLsbD ((i + 13) % 32)) ^^ x.getLsbD ((i + 22) % 32)) ∧
    (bsig1 x).getLsbD i = ((x.getLsbD ((i + 6) % 32) ^^ x.getLsbD ((i + 11) % 32)) ^^ x.getLsbD ((i + 25) % 32))

/-! ## The Padder -/

/-- R131: the padded length is the smallest multiple of 64 that holds message, separator and trailer. -/
def Obligations.PaddedLengthIsTheSmallestThatFits : Prop :=
  ∀ (lf : LenField) (m p : List Byte), pad lf m = .ok p →
    p.length % 64 = 0 ∧ 0 < p.length ∧ m.length + 1 + lf.bytes ≤ p.length ∧ p.length ≤ m.length + lf.bytes + 64 ∧
    ∀ k, k % 64 = 0 → m.length + 1 + lf.bytes ≤ k → p.length ≤ k

/-- R132: message, 0x80, zero bytes (at most 63) and the bit length big-endian in the last LFB bytes, for every bit length
that the trailer can hold (be_N of R13 is given for those alone; a 32-bit MSG_LEN never exceeds it). -/
def Obligations.PaddedBytesAreLaidOut : Prop :=
  ∀ (lf : LenField) (m p : List Byte), 8 * m.length < 2 ^ 64 → pad lf m = .ok p →
    p.take m.length = m ∧ p[m.length]? = some 0x80 ∧
    (∀ i, m.length < i → i < p.length - lf.bytes → p[i]? = some 0) ∧
    p.length - lf.bytes - (m.length + 1) ≤ 63 ∧
    (p.drop (p.length - lf.bytes)).length = lf.bytes ∧
    (p.drop (p.length - lf.bytes)).foldl (fun n b => 256 * n + b.toNat) 0 = 8 * m.length

/-- R133: only a length above 65535 bits in the 2-byte build is refused; 8191 bytes pass and 8192 do not. -/
def Obligations.PadRefusesExactlyTheUnfitLengths : Prop :=
  (∀ (lf : LenField) (m : List Byte) (c : ErrCode),
    pad lf m = .error c ↔ c = .invalidInput ∧ lf = .two ∧ 65535 < 8 * m.length) ∧
  (∀ m : List Byte, m.length = 8191 → ∃ p, pad .two m = .ok p) ∧
  (∀ m : List Byte, m.length = 8192 → pad .two m = .error .invalidInput)

/-- R136 to R138: the block count in closed form and its steps, and the one block of the empty Message. -/
def Obligations.BlockCountFollowsTheClosedForm : Prop :=
  (∀ (lf : LenField) (m p : List Byte), pad lf m = .ok p →
    p.length = 64 * ((m.length + lf.bytes) / 64 + 1) ∧
    (lf = .eight → p.length / 64 = if m.length % 64 ≤ 55 then m.length / 64 + 1 else m.length / 64 + 2) ∧
    (lf = .two → p.length / 64 = if m.length % 64 ≤ 61 then m.length / 64 + 1 else m.length / 64 + 2)) ∧
  (∀ lf : LenField, pad lf [] = .ok (0x80 :: List.replicate 63 0))

/-- R140: up to 8191 bytes the two trailer widths pad to the same bytes exactly when n mod 64 is in 0..55 or 62..63, and
for 56..61 the 2-byte trailer gives one block fewer. That the digests then differ is not stated: it would rule out a
collision. -/
def Obligations.TrailerWidthsAgreeExactly : Prop :=
  ∀ m p q : List Byte, m.length ≤ 8191 → pad .eight m = .ok p → pad .two m = .ok q →
    (p = q ↔ m.length % 64 ≤ 55 ∨ 62 ≤ m.length % 64) ∧
    (56 ≤ m.length % 64 → m.length % 64 ≤ 61 → p.length / 64 = q.length / 64 + 1)

/-! ## Schedule and compression -/

/-- R150, R151: the first 16 schedule words are the Block's big-endian words, the other 48 satisfy the recurrence. -/
def Obligations.ScheduleWordsFollowTheRecurrence : Prop :=
  ∀ b : Block,
    (∀ j : Fin 16, (expand b)[j.val] = b[4 * j.val] ++ b[4 * j.val + 1] ++ b[4 * j.val + 2] ++ b[4 * j.val + 3]) ∧
    (∀ t, (lo : 16 ≤ t) → (hi : t < 64) →
      (expand b)[t] = ssig1 (expand b)[t - 2] + (expand b)[t - 7] + ssig0 (expand b)[t - 15] + (expand b)[t - 16])

/-- R152: the LOAD micro-step writes W[0..15] from block BLKIDX of PADBUF and WV from H, and nothing else but seq. -/
def Obligations.LoadReadsTheBlockAndTheChainingValue : Prop :=
  ∀ e : Engine, e.seq = ⟨.load, 0⟩ → ∃ w : Schedule,
    e.step = .next { e with w := w, wv := e.h, seq := ⟨.exp, 16⟩ } ∧
    (∀ j : Fin 16, w[j.val] = e.padByte (64 * e.blkidx.toNat + 4 * j.val) ++ e.padByte (64 * e.blkidx.toNat + 4 * j.val + 1) ++
      e.padByte (64 * e.blkidx.toNat + 4 * j.val + 2) ++ e.padByte (64 * e.blkidx.toNat + 4 * j.val + 3)) ∧
    (∀ t, 16 ≤ t → (hi : t < 64) → w[t] = e.w[t])

/-- R153: the EXP(t) micro-step writes W[t] and nothing else but seq. -/
def Obligations.ExpandStepWritesOneWord : Prop :=
  ∀ (e : Engine) (t : Fin 64), 16 ≤ t.val → e.seq = ⟨.exp, t⟩ → ∃ (w : Schedule) (q : Seq),
    e.step = .next { e with w := w, seq := q } ∧
    w[t] = ssig1 e.w[t.val - 2] + e.w[t.val - 7] + ssig0 e.w[t.val - 15] + e.w[t.val - 16] ∧
    (∀ i : Fin 64, i ≠ t → w[i] = e.w[i])

/-- R173, R174: the RND(t) micro-step writes all eight working variables from their values at its start (the new E from
the pre-shift D), and nothing else but seq. -/
def Obligations.RoundReadsEverythingBeforeItWrites : Prop :=
  ∀ (e : Engine) (t : Fin 64), e.seq = ⟨.rnd, t⟩ → ∃ (v : HashState) (q : Seq),
    e.step = .next { e with wv := v, seq := q } ∧
    v.h = e.wv.g ∧ v.g = e.wv.f ∧ v.f = e.wv.e ∧ v.d = e.wv.c ∧ v.c = e.wv.b ∧ v.b = e.wv.a ∧
    v.e = e.wv.d + (bsig1 e.wv.e + ch e.wv.e e.wv.f e.wv.g + e.wv.h + K[t] + e.w[t]) ∧
    v.a = (bsig1 e.wv.e + ch e.wv.e e.wv.f e.wv.g + e.wv.h + K[t] + e.w[t]) + (bsig0 e.wv.a + maj e.wv.a e.wv.b e.wv.c)

/-- R176: the CHAIN micro-step adds WV into H word by word and advances BLKIDX; WV, W, PADBUF, NBLK, HEX, MSG, MSG_LEN
and ERR stay. -/
def Obligations.ChainAddsThePreBlockState : Prop :=
  ∀ e e' : Engine, e.seq.phase = .chain → e.step = .next e' →
    (∀ k : Fin 8, e'.h.get k = e.h.get k + e'.wv.get k) ∧ e'.blkidx = e.blkidx + 1 ∧
    e'.wv = e.wv ∧ e'.w = e.w ∧ e'.padbuf = e.padbuf ∧ e'.nblk = e.nblk ∧ e'.hex = e.hex ∧ e'.msg = e.msg ∧
    e'.msgLen = e.msgLen ∧ e'.err = e.err

/-- R177 (with R154, R171, R175): LOAD, EXP(16..63), RND(0..63) and CHAIN, the 114 steps of one block, refine the
functional compression: H <- compress(expand(B), H) for B the block at BLKIDX, which advances by one. -/
def Obligations.BlockStepsRefineCompress : Prop :=
  ∀ e : Engine, e.seq = ⟨.load, 0⟩ → e.cur = .block ∨ (e.cur = .hash ∧ e.blkidx.toNat < e.nblk.toNat) →
    ∃ e' : Engine, e.run 114 = .next e' ∧
      e'.h = compress (expand e.block) e.h ∧ e'.blkidx = e.blkidx + 1 ∧
      e'.w = expand e.block ∧ e'.wv = e.h.roundsTo (expand e.block) 64 ∧
      (∀ k : Fin 8, e'.h.get k = e.h.get k + e'.wv.get k) ∧
      e'.padbuf = e.padbuf ∧ e'.nblk = e.nblk ∧ e'.hex = e.hex ∧ e'.msg = e.msg ∧ e'.msgLen = e.msgLen ∧ e'.err = e.err

/-! ## The sequencer -/

/-- R221: every row of the transition table, for every step of a busy engine; `finish` clears seq and CUR and sets
DONE, and ERR stays. BLKIDX in the CHAIN rows is the value after CHAIN's increment. -/
def Obligations.SequencerFollowsTheTable : Prop :=
  ∀ e e' : Engine, e.step = .next e' →
    let goes (q : Seq) : Prop := e'.seq = q ∧ e'.cur = e.cur ∧ e'.done = e.done ∧ e'.err = e.err
    let finishes : Prop := e'.seq = ⟨.idle, 0⟩ ∧ e'.cur = .none ∧ e'.done = true ∧ e'.err = e.err
    (e.seq.phase = .pad → e.cur = .hash → goes ⟨.init, 0⟩) ∧ (e.seq.phase = .pad → e.cur = .pad → finishes) ∧
    (e.seq.phase = .init → e.cur = .hash → goes ⟨.load, 0⟩) ∧ (e.seq.phase = .init → e.cur = .init → finishes) ∧
    (e.seq.phase = .load → goes ⟨.exp, 16⟩) ∧
    (e.seq.phase = .exp → e.seq.t.val < 63 → e'.seq.t.val = e.seq.t.val + 1 ∧ goes ⟨.exp, e'.seq.t⟩) ∧
    (e.seq.phase = .exp → e.seq.t.val = 63 → goes ⟨.rnd, 0⟩) ∧
    (e.seq.phase = .rnd → e.seq.t.val < 63 → e'.seq.t.val = e.seq.t.val + 1 ∧ goes ⟨.rnd, e'.seq.t⟩) ∧
    (e.seq.phase = .rnd → e.seq.t.val = 63 → goes ⟨.chain, 0⟩) ∧
    (e.seq.phase = .chain → e.cur = .hash → e'.blkidx.toNat < e'.nblk.toNat → goes ⟨.load, 0⟩) ∧
    (e.seq.phase = .chain → e.cur = .hash → e'.blkidx = e'.nblk → goes ⟨.enc, 0⟩) ∧
    (e.seq.phase = .chain → e.cur = .block → finishes) ∧
    (e.seq.phase = .enc → finishes)

/-- Who writes what inside the engine (10 R20 to R29, R36): a step changes H only in INIT and CHAIN, WV only in LOAD and
RND, W only in LOAD and EXP, PADBUF and NBLK only in PAD, BLKIDX only in PAD and CHAIN, HEX only in ENC, and never MSG,
MSG_LEN, ERR or the build. -/
def Obligations.EachRegisterHasItsWriters : Prop :=
  ∀ e e' : Engine, e.step = .next e' →
    (e'.h ≠ e.h → e.seq.phase = .init ∨ e.seq.phase = .chain) ∧
    (e'.wv ≠ e.wv → e.seq.phase = .load ∨ e.seq.phase = .rnd) ∧
    (e'.w ≠ e.w → e.seq.phase = .load ∨ e.seq.phase = .exp) ∧
    (e'.padbuf ≠ e.padbuf → e.seq.phase = .pad) ∧ (e'.nblk ≠ e.nblk → e.seq.phase = .pad) ∧
    (e'.blkidx ≠ e.blkidx → e.seq.phase = .pad ∨ e.seq.phase = .chain) ∧
    (e'.hex ≠ e.hex → e.seq.phase = .enc) ∧
    e'.msg = e.msg ∧ e'.msgLen = e.msgLen ∧ e'.err = e.err ∧ e'.cfg = e.cfg ∧ e'.epoch = e.epoch

/-- R223, R308 (the part that needs no fairness): from every state of the invariant a busy engine left to itself is idle
after at most 3 + 114·(PADCAP/64) steps, with DONE = 1 and ERR = 0. -/
def Obligations.EveryBusyEngineFinishes : Prop :=
  ∀ e : Engine, e.Inv → e.busy = true →
    ∃ (k : Nat) (e' : Engine), k ≤ 3 + 114 * (padCap e.cfg / 64) ∧ e.run k = .next e' ∧ e'.busy = false ∧
      e'.done = true ∧ e'.err = .none

/-! ## The six commands -/

/-- R210: NOP changes nothing at all, idle or busy, through exec and through a CMD write; a word with OPC 0x00 and
RSVD != 0 is not NOP but illegal. -/
def Obligations.NopChangesNothing : Prop :=
  (∀ s : State, exec .nop s = .next s) ∧
  (∀ s : State, s.cfg.wf = true → memWrite s offCmd 4 0x00000000 = .next s) ∧
  (∀ c : Word, c.extractLsb' 0 8 = 0#8 → c ≠ 0 → ∃ x, decode c = .error x)

/-- R211: HASH accepted starts at (PAD, 0) with DONE and ERR cleared and changes nothing else; it stays busy for
3 + 114·NBLK steps and then leaves HEX = hash(m), H its words, PADBUF, NBLK = BLKIDX, WV and W of the last block, DONE = 1
and ERR = 0, and everything else as it was. A Message the checks refuse completes at acceptance with ERR = 1 and the
empty buffer, and changes nothing else. -/
def Obligations.HashComputesTheDigest : Prop :=
  ∀ s : State, s.busy = false →
    (s.inputInvalid = true →
      exec .hash s = .next { s with nblk := 0, blkidx := 0, done := true, err := .invalidInput }) ∧
    (s.inputInvalid = false →
      exec .hash s = .next { s with done := false, err := .none, cur := .hash, seq := ⟨.pad, 0⟩ } ∧
      ∃ (p : List Byte) (n : Nat) (e : Engine),
        pad s.cfg.lenField s.toEngine.message = .ok p ∧ p.length = 64 * (n + 1) ∧
        s.toEngine.stepCount .hash = 3 + 114 * (n + 1) ∧
        perform .hash s = .next e ∧
        (∀ k, k < 3 + 114 * (n + 1) → ∃ u, performFor k .hash s = .next u ∧ u.busy = true) ∧
        Machine.hash s.cfg.lenField s.toEngine.message = .ok e.hex ∧
        (∀ i, (hi : i < p.length) → e.padByte i = p[i]) ∧
        e = { s.toEngine with
          padbuf := e.padbuf, nblk := BitVec.ofNat 32 (n + 1), blkidx := BitVec.ofNat 32 (n + 1),
          h := compressTo p IV (n + 1), hex := encodeHex (compressTo p IV (n + 1)),
          w := expand (blockOf p n), wv := (compressTo p IV n).roundsTo (expand (blockOf p n)) 64,
          done := true, err := .none, cur := .none, seq := ⟨.idle, 0⟩ })

/-- R212: INIT leaves H = IV, DONE = 1 and ERR = 0 after its one step, and changes nothing else. -/
def Obligations.InitLoadsTheInitialValues : Prop :=
  ∀ s : State, s.busy = false →
    exec .init s = .next { s with done := false, err := .none, cur := .init, seq := ⟨.init, 0⟩ } ∧
    s.toEngine.stepCount .init = 1 ∧
    perform .init s = .next { s.toEngine with
      h := ⟨0x6a09e667, 0xbb67ae85, 0x3c6ef372, 0xa54ff53a, 0x510e527f, 0x9b05688c, 0x1f83d9ab, 0x5be0cd19⟩,
      done := true, err := .none, cur := .none, seq := ⟨.idle, 0⟩ }

/-- R213: PAD leaves the PaddedMessage in PADBUF, NBLK its block count, BLKIDX = 0, DONE = 1 and ERR = 0 after its one
step, and changes nothing else; a refused Message leaves the empty buffer and ERR = 1, and changes nothing else. -/
def Obligations.PadBuildsThePaddedMessage : Prop :=
  ∀ s : State, s.busy = false →
    (s.inputInvalid = true →
      exec .pad s = .next { s with nblk := 0, blkidx := 0, done := true, err := .invalidInput }) ∧
    (s.inputInvalid = false →
      exec .pad s = .next { s with done := false, err := .none, cur := .pad, seq := ⟨.pad, 0⟩ } ∧
      ∃ (p : List Byte) (e : Engine),
        pad s.cfg.lenField s.toEngine.message = .ok p ∧ s.toEngine.stepCount .pad = 1 ∧ perform .pad s = .next e ∧
        (∀ i, (hi : i < p.length) → e.padByte i = p[i]) ∧
        64 * e.nblk.toNat = p.length ∧
        e = { s.toEngine with
          padbuf := e.padbuf, nblk := e.nblk, blkidx := 0,
          done := true, err := .none, cur := .none, seq := ⟨.idle, 0⟩ })

/-- R214: BLOCK with a block left stays busy for 114 steps and then leaves H = compress(expand(B), H), W = expand(B), WV
the post-round-63 working variables, BLKIDX advanced, DONE = 1 and ERR = 0, and everything else as it was; with
no block left it leaves ERR = 6 and DONE = 1 and changes nothing else. -/
def Obligations.BlockCompressesOneBlock : Prop :=
  ∀ s : State, s.busy = false →
    (s.nblk.toNat ≤ s.blkidx.toNat → exec .block s = .next { s with done := true, err := .noBlock }) ∧
    (s.blkidx.toNat < s.nblk.toNat →
      exec .block s = .next { s with done := false, err := .none, cur := .block, seq := ⟨.load, 0⟩ } ∧
      s.toEngine.stepCount .block = 114 ∧
      (∀ k, k < 114 → ∃ u, performFor k .block s = .next u ∧ u.busy = true) ∧
      perform .block s = .next { s.toEngine with
        h := compress (expand s.toEngine.block) s.h, w := expand s.toEngine.block,
        wv := s.h.roundsTo (expand s.toEngine.block) 64, blkidx := s.blkidx + 1,
        done := true, err := .none, cur := .none, seq := ⟨.idle, 0⟩ })

/-- R215: ENCODE leaves HEX = encode(H), DONE = 1 and ERR = 0 after its one step, and changes nothing else. -/
def Obligations.EncodeRendersTheChainingValue : Prop :=
  ∀ s : State, s.busy = false →
    exec .encode s = .next { s with done := false, err := .none, cur := .encode, seq := ⟨.enc, 0⟩ } ∧
    s.toEngine.stepCount .encode = 1 ∧
    perform .encode s = .next { s.toEngine with
      hex := encodeHex s.h, done := true, err := .none, cur := .none, seq := ⟨.idle, 0⟩ }

/-- R70: while BUSY = 1 an admitted write to CMD, MSG_LEN or the MSG window changes nothing, and so does every command. -/
def Obligations.WritesWhileBusyAreIgnored : Prop :=
  ∀ s : State, s.busy = true →
    (∀ i : Instr, exec i s = .next s) ∧
    (∀ (a n : Nat) (v : Word), admitted s.cfg a n = true →
      a = 0x004 ∨ a = 0x00C ∨ (0x1000 ≤ a ∧ a < 0x1000 + s.cfg.msgCap) → memWrite s a n v = .next s)

/-- R267, R261, R266: check(op) answers exactly the error of its op, in the rule's order, and ILLEGAL_COMMAND for the illegal
word. -/
def Obligations.CheckFollowsThePriorityOrder : Prop :=
  ∀ e : Engine,
    let tooLong : Prop := e.cfg.msgCap < e.msgLen.toNat ∨ (e.cfg.lenField = .two ∧ 65535 < 8 * e.msgLen.toNat)
    e.check none = .illegalCommand ∧
    (∀ i : Instr, i = .hash ∨ i = .pad →
      (tooLong → e.check (some i) = .invalidInput) ∧ (¬ tooLong → e.check (some i) = .none)) ∧
    (e.nblk.toNat ≤ e.blkidx.toNat → e.check (some .block) = .noBlock) ∧
    (e.blkidx.toNat < e.nblk.toNat → e.check (some .block) = .none) ∧
    (∀ i : Instr, i = .nop ∨ i = .init ∨ i = .encode → e.check (some i) = .none)

/-- R294 and the derived claim of R214: PAD and INIT in either order, BLOCK once per block and ENCODE leave exactly the
engine that HASH leaves. -/
def Obligations.StepwiseCommandsEqualHash : Prop :=
  ∀ s : State, s.busy = false → s.inputInvalid = false →
    performAll ([.pad, .init] ++ List.replicate s.toEngine.messageBlocks .block ++ [.encode]) s = perform .hash s ∧
    performAll ([.init, .pad] ++ List.replicate s.toEngine.messageBlocks .block ++ [.encode]) s = perform .hash s

/-- R224, R75, R70: from an accepted HASH, whatever program the host runs and however host and engine are interleaved
without a reset, the machine is busy with MSG and MSG_LEN unchanged until the first state with BUSY = 0, and in that state
HEX is the digest of the Message as it stood at acceptance, with DONE = 1 and ERR = 0. -/
def Obligations.HashIsRightUnderEveryInterleaving : Prop :=
  ∀ (s t u : State) (k : Nat), s.busy = false → s.inputInvalid = false →
    t.toEngine = { s.toEngine with done := false, err := .none, cur := .hash, seq := ⟨.pad, 0⟩ } →
    t.noResetListed → Runs (fun x => x.busy = true) k t u →
    u.msg = s.msg ∧ u.msgLen = s.msgLen ∧
    (u.busy = false →
      Machine.hash s.cfg.lenField s.toEngine.message = .ok u.hex ∧ u.done = true ∧ u.err = .none ∧
        digest s.cfg.lenField s.toEngine.message = .ok u.h)

/-- R204: HASH of the same Message bytes in builds with the same LEN_FIELD_BYTES leaves the same digest, whatever else the
two machines hold. -/
def Obligations.HashDependsOnTheMessageAlone : Prop :=
  ∀ (s t : State) (a b : Engine), s.busy = false → t.busy = false → s.inputInvalid = false → t.inputInvalid = false →
    s.cfg.lenField = t.cfg.lenField → s.toEngine.message = t.toEngine.message →
    perform .hash s = .next a → perform .hash t = .next b →
    a.hex = b.hex ∧ a.h = b.h ∧ a.nblk = b.nblk ∧ a.w = b.w ∧ a.wv = b.wv

/-! ## The HexEncoder -/

/-- R240 to R242: character 8k + d is nibble d of Word k, most significant first, in lowercase ASCII. -/
def Obligations.HexCharactersAreTheNibbles : Prop :=
  ∀ (s : HashState) (k d : Fin 8),
    let v := (s.get k).toNat / 16 ^ (7 - d.val) % 16
    ((encodeHex s)[8 * k.val + d.val]).toNat = if v ≤ 9 then 0x30 + v else 0x61 + (v - 10)

/-- R243: distinct states give distinct strings, and every character is in [0-9a-f]. -/
def Obligations.HexEncodingIsOneToOne : Prop :=
  (∀ s t : HashState, encodeHex s = encodeHex t → s = t) ∧
  (∀ (s : HashState) (i : Fin 64),
    (0x30 ≤ ((encodeHex s)[i]).toNat ∧ ((encodeHex s)[i]).toNat ≤ 0x39) ∨
      (0x61 ≤ ((encodeHex s)[i]).toNat ∧ ((encodeHex s)[i]).toNat ≤ 0x66))

/-! ## The slave port -/

/-- R68: exactly the accesses of its list are refused, with their offset and width; the host's step on one changes no
state of the engine and gives the host an error response, and the machine goes on (the going on is log 5's choice). -/
def Obligations.RefusedAccessesChangeNothing : Prop :=
  ∀ (s : State) (a n r : Nat) (v d : Word), s.cfg.wf = true →
    let refused : Prop := (n ≠ 1 ∧ n ≠ 4) ∨ (n = 4 ∧ a % 4 ≠ 0) ∨
      (n = 1 ∧ (a ≤ 0x03F ∨ (0x080 ≤ a ∧ a ≤ 0xFFF))) ∨ 2 ^ s.cfg.addrW ≤ a
    (refused ↔ s.toEngine.memRead d a n = .error (.busError a n)) ∧
    (refused ↔ memWrite s a n v = .refused (.busError a n)) ∧
    (refused → s.host.prog[s.host.pc]? = some (.write a n v) →
      ∃ t, hostStep s = .next t ∧ t.toEngine = s.toEngine ∧ t.host.resp = .busError a n) ∧
    (refused → s.host.prog[s.host.pc]? = some (.read a n r) →
      ∃ t, hostStep s = .next t ∧ t.toEngine = s.toEngine ∧ t.host.resp = .busError a n)

/-- R40, R44 to R48, R50: the read-only registers: their values, any value (the draw d) where the spec says so while
BUSY = 1, writes ignored, and 0 after reset where they hold state. -/
def Obligations.ReadOnlyRegistersReadAsMapped : Prop :=
  ∀ (s : State) (d v : Word), s.cfg.wf = true →
    s.toEngine.memRead d 0x000 4 = .ok 0x53323536 ∧
    s.toEngine.memRead d 0x010 4 = .ok (if s.busy then d else s.nblk) ∧
    s.toEngine.memRead d 0x014 4 = .ok (if s.busy then d else s.blkidx) ∧
    (∃ c : Word, s.toEngine.memRead d 0x018 4 = .ok c ∧ c.toNat = s.cfg.lenField.bytes + 256 * s.cfg.addrW) ∧
    (∃ c : Word, s.toEngine.memRead d 0x01C 4 = .ok c ∧ c.toNat = s.cfg.msgCap) ∧
    (∀ k : Fin 8, s.toEngine.memRead d (0x020 + 4 * k.val) 4 = .ok (if s.busy then d else s.h.get k)) ∧
    (∀ k : Fin 8, s.toEngine.memRead d (0x080 + 4 * k.val) 4 = .ok (if s.busy then d else s.wv.get k)) ∧
    (∀ a, a % 4 = 0 → a = 0x000 ∨ (0x010 ≤ a ∧ a < 0x040) ∨ (0x080 ≤ a ∧ a < 0x0A0) → memWrite s a 4 v = .next s) ∧
    (∀ a, a % 4 = 0 → (0x010 ≤ a ∧ a < 0x018) ∨ (0x020 ≤ a ∧ a < 0x040) ∨ (0x080 ≤ a ∧ a < 0x0A0) →
      (Engine.resetWith s.cfg s.epoch).memRead d a 4 = .ok 0)

/-- R42 (with R31 to R34): the fields of STATUS, writes ignored, 0 after reset, and BUSY = 1, DONE = 0, ERR = 0 while busy;
and the number of every error code by name (R260), so an idle machine that has completed with the code n reads 16n + 2. -/
def Obligations.StatusShowsBusyDoneErr : Prop :=
  (∀ (s : State) (d v : Word), s.cfg.wf = true → ∃ w : Word, s.toEngine.memRead d 0x008 4 = .ok w ∧
    w.getLsbD 0 = s.busy ∧ w.getLsbD 1 = s.done ∧ w.extractLsb' 2 2 = 0#2 ∧ w.extractLsb' 4 4 = s.err.code ∧
    w.extractLsb' 8 24 = 0#24 ∧ memWrite s 0x008 4 v = .next s ∧
    (s.toEngine.Inv → s.busy = true → w = 0x00000001)) ∧
  State.reset.toEngine.status = 0x00000000 ∧
  (ErrCode.none.code = 0#4 ∧ ErrCode.invalidInput.code = 1#4 ∧ ErrCode.invalidBlockSize.code = 2#4 ∧
    ErrCode.invalidHashSize.code = 3#4 ∧ ErrCode.invalidSchedule.code = 4#4 ∧ ErrCode.illegalCommand.code = 5#4 ∧
    ErrCode.noBlock.code = 6#4) ∧
  (∀ e : Engine, e.busy = false → e.done = true →
    (e.err = .none → e.status = 0x00000002) ∧ (e.err = .invalidInput → e.status = 0x00000012) ∧
    (e.err = .illegalCommand → e.status = 0x00000052) ∧ (e.err = .noBlock → e.status = 0x00000062))

/-- R43, R36: MSG_LEN takes every value while idle, reads back at any time, and nothing else changes. -/
def Obligations.MsgLenReadsBackEveryValue : Prop :=
  ∀ (s : State) (d v : Word), s.cfg.wf = true →
    s.toEngine.memRead d 0x00C 4 = .ok s.msgLen ∧
    (s.busy = false → memWrite s 0x00C 4 v = .next { s with msgLen := v }) ∧
    (s.busy = true → memWrite s 0x00C 4 v = .next s) ∧ State.reset.msgLen = 0

/-- R41, R67, R200: a read of CMD returns 0; a 32-bit write to it issues the word, whatever the word, or, with BUSY = 1, is
ignored. Issued, a command's word is its meaning and an illegal word leaves ERR = 5 and DONE = 1 alone (R95, R265). -/
def Obligations.CmdIssuesAndReadsZero : Prop :=
  ∀ (s : State) (d c : Word), s.cfg.wf = true →
    s.toEngine.memRead d 0x004 4 = .ok 0 ∧
    (s.busy = true → memWrite s 0x004 4 c = .next s) ∧
    (s.busy = false → memWrite s 0x004 4 c = issueCommand c s) ∧
    (s.busy = false → ∀ i : Instr, decode c = .ok i → memWrite s 0x004 4 c = exec i s) ∧
    (s.busy = false → (∃ x, decode c = .error x) →
      memWrite s 0x004 4 c = .next { s with err := .illegalCommand, done := true })

/-- R49, R62, R65: the HEX window by bytes and by little-endian words, any value while BUSY = 1, writes ignored, zero
bytes after reset. -/
def Obligations.HexWindowReadsTheDigestString : Prop :=
  ∀ (s : State) (d v : Word), s.cfg.wf = true →
    (∀ i : Fin 64, s.busy = false → s.toEngine.memRead d (0x040 + i.val) 1 = .ok ((s.hex[i]).zeroExtend 32)) ∧
    (∀ j : Fin 16, s.toEngine.memRead d (0x040 + 4 * j.val) 4 = .ok (if s.busy then d else
      s.hex[4 * j.val + 3] ++ s.hex[4 * j.val + 2] ++ s.hex[4 * j.val + 1] ++ s.hex[4 * j.val])) ∧
    (∀ i : Fin 64, s.busy = true → ∀ b : Byte, ∃ d' : Word, s.toEngine.memRead d' (0x040 + i.val) 1 = .ok (b.zeroExtend 32)) ∧
    (∀ i : Fin 64, memWrite s (0x040 + i.val) 1 v = .next s) ∧ (∀ j : Fin 16, memWrite s (0x040 + 4 * j.val) 4 v = .next s) ∧
    (∀ i : Fin 64, (Engine.resetWith s.cfg s.epoch).hex[i] = 0)

/-- R52, R62, R64, R67: an 8-bit and an aligned 32-bit write to the MSG window while idle store exactly their bytes, lane b
at index + b, and change nothing else; reads of both widths return the stored bytes at any time (R71). -/
def Obligations.MsgWindowStoresExactlyItsBytes : Prop :=
  ∀ (s : State) (i : Nat) (v d : Word), s.cfg.wf = true → i < s.cfg.msgCap →
    s.toEngine.memRead d (0x1000 + i) 1 = .ok ((s.toEngine.msgByte i).zeroExtend 32) ∧
    (i % 4 = 0 → s.toEngine.memRead d (0x1000 + i) 4 = .ok (s.toEngine.msgByte (i + 3) ++ s.toEngine.msgByte (i + 2) ++
      s.toEngine.msgByte (i + 1) ++ s.toEngine.msgByte i)) ∧
    (s.busy = false → ∃ t, memWrite s (0x1000 + i) 1 v = .next t ∧ t = { s with msg := t.msg } ∧
      t.toEngine.msgByte i = v.extractLsb' 0 8 ∧ (∀ j, j ≠ i → t.toEngine.msgByte j = s.toEngine.msgByte j)) ∧
    (s.busy = false → i % 4 = 0 → ∃ t, memWrite s (0x1000 + i) 4 v = .next t ∧ t = { s with msg := t.msg } ∧
      t.toEngine.msgByte i = v.extractLsb' 0 8 ∧ t.toEngine.msgByte (i + 1) = v.extractLsb' 8 8 ∧
      t.toEngine.msgByte (i + 2) = v.extractLsb' 16 8 ∧ t.toEngine.msgByte (i + 3) = v.extractLsb' 24 8 ∧
      (∀ j, j < i ∨ i + 4 ≤ j → t.toEngine.msgByte j = s.toEngine.msgByte j) ∧
      t.toEngine.memRead d (0x1000 + i) 4 = .ok v)

/-- R51: the reserved offsets read as zero and ignore writes, at every admitted width and at any time. -/
def Obligations.ReservedOffsetsReadZeroIgnoreWrites : Prop :=
  ∀ (s : State) (a n : Nat) (v d : Word), s.cfg.wf = true → admitted s.cfg a n = true →
    (0x0A0 ≤ a ∧ a ≤ 0xFFF) ∨ 0x1000 + s.cfg.msgCap ≤ a →
    s.toEngine.memRead d a n = .ok 0 ∧ memWrite s a n v = .next s

/-- R66, R69: a read changes no state of the engine; while idle, two reads with no step between return the same value
(whatever their draws); while busy, the registers of R71's first list still return their defined values. -/
def Obligations.ReadsHaveNoSideEffect : Prop :=
  (∀ (s t : State) (a n r : Nat), s.host.prog[s.host.pc]? = some (.read a n r) → hostStep s = .next t →
    t.toEngine = s.toEngine ∧ t.turns = s.turns) ∧
  (∀ (e : Engine) (a n : Nat) (d d' : Word), e.busy = false → e.memRead d a n = e.memRead d' a n) ∧
  (∀ (e : Engine) (a n : Nat) (d d' : Word),
    a ≤ 0x00C ∨ a = 0x018 ∨ a = 0x01C ∨ 0x0A0 ≤ a → e.memRead d a n = e.memRead d' a n)

/-- R35, R71 (its last sentence), R281: a host step that is no write to CMD changes nothing of the engine but MSG and
MSG_LEN, so H, WV, NBLK, BLKIDX, HEX, DONE, ERR and BUSY stay until the next command; an idle engine has no step. -/
def Obligations.ResultsStayUntilTheNextCommand : Prop :=
  (∀ s t : State, hostStep s = .next t → (∀ v n, s.host.prog[s.host.pc]? ≠ some (.write 0x004 n v)) →
    t.toEngine = { s.toEngine with msg := t.msg, msgLen := t.msgLen }) ∧
  (∀ s : State, s.busy = false → engineStep s = .next s)

/-- R97: a host read of an admitted offset puts the value in its variable and goes on; BNZ branches exactly when the
masked variable is not 0, on the host alone. The model's choices in it: the host's fields (log 4), that a host past its last
statement answers the same state (log 3), the counter of draws (log 6), a variable not assigned yet (log 18). -/
def Obligations.HostStatementsRunOnTheHostAlone : Prop :=
  (∀ (s : State) (a n r : Nat) (v : Word), s.host.prog[s.host.pc]? = some (.read a n r) →
    s.toEngine.memRead (Config.freeRead s.draws) a n = .ok v →
    ∃ t, hostStep s = .next t ∧ t = { s with host := t.host, draws := s.draws + 1 } ∧ t.host.var r = v ∧
      t.host.resp = .data v ∧ t.host.pc = s.host.pc + 1 ∧ t.host.prog = s.host.prog ∧
      (∀ q, q ≠ r → t.host.var q = s.host.var q)) ∧
  (∀ (s : State) (r target : Nat) (mask : Word), s.host.prog[s.host.pc]? = some (.bnz r mask target) →
    hostStep s = .next { s with host := { s.host with
      pc := if s.host.var r &&& mask ≠ 0 then target else s.host.pc + 1 } }) ∧
  (∀ s : State, s.hostReady = false → hostStep s = .next s)

/-- R97, R67: a host write of an admitted offset and width is that MemWrite on the whole machine, with the host past its
statement and acknowledged (log 4's bookkeeping), and it always answers a next state. -/
def Obligations.HostWritesMakeTheirTransactions : Prop :=
  ∀ (s : State) (a n : Nat) (v : Word), s.host.prog[s.host.pc]? = some (.write a n v) → admitted s.cfg a n = true →
    hostStep s = memWrite { s with host := { s.host with pc := s.host.pc + 1, resp := .ack } } a n v ∧
      ∃ t, hostStep s = .next t

/-- R100: the writes of LOADMSG on an idle machine leave the bytes as the Message, MSG_LEN their number, every other byte
of MSG as it was, and nothing else changed. -/
def Obligations.LoadMsgWritesTheMessage : Prop :=
  ∀ (s : State) (k : Nat) (bytes : List Byte), s.cfg.wf = true → s.busy = false → bytes.length ≤ s.cfg.msgCap →
    ∃ t, writeAll (AsmLine.expand k (.loadMsg bytes)) s = .next t ∧ t.toEngine.message = bytes ∧
      t.msgLen.toNat = bytes.length ∧ (∀ j, bytes.length ≤ j → t.toEngine.msgByte j = s.toEngine.msgByte j) ∧
      t = { s with msg := t.msg, msgLen := t.msgLen }

/-! ## The machine -/

/-- When the host moves next and its statement writes the word of a command to CMD, the machine's step is that command's
meaning, on the state with the turn taken and the host past its statement (44 R200; the host's bookkeeping is log 4's
choice). A command placed by withFetchWord is run so by the very next step. -/
def Obligations.StepRunsTheDecodedCommand : Prop :=
  (∀ (s t : State) (c : Word) (i : Instr), t.cfg.wf = true → s.nextMove = (.host, t) →
    t.host.prog[t.host.pc]? = some (.write 0x004 4 c) → decode c = .ok i → step s = exec i t.hostAck) ∧
  (∀ (s : State) (c : Word) (i : Instr), s.cfg.wf = true → decode c = .ok i →
    ∃ t : State, step (s.withFetchWord 32 c.toNat) = exec i t ∧ t.toEngine = s.toEngine ∧ t.turns = s.turns)

/-- R9, R222, R281: a listed turn moves its agent if that agent has a step and changes nothing if it has none; with no turn
listed and both agents with a step, one of the two moves (which one is free, 93 U10); with one, that one moves, and with none
the machine stays as it is (logs 2 and 3 choose the form). -/
def Obligations.EachTurnMovesItsAgent : Prop :=
  ∀ (s : State) (rest : List Turn),
    (s.turns = .host :: rest → s.hostReady = true → step s = hostStep { s with turns := rest }) ∧
    (s.turns = .engine :: rest → s.busy = true → step s = engineStep { s with turns := rest }) ∧
    (s.turns = .host :: rest → s.hostReady = false → step s = .next { s with turns := rest }) ∧
    (s.turns = .engine :: rest → s.busy = false → step s = .next { s with turns := rest }) ∧
    (s.turns = [] → s.hostReady = true → s.busy = true →
      step s = hostStep { s with ticks := s.ticks + 1 } ∨ step s = engineStep { s with ticks := s.ticks + 1 }) ∧
    (s.turns = [] → s.hostReady = true → s.busy = false → step s = hostStep s) ∧
    (s.turns = [] → s.hostReady = false → s.busy = true → step s = engineStep s) ∧
    (s.turns = [] → s.hostReady = false → s.busy = false → step s = .next s)

/-- R290, R291: the reset input puts every piece of the engine's state at its reset value in one step, from any state; the
build stays; every MSG byte is the new epoch's free value. -/
def Obligations.ResetInputSetsEveryRegister : Prop :=
  ∀ (s : State) (rest : List Turn), s.turns = .reset :: rest → ∃ t : State,
    step s = .next t ∧ (∀ k : Fin 8, t.h.get k = 0 ∧ t.wv.get k = 0) ∧ (∀ i : Fin 64, t.w[i] = 0 ∧ t.hex[i] = 0) ∧
    t.nblk = 0 ∧ t.blkidx = 0 ∧ t.msgLen = 0 ∧ t.seq = ⟨.idle, 0⟩ ∧ t.cur = .none ∧ t.busy = false ∧ t.done = false ∧
    t.err = .none ∧ t.toEngine.status = 0 ∧ t.cfg = s.cfg ∧ t.host = s.host ∧
    (∀ i, t.toEngine.msgByte i = Config.freeMsg (s.epoch + 1) i)

/-- R290, R292 for State.reset: idle, every register at its reset value, no byte of memory listed, the default build. -/
def Obligations.ResetStateIsIdleAndZero : Prop :=
  (∀ k : Fin 8, State.reset.h.get k = 0 ∧ State.reset.wv.get k = 0) ∧
  (∀ i : Fin 64, State.reset.w[i] = 0 ∧ State.reset.hex[i] = 0) ∧
  State.reset.nblk = 0 ∧ State.reset.blkidx = 0 ∧ State.reset.msgLen = 0 ∧ State.reset.seq = ⟨.idle, 0⟩ ∧
  State.reset.cur = .none ∧ State.reset.busy = false ∧ State.reset.done = false ∧ State.reset.err = .none ∧
  State.reset.msg = [] ∧ State.reset.padbuf = [] ∧ State.reset.cfg = Config.defaultBuild

/-- The invariant holds at reset (93 U5, 10 R53). -/
def Obligations.InvariantHoldsAtReset : Prop := State.reset.Inv

/-- The invariant (admitted build, canonical memories inside their buffers, PADBUF holding its 64·NBLK bytes,
BLKIDX <= NBLK and < NBLK inside a block, a legal sequencer position, DONE and ERR clear while busy, only the raised error
codes) is kept by every step of the machine, whoever moves (10 R25, R30, R42, 60 R260, R266, 42 R155). -/
def Obligations.EveryStepKeepsTheInvariant : Prop :=
  ∀ s t : State, s.Inv → step s = .next t → t.Inv

/-- R269: from every state of the invariant the machine's step answers a next state; no micro-step fails, and no host
statement stops the machine. That the machine goes on after a refused access is the model's choice (log 5), and so is that a
step where no agent has one, or where a listed turn's agent has none, answers next (log 3). -/
def Obligations.StepNeverStops : Prop :=
  ∀ s : State, s.Inv → ∃ t, step s = .next t

/-- R262 to R264, R260: the codes 2, 3 and 4 are never raised: no step of any machine that holds none of them leads to one. -/
def Obligations.UnreachableCodesAreNeverRaised : Prop :=
  ∀ s t : State, step s = .next t → s.err.raised → t.err.raised

/-- R53: nothing writes the configuration. -/
def Obligations.NothingWritesTheBuild : Prop :=
  ∀ s t : State, step s = .next t → t.cfg = s.cfg

/-- R70, R75, R268: while BUSY = 1 no step of the host, refused accesses among them, changes anything of the engine; and
no step of the engine changes anything of the host. -/
def Obligations.HostCannotDisturbARunningCommand : Prop :=
  (∀ s t : State, s.busy = true → hostStep s = .next t → t.toEngine = s.toEngine) ∧
  (∀ s t : State, engineStep s = .next t → t.host = s.host ∧ t.msg = s.msg ∧ t.msgLen = s.msgLen ∧ t.turns = s.turns)

/-! ## The round constants -/

/-- R170: K is the table, row by row as the spec prints it (K[j], K[j + 16], K[j + 32], K[j + 48]), and each entry is
floor(cbrt(p * 2^96)) mod 2^32 for its prime p, the first 64 primes in order: q is the integer part of the cube root. -/
def Obligations.RoundConstantsAreTheTable : Prop :=
  ((List.finRange 16).map fun j => (K[j.val], K[j.val + 16], K[j.val + 32], K[j.val + 48])) = ([
    (0x428a2f98, 0xe49b69c1, 0x27b70a85, 0x19a4c116),
    (0x71374491, 0xefbe4786, 0x2e1b2138, 0x1e376c08),
    (0xb5c0fbcf, 0x0fc19dc6, 0x4d2c6dfc, 0x2748774c),
    (0xe9b5dba5, 0x240ca1cc, 0x53380d13, 0x34b0bcb5),
    (0x3956c25b, 0x2de92c6f, 0x650a7354, 0x391c0cb3),
    (0x59f111f1, 0x4a7484aa, 0x766a0abb, 0x4ed8aa4a),
    (0x923f82a4, 0x5cb0a9dc, 0x81c2c92e, 0x5b9cca4f),
    (0xab1c5ed5, 0x76f988da, 0x92722c85, 0x682e6ff3),
    (0xd807aa98, 0x983e5152, 0xa2bfe8a1, 0x748f82ee),
    (0x12835b01, 0xa831c66d, 0xa81a664b, 0x78a5636f),
    (0x243185be, 0xb00327c8, 0xc24b8b70, 0x84c87814),
    (0x550c7dc3, 0xbf597fc7, 0xc76c51a3, 0x8cc70208),
    (0x72be5d74, 0xc6e00bf3, 0xd192e819, 0x90befffa),
    (0x80deb1fe, 0xd5a79147, 0xd6990624, 0xa4506ceb),
    (0x9bdc06a7, 0x06ca6351, 0xf40e3585, 0xbef9a3f7),
    (0xc19bf174, 0x14292967, 0x106aa070, 0xc67178f2)] : List (Word × Word × Word × Word)) ∧
  ((List.range 312).filter fun p => 2 ≤ p && (List.range p).all fun d => d ≤ 1 || p % d != 0).length = 64 ∧
  ∀ (t : Fin 64) (p : Nat),
    ((List.range 312).filter fun p => 2 ≤ p && (List.range p).all fun d => d ≤ 1 || p % d != 0)[t.val]? = some p →
    ∃ q : Nat, (q * 2 ^ 32 + K[t].toNat) ^ 3 ≤ p * 2 ^ 96 ∧ p * 2 ^ 96 < (q * 2 ^ 32 + K[t].toNat + 1) ^ 3
end

