-- ==== Sys2Proof/Laws/BitOps.lean ====
section
/-! SUPPORT. The word functions bit by bit, and byte lanes. -/

namespace Sys2Proof.Machine

@[simp] theorem add32_toNat (a b : Word) : (add32 a b).toNat = (a.toNat + b.toNat) % 2 ^ 32 := BitVec.toNat_add a b

theorem add32_assoc (a b c : Word) : add32 (add32 a b) c = add32 a (add32 b c) := BitVec.add_assoc a b c

theorem add32_comm (a b : Word) : add32 a b = add32 b a := BitVec.add_comm a b

theorem shr_getLsbD (x : Word) (n i : Nat) : (shr x n).getLsbD i = x.getLsbD (i + n % 32) := by
  simp [shr, Nat.add_comm]

theorem rotr_getLsbD (x : Word) (n i : Nat) (hi : i < 32) : (rotr x n).getLsbD i = x.getLsbD ((i + n % 32) % 32) := by
  have hm : n % 32 < 32 := Nat.mod_lt _ (by decide)
  generalize hq : n % 32 = m at hm
  unfold rotr
  rw [hq]
  by_cases h0 : m = 0
  · subst h0
    simp [Nat.mod_eq_of_lt hi]
  · simp only [h0, if_false, BitVec.getLsbD_or, BitVec.getLsbD_ushiftRight, BitVec.getLsbD_shiftLeft, hi,
      decide_true, Bool.true_and]
    by_cases hlt : i + m < 32
    · have h1 : i < 32 - m := by omega
      simp [Nat.mod_eq_of_lt hlt, h1, Nat.add_comm]
    · have h1 : ¬ i < 32 - m := by omega
      have h2 : (i + m) % 32 = i - (32 - m) := by omega
      have h3 : x.getLsbD (m + i) = false := BitVec.getLsbD_of_ge x _ (by omega)
      simp [h1, h2, h3]

theorem ch_getLsbD (e f g : Word) (i : Nat) (hi : i < 32) :
    (ch e f g).getLsbD i = if e.getLsbD i then f.getLsbD i else g.getLsbD i := by
  simp only [ch, BitVec.getLsbD_xor, BitVec.getLsbD_and, BitVec.getLsbD_not, hi, decide_true, Bool.true_and]
  cases e.getLsbD i <;> simp

theorem maj_getLsbD (x y z : Word) (i : Nat) :
    (maj x y z).getLsbD i = ((x.getLsbD i && y.getLsbD i) ^^ (x.getLsbD i && z.getLsbD i) ^^ (y.getLsbD i && z.getLsbD i)) := by
  simp [maj]

/-! ### Byte lanes and byte order -/

theorem laneByte_laneWord (b0 b1 b2 b3 : Byte) :
    laneByte (laneWord b0 b1 b2 b3) 0 = b0 ∧ laneByte (laneWord b0 b1 b2 b3) 1 = b1 ∧
      laneByte (laneWord b0 b1 b2 b3) 2 = b2 ∧ laneByte (laneWord b0 b1 b2 b3) 3 = b3 := by
  refine ⟨?_, ?_, ?_, ?_⟩ <;>
    (apply BitVec.eq_of_getLsbD_eq; intro i hi; simp [laneByte, laneWord, hi]) <;> grind

theorem laneWord_laneByte (v : Word) : laneWord (laneByte v 0) (laneByte v 1) (laneByte v 2) (laneByte v 3) = v := by
  apply BitVec.eq_of_getLsbD_eq
  intro i hi
  simp [laneByte, laneWord]
  grind

theorem beBytes_length (n v : Nat) : (beBytes n v).length = n := by simp [beBytes]

theorem ceil64_dvd (n : Nat) : ceil64 n % 64 = 0 := by simp [ceil64]

theorem le_ceil64 (n : Nat) : n ≤ ceil64 n := by
  unfold ceil64
  omega

theorem ceil64_lt (n : Nat) : ceil64 n < n + 64 := by
  unfold ceil64
  omega

end Sys2Proof.Machine
end

