-- ==== Sys2Proof/Laws/State.lean ====
section
/-! SUPPORT. What each update of the machine's state changes and leaves: one lemma per field per update, true by rfl, so
that no later proof unfolds a record update. -/

namespace Sys2Proof.Machine


/-! ### Engine.setH -/

@[simp] theorem Engine.setH_h (e : Engine) (v : HashState) : (e.setH v).h = v := rfl
@[simp] theorem Engine.setH_wv (e : Engine) (v : HashState) : (e.setH v).wv = e.wv := rfl
@[simp] theorem Engine.setH_w (e : Engine) (v : HashState) : (e.setH v).w = e.w := rfl
@[simp] theorem Engine.setH_padbuf (e : Engine) (v : HashState) : (e.setH v).padbuf = e.padbuf := rfl
@[simp] theorem Engine.setH_nblk (e : Engine) (v : HashState) : (e.setH v).nblk = e.nblk := rfl
@[simp] theorem Engine.setH_blkidx (e : Engine) (v : HashState) : (e.setH v).blkidx = e.blkidx := rfl
@[simp] theorem Engine.setH_hex (e : Engine) (v : HashState) : (e.setH v).hex = e.hex := rfl
@[simp] theorem Engine.setH_msg (e : Engine) (v : HashState) : (e.setH v).msg = e.msg := rfl
@[simp] theorem Engine.setH_msgLen (e : Engine) (v : HashState) : (e.setH v).msgLen = e.msgLen := rfl
@[simp] theorem Engine.setH_done (e : Engine) (v : HashState) : (e.setH v).done = e.done := rfl
@[simp] theorem Engine.setH_err (e : Engine) (v : HashState) : (e.setH v).err = e.err := rfl
@[simp] theorem Engine.setH_seq (e : Engine) (v : HashState) : (e.setH v).seq = e.seq := rfl
@[simp] theorem Engine.setH_cur (e : Engine) (v : HashState) : (e.setH v).cur = e.cur := rfl
@[simp] theorem Engine.setH_cfg (e : Engine) (v : HashState) : (e.setH v).cfg = e.cfg := rfl
@[simp] theorem Engine.setH_epoch (e : Engine) (v : HashState) : (e.setH v).epoch = e.epoch := rfl

/-! ### Engine.setWv -/

@[simp] theorem Engine.setWv_h (e : Engine) (v : HashState) : (e.setWv v).h = e.h := rfl
@[simp] theorem Engine.setWv_wv (e : Engine) (v : HashState) : (e.setWv v).wv = v := rfl
@[simp] theorem Engine.setWv_w (e : Engine) (v : HashState) : (e.setWv v).w = e.w := rfl
@[simp] theorem Engine.setWv_padbuf (e : Engine) (v : HashState) : (e.setWv v).padbuf = e.padbuf := rfl
@[simp] theorem Engine.setWv_nblk (e : Engine) (v : HashState) : (e.setWv v).nblk = e.nblk := rfl
@[simp] theorem Engine.setWv_blkidx (e : Engine) (v : HashState) : (e.setWv v).blkidx = e.blkidx := rfl
@[simp] theorem Engine.setWv_hex (e : Engine) (v : HashState) : (e.setWv v).hex = e.hex := rfl
@[simp] theorem Engine.setWv_msg (e : Engine) (v : HashState) : (e.setWv v).msg = e.msg := rfl
@[simp] theorem Engine.setWv_msgLen (e : Engine) (v : HashState) : (e.setWv v).msgLen = e.msgLen := rfl
@[simp] theorem Engine.setWv_done (e : Engine) (v : HashState) : (e.setWv v).done = e.done := rfl
@[simp] theorem Engine.setWv_err (e : Engine) (v : HashState) : (e.setWv v).err = e.err := rfl
@[simp] theorem Engine.setWv_seq (e : Engine) (v : HashState) : (e.setWv v).seq = e.seq := rfl
@[simp] theorem Engine.setWv_cur (e : Engine) (v : HashState) : (e.setWv v).cur = e.cur := rfl
@[simp] theorem Engine.setWv_cfg (e : Engine) (v : HashState) : (e.setWv v).cfg = e.cfg := rfl
@[simp] theorem Engine.setWv_epoch (e : Engine) (v : HashState) : (e.setWv v).epoch = e.epoch := rfl

/-! ### Engine.setW -/

@[simp] theorem Engine.setW_h (e : Engine) (v : Schedule) : (e.setW v).h = e.h := rfl
@[simp] theorem Engine.setW_wv (e : Engine) (v : Schedule) : (e.setW v).wv = e.wv := rfl
@[simp] theorem Engine.setW_w (e : Engine) (v : Schedule) : (e.setW v).w = v := rfl
@[simp] theorem Engine.setW_padbuf (e : Engine) (v : Schedule) : (e.setW v).padbuf = e.padbuf := rfl
@[simp] theorem Engine.setW_nblk (e : Engine) (v : Schedule) : (e.setW v).nblk = e.nblk := rfl
@[simp] theorem Engine.setW_blkidx (e : Engine) (v : Schedule) : (e.setW v).blkidx = e.blkidx := rfl
@[simp] theorem Engine.setW_hex (e : Engine) (v : Schedule) : (e.setW v).hex = e.hex := rfl
@[simp] theorem Engine.setW_msg (e : Engine) (v : Schedule) : (e.setW v).msg = e.msg := rfl
@[simp] theorem Engine.setW_msgLen (e : Engine) (v : Schedule) : (e.setW v).msgLen = e.msgLen := rfl
@[simp] theorem Engine.setW_done (e : Engine) (v : Schedule) : (e.setW v).done = e.done := rfl
@[simp] theorem Engine.setW_err (e : Engine) (v : Schedule) : (e.setW v).err = e.err := rfl
@[simp] theorem Engine.setW_seq (e : Engine) (v : Schedule) : (e.setW v).seq = e.seq := rfl
@[simp] theorem Engine.setW_cur (e : Engine) (v : Schedule) : (e.setW v).cur = e.cur := rfl
@[simp] theorem Engine.setW_cfg (e : Engine) (v : Schedule) : (e.setW v).cfg = e.cfg := rfl
@[simp] theorem Engine.setW_epoch (e : Engine) (v : Schedule) : (e.setW v).epoch = e.epoch := rfl

/-! ### Engine.setPadbuf -/

@[simp] theorem Engine.setPadbuf_h (e : Engine) (v : Memory) : (e.setPadbuf v).h = e.h := rfl
@[simp] theorem Engine.setPadbuf_wv (e : Engine) (v : Memory) : (e.setPadbuf v).wv = e.wv := rfl
@[simp] theorem Engine.setPadbuf_w (e : Engine) (v : Memory) : (e.setPadbuf v).w = e.w := rfl
@[simp] theorem Engine.setPadbuf_padbuf (e : Engine) (v : Memory) : (e.setPadbuf v).padbuf = v := rfl
@[simp] theorem Engine.setPadbuf_nblk (e : Engine) (v : Memory) : (e.setPadbuf v).nblk = e.nblk := rfl
@[simp] theorem Engine.setPadbuf_blkidx (e : Engine) (v : Memory) : (e.setPadbuf v).blkidx = e.blkidx := rfl
@[simp] theorem Engine.setPadbuf_hex (e : Engine) (v : Memory) : (e.setPadbuf v).hex = e.hex := rfl
@[simp] theorem Engine.setPadbuf_msg (e : Engine) (v : Memory) : (e.setPadbuf v).msg = e.msg := rfl
@[simp] theorem Engine.setPadbuf_msgLen (e : Engine) (v : Memory) : (e.setPadbuf v).msgLen = e.msgLen := rfl
@[simp] theorem Engine.setPadbuf_done (e : Engine) (v : Memory) : (e.setPadbuf v).done = e.done := rfl
@[simp] theorem Engine.setPadbuf_err (e : Engine) (v : Memory) : (e.setPadbuf v).err = e.err := rfl
@[simp] theorem Engine.setPadbuf_seq (e : Engine) (v : Memory) : (e.setPadbuf v).seq = e.seq := rfl
@[simp] theorem Engine.setPadbuf_cur (e : Engine) (v : Memory) : (e.setPadbuf v).cur = e.cur := rfl
@[simp] theorem Engine.setPadbuf_cfg (e : Engine) (v : Memory) : (e.setPadbuf v).cfg = e.cfg := rfl
@[simp] theorem Engine.setPadbuf_epoch (e : Engine) (v : Memory) : (e.setPadbuf v).epoch = e.epoch := rfl

/-! ### Engine.setBlocks -/

@[simp] theorem Engine.setBlocks_h (e : Engine) (n i : Word) : (e.setBlocks n i).h = e.h := rfl
@[simp] theorem Engine.setBlocks_wv (e : Engine) (n i : Word) : (e.setBlocks n i).wv = e.wv := rfl
@[simp] theorem Engine.setBlocks_w (e : Engine) (n i : Word) : (e.setBlocks n i).w = e.w := rfl
@[simp] theorem Engine.setBlocks_padbuf (e : Engine) (n i : Word) : (e.setBlocks n i).padbuf = e.padbuf := rfl
@[simp] theorem Engine.setBlocks_nblk (e : Engine) (n i : Word) : (e.setBlocks n i).nblk = n := rfl
@[simp] theorem Engine.setBlocks_blkidx (e : Engine) (n i : Word) : (e.setBlocks n i).blkidx = i := rfl
@[simp] theorem Engine.setBlocks_hex (e : Engine) (n i : Word) : (e.setBlocks n i).hex = e.hex := rfl
@[simp] theorem Engine.setBlocks_msg (e : Engine) (n i : Word) : (e.setBlocks n i).msg = e.msg := rfl
@[simp] theorem Engine.setBlocks_msgLen (e : Engine) (n i : Word) : (e.setBlocks n i).msgLen = e.msgLen := rfl
@[simp] theorem Engine.setBlocks_done (e : Engine) (n i : Word) : (e.setBlocks n i).done = e.done := rfl
@[simp] theorem Engine.setBlocks_err (e : Engine) (n i : Word) : (e.setBlocks n i).err = e.err := rfl
@[simp] theorem Engine.setBlocks_seq (e : Engine) (n i : Word) : (e.setBlocks n i).seq = e.seq := rfl
@[simp] theorem Engine.setBlocks_cur (e : Engine) (n i : Word) : (e.setBlocks n i).cur = e.cur := rfl
@[simp] theorem Engine.setBlocks_cfg (e : Engine) (n i : Word) : (e.setBlocks n i).cfg = e.cfg := rfl
@[simp] theorem Engine.setBlocks_epoch (e : Engine) (n i : Word) : (e.setBlocks n i).epoch = e.epoch := rfl

/-! ### Engine.setHex -/

@[simp] theorem Engine.setHex_h (e : Engine) (v : HexString) : (e.setHex v).h = e.h := rfl
@[simp] theorem Engine.setHex_wv (e : Engine) (v : HexString) : (e.setHex v).wv = e.wv := rfl
@[simp] theorem Engine.setHex_w (e : Engine) (v : HexString) : (e.setHex v).w = e.w := rfl
@[simp] theorem Engine.setHex_padbuf (e : Engine) (v : HexString) : (e.setHex v).padbuf = e.padbuf := rfl
@[simp] theorem Engine.setHex_nblk (e : Engine) (v : HexString) : (e.setHex v).nblk = e.nblk := rfl
@[simp] theorem Engine.setHex_blkidx (e : Engine) (v : HexString) : (e.setHex v).blkidx = e.blkidx := rfl
@[simp] theorem Engine.setHex_hex (e : Engine) (v : HexString) : (e.setHex v).hex = v := rfl
@[simp] theorem Engine.setHex_msg (e : Engine) (v : HexString) : (e.setHex v).msg = e.msg := rfl
@[simp] theorem Engine.setHex_msgLen (e : Engine) (v : HexString) : (e.setHex v).msgLen = e.msgLen := rfl
@[simp] theorem Engine.setHex_done (e : Engine) (v : HexString) : (e.setHex v).done = e.done := rfl
@[simp] theorem Engine.setHex_err (e : Engine) (v : HexString) : (e.setHex v).err = e.err := rfl
@[simp] theorem Engine.setHex_seq (e : Engine) (v : HexString) : (e.setHex v).seq = e.seq := rfl
@[simp] theorem Engine.setHex_cur (e : Engine) (v : HexString) : (e.setHex v).cur = e.cur := rfl
@[simp] theorem Engine.setHex_cfg (e : Engine) (v : HexString) : (e.setHex v).cfg = e.cfg := rfl
@[simp] theorem Engine.setHex_epoch (e : Engine) (v : HexString) : (e.setHex v).epoch = e.epoch := rfl

/-! ### Engine.setMsg -/

@[simp] theorem Engine.setMsg_h (e : Engine) (v : Memory) : (e.setMsg v).h = e.h := rfl
@[simp] theorem Engine.setMsg_wv (e : Engine) (v : Memory) : (e.setMsg v).wv = e.wv := rfl
@[simp] theorem Engine.setMsg_w (e : Engine) (v : Memory) : (e.setMsg v).w = e.w := rfl
@[simp] theorem Engine.setMsg_padbuf (e : Engine) (v : Memory) : (e.setMsg v).padbuf = e.padbuf := rfl
@[simp] theorem Engine.setMsg_nblk (e : Engine) (v : Memory) : (e.setMsg v).nblk = e.nblk := rfl
@[simp] theorem Engine.setMsg_blkidx (e : Engine) (v : Memory) : (e.setMsg v).blkidx = e.blkidx := rfl
@[simp] theorem Engine.setMsg_hex (e : Engine) (v : Memory) : (e.setMsg v).hex = e.hex := rfl
@[simp] theorem Engine.setMsg_msg (e : Engine) (v : Memory) : (e.setMsg v).msg = v := rfl
@[simp] theorem Engine.setMsg_msgLen (e : Engine) (v : Memory) : (e.setMsg v).msgLen = e.msgLen := rfl
@[simp] theorem Engine.setMsg_done (e : Engine) (v : Memory) : (e.setMsg v).done = e.done := rfl
@[simp] theorem Engine.setMsg_err (e : Engine) (v : Memory) : (e.setMsg v).err = e.err := rfl
@[simp] theorem Engine.setMsg_seq (e : Engine) (v : Memory) : (e.setMsg v).seq = e.seq := rfl
@[simp] theorem Engine.setMsg_cur (e : Engine) (v : Memory) : (e.setMsg v).cur = e.cur := rfl
@[simp] theorem Engine.setMsg_cfg (e : Engine) (v : Memory) : (e.setMsg v).cfg = e.cfg := rfl
@[simp] theorem Engine.setMsg_epoch (e : Engine) (v : Memory) : (e.setMsg v).epoch = e.epoch := rfl

/-! ### Engine.setMsgLen -/

@[simp] theorem Engine.setMsgLen_h (e : Engine) (v : Word) : (e.setMsgLen v).h = e.h := rfl
@[simp] theorem Engine.setMsgLen_wv (e : Engine) (v : Word) : (e.setMsgLen v).wv = e.wv := rfl
@[simp] theorem Engine.setMsgLen_w (e : Engine) (v : Word) : (e.setMsgLen v).w = e.w := rfl
@[simp] theorem Engine.setMsgLen_padbuf (e : Engine) (v : Word) : (e.setMsgLen v).padbuf = e.padbuf := rfl
@[simp] theorem Engine.setMsgLen_nblk (e : Engine) (v : Word) : (e.setMsgLen v).nblk = e.nblk := rfl
@[simp] theorem Engine.setMsgLen_blkidx (e : Engine) (v : Word) : (e.setMsgLen v).blkidx = e.blkidx := rfl
@[simp] theorem Engine.setMsgLen_hex (e : Engine) (v : Word) : (e.setMsgLen v).hex = e.hex := rfl
@[simp] theorem Engine.setMsgLen_msg (e : Engine) (v : Word) : (e.setMsgLen v).msg = e.msg := rfl
@[simp] theorem Engine.setMsgLen_msgLen (e : Engine) (v : Word) : (e.setMsgLen v).msgLen = v := rfl
@[simp] theorem Engine.setMsgLen_done (e : Engine) (v : Word) : (e.setMsgLen v).done = e.done := rfl
@[simp] theorem Engine.setMsgLen_err (e : Engine) (v : Word) : (e.setMsgLen v).err = e.err := rfl
@[simp] theorem Engine.setMsgLen_seq (e : Engine) (v : Word) : (e.setMsgLen v).seq = e.seq := rfl
@[simp] theorem Engine.setMsgLen_cur (e : Engine) (v : Word) : (e.setMsgLen v).cur = e.cur := rfl
@[simp] theorem Engine.setMsgLen_cfg (e : Engine) (v : Word) : (e.setMsgLen v).cfg = e.cfg := rfl
@[simp] theorem Engine.setMsgLen_epoch (e : Engine) (v : Word) : (e.setMsgLen v).epoch = e.epoch := rfl

/-! ### Engine.setFlags -/

@[simp] theorem Engine.setFlags_h (e : Engine) (d : Bool) (c : ErrCode) : (e.setFlags d c).h = e.h := rfl
@[simp] theorem Engine.setFlags_wv (e : Engine) (d : Bool) (c : ErrCode) : (e.setFlags d c).wv = e.wv := rfl
@[simp] theorem Engine.setFlags_w (e : Engine) (d : Bool) (c : ErrCode) : (e.setFlags d c).w = e.w := rfl
@[simp] theorem Engine.setFlags_padbuf (e : Engine) (d : Bool) (c : ErrCode) : (e.setFlags d c).padbuf = e.padbuf := rfl
@[simp] theorem Engine.setFlags_nblk (e : Engine) (d : Bool) (c : ErrCode) : (e.setFlags d c).nblk = e.nblk := rfl
@[simp] theorem Engine.setFlags_blkidx (e : Engine) (d : Bool) (c : ErrCode) : (e.setFlags d c).blkidx = e.blkidx := rfl
@[simp] theorem Engine.setFlags_hex (e : Engine) (d : Bool) (c : ErrCode) : (e.setFlags d c).hex = e.hex := rfl
@[simp] theorem Engine.setFlags_msg (e : Engine) (d : Bool) (c : ErrCode) : (e.setFlags d c).msg = e.msg := rfl
@[simp] theorem Engine.setFlags_msgLen (e : Engine) (d : Bool) (c : ErrCode) : (e.setFlags d c).msgLen = e.msgLen := rfl
@[simp] theorem Engine.setFlags_done (e : Engine) (d : Bool) (c : ErrCode) : (e.setFlags d c).done = d := rfl
@[simp] theorem Engine.setFlags_err (e : Engine) (d : Bool) (c : ErrCode) : (e.setFlags d c).err = c := rfl
@[simp] theorem Engine.setFlags_seq (e : Engine) (d : Bool) (c : ErrCode) : (e.setFlags d c).seq = e.seq := rfl
@[simp] theorem Engine.setFlags_cur (e : Engine) (d : Bool) (c : ErrCode) : (e.setFlags d c).cur = e.cur := rfl
@[simp] theorem Engine.setFlags_cfg (e : Engine) (d : Bool) (c : ErrCode) : (e.setFlags d c).cfg = e.cfg := rfl
@[simp] theorem Engine.setFlags_epoch (e : Engine) (d : Bool) (c : ErrCode) : (e.setFlags d c).epoch = e.epoch := rfl

/-! ### Engine.setSeq -/

@[simp] theorem Engine.setSeq_h (e : Engine) (q : Seq) : (e.setSeq q).h = e.h := rfl
@[simp] theorem Engine.setSeq_wv (e : Engine) (q : Seq) : (e.setSeq q).wv = e.wv := rfl
@[simp] theorem Engine.setSeq_w (e : Engine) (q : Seq) : (e.setSeq q).w = e.w := rfl
@[simp] theorem Engine.setSeq_padbuf (e : Engine) (q : Seq) : (e.setSeq q).padbuf = e.padbuf := rfl
@[simp] theorem Engine.setSeq_nblk (e : Engine) (q : Seq) : (e.setSeq q).nblk = e.nblk := rfl
@[simp] theorem Engine.setSeq_blkidx (e : Engine) (q : Seq) : (e.setSeq q).blkidx = e.blkidx := rfl
@[simp] theorem Engine.setSeq_hex (e : Engine) (q : Seq) : (e.setSeq q).hex = e.hex := rfl
@[simp] theorem Engine.setSeq_msg (e : Engine) (q : Seq) : (e.setSeq q).msg = e.msg := rfl
@[simp] theorem Engine.setSeq_msgLen (e : Engine) (q : Seq) : (e.setSeq q).msgLen = e.msgLen := rfl
@[simp] theorem Engine.setSeq_done (e : Engine) (q : Seq) : (e.setSeq q).done = e.done := rfl
@[simp] theorem Engine.setSeq_err (e : Engine) (q : Seq) : (e.setSeq q).err = e.err := rfl
@[simp] theorem Engine.setSeq_seq (e : Engine) (q : Seq) : (e.setSeq q).seq = q := rfl
@[simp] theorem Engine.setSeq_cur (e : Engine) (q : Seq) : (e.setSeq q).cur = e.cur := rfl
@[simp] theorem Engine.setSeq_cfg (e : Engine) (q : Seq) : (e.setSeq q).cfg = e.cfg := rfl
@[simp] theorem Engine.setSeq_epoch (e : Engine) (q : Seq) : (e.setSeq q).epoch = e.epoch := rfl

/-! ### Engine.setCur -/

@[simp] theorem Engine.setCur_h (e : Engine) (c : Cur) : (e.setCur c).h = e.h := rfl
@[simp] theorem Engine.setCur_wv (e : Engine) (c : Cur) : (e.setCur c).wv = e.wv := rfl
@[simp] theorem Engine.setCur_w (e : Engine) (c : Cur) : (e.setCur c).w = e.w := rfl
@[simp] theorem Engine.setCur_padbuf (e : Engine) (c : Cur) : (e.setCur c).padbuf = e.padbuf := rfl
@[simp] theorem Engine.setCur_nblk (e : Engine) (c : Cur) : (e.setCur c).nblk = e.nblk := rfl
@[simp] theorem Engine.setCur_blkidx (e : Engine) (c : Cur) : (e.setCur c).blkidx = e.blkidx := rfl
@[simp] theorem Engine.setCur_hex (e : Engine) (c : Cur) : (e.setCur c).hex = e.hex := rfl
@[simp] theorem Engine.setCur_msg (e : Engine) (c : Cur) : (e.setCur c).msg = e.msg := rfl
@[simp] theorem Engine.setCur_msgLen (e : Engine) (c : Cur) : (e.setCur c).msgLen = e.msgLen := rfl
@[simp] theorem Engine.setCur_done (e : Engine) (c : Cur) : (e.setCur c).done = e.done := rfl
@[simp] theorem Engine.setCur_err (e : Engine) (c : Cur) : (e.setCur c).err = e.err := rfl
@[simp] theorem Engine.setCur_seq (e : Engine) (c : Cur) : (e.setCur c).seq = e.seq := rfl
@[simp] theorem Engine.setCur_cur (e : Engine) (c : Cur) : (e.setCur c).cur = c := rfl
@[simp] theorem Engine.setCur_cfg (e : Engine) (c : Cur) : (e.setCur c).cfg = e.cfg := rfl
@[simp] theorem Engine.setCur_epoch (e : Engine) (c : Cur) : (e.setCur c).epoch = e.epoch := rfl

/-! ### Engine.emptyBuffer -/

@[simp] theorem Engine.emptyBuffer_h (e : Engine) : (e.emptyBuffer).h = e.h := rfl
@[simp] theorem Engine.emptyBuffer_wv (e : Engine) : (e.emptyBuffer).wv = e.wv := rfl
@[simp] theorem Engine.emptyBuffer_w (e : Engine) : (e.emptyBuffer).w = e.w := rfl
@[simp] theorem Engine.emptyBuffer_padbuf (e : Engine) : (e.emptyBuffer).padbuf = e.padbuf := rfl
@[simp] theorem Engine.emptyBuffer_nblk (e : Engine) : (e.emptyBuffer).nblk = 0 := rfl
@[simp] theorem Engine.emptyBuffer_blkidx (e : Engine) : (e.emptyBuffer).blkidx = 0 := rfl
@[simp] theorem Engine.emptyBuffer_hex (e : Engine) : (e.emptyBuffer).hex = e.hex := rfl
@[simp] theorem Engine.emptyBuffer_msg (e : Engine) : (e.emptyBuffer).msg = e.msg := rfl
@[simp] theorem Engine.emptyBuffer_msgLen (e : Engine) : (e.emptyBuffer).msgLen = e.msgLen := rfl
@[simp] theorem Engine.emptyBuffer_done (e : Engine) : (e.emptyBuffer).done = e.done := rfl
@[simp] theorem Engine.emptyBuffer_err (e : Engine) : (e.emptyBuffer).err = e.err := rfl
@[simp] theorem Engine.emptyBuffer_seq (e : Engine) : (e.emptyBuffer).seq = e.seq := rfl
@[simp] theorem Engine.emptyBuffer_cur (e : Engine) : (e.emptyBuffer).cur = e.cur := rfl
@[simp] theorem Engine.emptyBuffer_cfg (e : Engine) : (e.emptyBuffer).cfg = e.cfg := rfl
@[simp] theorem Engine.emptyBuffer_epoch (e : Engine) : (e.emptyBuffer).epoch = e.epoch := rfl

/-! ### Engine.clearFlags -/

@[simp] theorem Engine.clearFlags_h (e : Engine) : (e.clearFlags).h = e.h := rfl
@[simp] theorem Engine.clearFlags_wv (e : Engine) : (e.clearFlags).wv = e.wv := rfl
@[simp] theorem Engine.clearFlags_w (e : Engine) : (e.clearFlags).w = e.w := rfl
@[simp] theorem Engine.clearFlags_padbuf (e : Engine) : (e.clearFlags).padbuf = e.padbuf := rfl
@[simp] theorem Engine.clearFlags_nblk (e : Engine) : (e.clearFlags).nblk = e.nblk := rfl
@[simp] theorem Engine.clearFlags_blkidx (e : Engine) : (e.clearFlags).blkidx = e.blkidx := rfl
@[simp] theorem Engine.clearFlags_hex (e : Engine) : (e.clearFlags).hex = e.hex := rfl
@[simp] theorem Engine.clearFlags_msg (e : Engine) : (e.clearFlags).msg = e.msg := rfl
@[simp] theorem Engine.clearFlags_msgLen (e : Engine) : (e.clearFlags).msgLen = e.msgLen := rfl
@[simp] theorem Engine.clearFlags_done (e : Engine) : (e.clearFlags).done = false := rfl
@[simp] theorem Engine.clearFlags_err (e : Engine) : (e.clearFlags).err = .none := rfl
@[simp] theorem Engine.clearFlags_seq (e : Engine) : (e.clearFlags).seq = e.seq := rfl
@[simp] theorem Engine.clearFlags_cur (e : Engine) : (e.clearFlags).cur = e.cur := rfl
@[simp] theorem Engine.clearFlags_cfg (e : Engine) : (e.clearFlags).cfg = e.cfg := rfl
@[simp] theorem Engine.clearFlags_epoch (e : Engine) : (e.clearFlags).epoch = e.epoch := rfl

/-! ### Engine.start -/

@[simp] theorem Engine.start_h (e : Engine) (c : Cur) (q : Seq) : (e.start c q).h = e.h := rfl
@[simp] theorem Engine.start_wv (e : Engine) (c : Cur) (q : Seq) : (e.start c q).wv = e.wv := rfl
@[simp] theorem Engine.start_w (e : Engine) (c : Cur) (q : Seq) : (e.start c q).w = e.w := rfl
@[simp] theorem Engine.start_padbuf (e : Engine) (c : Cur) (q : Seq) : (e.start c q).padbuf = e.padbuf := rfl
@[simp] theorem Engine.start_nblk (e : Engine) (c : Cur) (q : Seq) : (e.start c q).nblk = e.nblk := rfl
@[simp] theorem Engine.start_blkidx (e : Engine) (c : Cur) (q : Seq) : (e.start c q).blkidx = e.blkidx := rfl
@[simp] theorem Engine.start_hex (e : Engine) (c : Cur) (q : Seq) : (e.start c q).hex = e.hex := rfl
@[simp] theorem Engine.start_msg (e : Engine) (c : Cur) (q : Seq) : (e.start c q).msg = e.msg := rfl
@[simp] theorem Engine.start_msgLen (e : Engine) (c : Cur) (q : Seq) : (e.start c q).msgLen = e.msgLen := rfl
@[simp] theorem Engine.start_done (e : Engine) (c : Cur) (q : Seq) : (e.start c q).done = e.done := rfl
@[simp] theorem Engine.start_err (e : Engine) (c : Cur) (q : Seq) : (e.start c q).err = e.err := rfl
@[simp] theorem Engine.start_seq (e : Engine) (c : Cur) (q : Seq) : (e.start c q).seq = q := rfl
@[simp] theorem Engine.start_cur (e : Engine) (c : Cur) (q : Seq) : (e.start c q).cur = c := rfl
@[simp] theorem Engine.start_cfg (e : Engine) (c : Cur) (q : Seq) : (e.start c q).cfg = e.cfg := rfl
@[simp] theorem Engine.start_epoch (e : Engine) (c : Cur) (q : Seq) : (e.start c q).epoch = e.epoch := rfl

/-! ### Engine.finish -/

@[simp] theorem Engine.finish_h (e : Engine) : (e.finish).h = e.h := rfl
@[simp] theorem Engine.finish_wv (e : Engine) : (e.finish).wv = e.wv := rfl
@[simp] theorem Engine.finish_w (e : Engine) : (e.finish).w = e.w := rfl
@[simp] theorem Engine.finish_padbuf (e : Engine) : (e.finish).padbuf = e.padbuf := rfl
@[simp] theorem Engine.finish_nblk (e : Engine) : (e.finish).nblk = e.nblk := rfl
@[simp] theorem Engine.finish_blkidx (e : Engine) : (e.finish).blkidx = e.blkidx := rfl
@[simp] theorem Engine.finish_hex (e : Engine) : (e.finish).hex = e.hex := rfl
@[simp] theorem Engine.finish_msg (e : Engine) : (e.finish).msg = e.msg := rfl
@[simp] theorem Engine.finish_msgLen (e : Engine) : (e.finish).msgLen = e.msgLen := rfl
@[simp] theorem Engine.finish_done (e : Engine) : (e.finish).done = true := rfl
@[simp] theorem Engine.finish_err (e : Engine) : (e.finish).err = e.err := rfl
@[simp] theorem Engine.finish_seq (e : Engine) : (e.finish).seq = .idle := rfl
@[simp] theorem Engine.finish_cur (e : Engine) : (e.finish).cur = .none := rfl
@[simp] theorem Engine.finish_cfg (e : Engine) : (e.finish).cfg = e.cfg := rfl
@[simp] theorem Engine.finish_epoch (e : Engine) : (e.finish).epoch = e.epoch := rfl

/-! ### State.setEngine -/

@[simp] theorem State.setEngine_toEngine (s : State) (v : Engine) : (s.setEngine v).toEngine = v := rfl
@[simp] theorem State.setEngine_host (s : State) (v : Engine) : (s.setEngine v).host = s.host := rfl
@[simp] theorem State.setEngine_turns (s : State) (v : Engine) : (s.setEngine v).turns = s.turns := rfl
@[simp] theorem State.setEngine_ticks (s : State) (v : Engine) : (s.setEngine v).ticks = s.ticks := rfl
@[simp] theorem State.setEngine_draws (s : State) (v : Engine) : (s.setEngine v).draws = s.draws := rfl

/-! ### State.setHost -/

@[simp] theorem State.setHost_toEngine (s : State) (v : HostAgent) : (s.setHost v).toEngine = s.toEngine := rfl
@[simp] theorem State.setHost_host (s : State) (v : HostAgent) : (s.setHost v).host = v := rfl
@[simp] theorem State.setHost_turns (s : State) (v : HostAgent) : (s.setHost v).turns = s.turns := rfl
@[simp] theorem State.setHost_ticks (s : State) (v : HostAgent) : (s.setHost v).ticks = s.ticks := rfl
@[simp] theorem State.setHost_draws (s : State) (v : HostAgent) : (s.setHost v).draws = s.draws := rfl

/-! ### State.setTurns -/

@[simp] theorem State.setTurns_toEngine (s : State) (v : List Turn) : (s.setTurns v).toEngine = s.toEngine := rfl
@[simp] theorem State.setTurns_host (s : State) (v : List Turn) : (s.setTurns v).host = s.host := rfl
@[simp] theorem State.setTurns_turns (s : State) (v : List Turn) : (s.setTurns v).turns = v := rfl
@[simp] theorem State.setTurns_ticks (s : State) (v : List Turn) : (s.setTurns v).ticks = s.ticks := rfl
@[simp] theorem State.setTurns_draws (s : State) (v : List Turn) : (s.setTurns v).draws = s.draws := rfl

/-! ### State.setTicks -/

@[simp] theorem State.setTicks_toEngine (s : State) (v : Nat) : (s.setTicks v).toEngine = s.toEngine := rfl
@[simp] theorem State.setTicks_host (s : State) (v : Nat) : (s.setTicks v).host = s.host := rfl
@[simp] theorem State.setTicks_turns (s : State) (v : Nat) : (s.setTicks v).turns = s.turns := rfl
@[simp] theorem State.setTicks_ticks (s : State) (v : Nat) : (s.setTicks v).ticks = v := rfl
@[simp] theorem State.setTicks_draws (s : State) (v : Nat) : (s.setTicks v).draws = s.draws := rfl

/-! ### State.setDraws -/

@[simp] theorem State.setDraws_toEngine (s : State) (v : Nat) : (s.setDraws v).toEngine = s.toEngine := rfl
@[simp] theorem State.setDraws_host (s : State) (v : Nat) : (s.setDraws v).host = s.host := rfl
@[simp] theorem State.setDraws_turns (s : State) (v : Nat) : (s.setDraws v).turns = s.turns := rfl
@[simp] theorem State.setDraws_ticks (s : State) (v : Nat) : (s.setDraws v).ticks = s.ticks := rfl
@[simp] theorem State.setDraws_draws (s : State) (v : Nat) : (s.setDraws v).draws = v := rfl

/-! ### The host agent -/

@[simp] theorem HostAgent.assign_prog (h : HostAgent) (r : Nat) (v : Word) : (h.assign r v).prog = h.prog := rfl
@[simp] theorem HostAgent.assign_pc (h : HostAgent) (r : Nat) (v : Word) : (h.assign r v).pc = h.pc := rfl
@[simp] theorem HostAgent.assign_vars (h : HostAgent) (r : Nat) (v : Word) : (h.assign r v).vars = Cells.write h.vars r [v] := rfl
@[simp] theorem HostAgent.assign_resp (h : HostAgent) (r : Nat) (v : Word) : (h.assign r v).resp = h.resp := rfl
@[simp] theorem HostAgent.goto_prog (h : HostAgent) (p : Nat) : (h.goto p).prog = h.prog := rfl
@[simp] theorem HostAgent.goto_pc (h : HostAgent) (p : Nat) : (h.goto p).pc = p := rfl
@[simp] theorem HostAgent.goto_vars (h : HostAgent) (p : Nat) : (h.goto p).vars = h.vars := rfl
@[simp] theorem HostAgent.goto_resp (h : HostAgent) (p : Nat) : (h.goto p).resp = h.resp := rfl
@[simp] theorem HostAgent.answer_prog (h : HostAgent) (r : BusResp) : (h.answer r).prog = h.prog := rfl
@[simp] theorem HostAgent.answer_pc (h : HostAgent) (r : BusResp) : (h.answer r).pc = h.pc := rfl
@[simp] theorem HostAgent.answer_vars (h : HostAgent) (r : BusResp) : (h.answer r).vars = h.vars := rfl
@[simp] theorem HostAgent.answer_resp (h : HostAgent) (r : BusResp) : (h.answer r).resp = r := rfl

/-! ### BUSY depends on seq alone -/

@[simp] theorem Engine.setH_busy (e : Engine) (v : HashState) : (e.setH v).busy = e.busy := rfl
@[simp] theorem Engine.setWv_busy (e : Engine) (v : HashState) : (e.setWv v).busy = e.busy := rfl
@[simp] theorem Engine.setW_busy (e : Engine) (v : Schedule) : (e.setW v).busy = e.busy := rfl
@[simp] theorem Engine.setPadbuf_busy (e : Engine) (v : Memory) : (e.setPadbuf v).busy = e.busy := rfl
@[simp] theorem Engine.setBlocks_busy (e : Engine) (n i : Word) : (e.setBlocks n i).busy = e.busy := rfl
@[simp] theorem Engine.setHex_busy (e : Engine) (v : HexString) : (e.setHex v).busy = e.busy := rfl
@[simp] theorem Engine.setMsg_busy (e : Engine) (v : Memory) : (e.setMsg v).busy = e.busy := rfl
@[simp] theorem Engine.setMsgLen_busy (e : Engine) (v : Word) : (e.setMsgLen v).busy = e.busy := rfl
@[simp] theorem Engine.setFlags_busy (e : Engine) (d : Bool) (c : ErrCode) : (e.setFlags d c).busy = e.busy := rfl
@[simp] theorem Engine.setCur_busy (e : Engine) (c : Cur) : (e.setCur c).busy = e.busy := rfl
@[simp] theorem Engine.emptyBuffer_busy (e : Engine) : (e.emptyBuffer).busy = e.busy := rfl
@[simp] theorem Engine.clearFlags_busy (e : Engine) : (e.clearFlags).busy = e.busy := rfl
@[simp] theorem Engine.finish_busy (e : Engine) : e.finish.busy = false := rfl

theorem Engine.busy_eq_false (e : Engine) : e.busy = false ↔ e.seq.phase = .idle := by
  simp [Engine.busy]

theorem Engine.busy_eq_true (e : Engine) : e.busy = true ↔ e.seq.phase ≠ .idle := by
  simp [Engine.busy]

/-! ### Replacing a part twice, or by itself, and in one order -/

@[simp] theorem Engine.setSeq_setSeq (e : Engine) (q r : Seq) : (e.setSeq q).setSeq r = e.setSeq r := rfl
@[simp] theorem Engine.setSeq_setW (e : Engine) (q : Seq) (v : Schedule) :
    (e.setSeq q).setW v = (e.setW v).setSeq q := rfl
@[simp] theorem Engine.setSeq_setWv (e : Engine) (q : Seq) (v : HashState) :
    (e.setSeq q).setWv v = (e.setWv v).setSeq q := rfl
@[simp] theorem Engine.setWv_setW (e : Engine) (v : HashState) (u : Schedule) :
    (e.setWv v).setW u = (e.setW u).setWv v := rfl
@[simp] theorem Engine.setW_setW (e : Engine) (v u : Schedule) : (e.setW v).setW u = e.setW u := rfl
@[simp] theorem Engine.setWv_setWv (e : Engine) (v u : HashState) : (e.setWv v).setWv u = e.setWv u := rfl

@[simp] theorem State.setEngine_self (s : State) : s.setEngine s.toEngine = s := rfl
@[simp] theorem State.setEngine_setEngine (s : State) (a b : Engine) : (s.setEngine a).setEngine b = s.setEngine b := rfl
@[simp] theorem State.setHost_setHost (s : State) (a b : HostAgent) : (s.setHost a).setHost b = s.setHost b := rfl

end Sys2Proof.Machine
end

