-- ==== Sys2Proof/Laws/Commands.lean ====
section
/-! SUPPORT. What a command's acceptance does: ignored, started or turned into its error (44_digest_commands R200). -/

namespace Sys2Proof.Machine

/-- check(op) reads NBLK, BLKIDX, MSG_LEN and the build only, not the flags (60 R267). -/
@[simp] theorem Engine.check_clearFlags (e : Engine) (op : Option Instr) : e.clearFlags.check op = e.check op := rfl

/-- A command accepted with BUSY = 1 is ignored (20 R70). -/
theorem Engine.issue_busy {e : Engine} (hb : e.busy = true) (op : Instr) (c : Cur) : e.issue op c = e := by
  simp [Engine.issue, hb]

/-- A command that passes its check starts at first(op) with DONE = 0 and ERR = 0. -/
theorem Engine.issue_start {e : Engine} (hb : e.busy = false) {op : Instr} (hc : e.check (some op) = .none) (c : Cur) :
    e.issue op c = e.clearFlags.start c (firstPhase op) := by
  simp [Engine.issue, hb, hc]

/-- A command that fails its check raises that error and starts nothing. -/
theorem Engine.issue_raise {e : Engine} (hb : e.busy = false) {op : Instr} {x : ErrCode} (hx : x ≠ .none)
    (hc : e.check (some op) = x) (c : Cur) : e.issue op c = e.clearFlags.raise (some op) x := by
  subst hc
  simp only [Engine.issue, hb, Engine.check_clearFlags]
  split
  · contradiction
  · rfl

/-- An accepted command does one of three things. -/
theorem Engine.issue_cases (e : Engine) (op : Instr) (c : Cur) :
    (e.busy = true ∧ e.issue op c = e) ∨
      (e.busy = false ∧ e.check (some op) = .none ∧ e.issue op c = e.clearFlags.start c (firstPhase op)) ∨
      (e.busy = false ∧ e.check (some op) ≠ .none ∧
        e.issue op c = e.clearFlags.raise (some op) (e.check (some op))) := by
  cases hb : e.busy with
  | true => exact .inl ⟨rfl, Engine.issue_busy hb op c⟩
  | false =>
    by_cases hc : e.check (some op) = .none
    · exact .inr (.inl ⟨rfl, hc, Engine.issue_start hb hc c⟩)
    · exact .inr (.inr ⟨rfl, hc, Engine.issue_raise hb hc rfl c⟩)

/-- An illegal word sets ERR = 5 and DONE = 1 and nothing else, and is ignored with BUSY = 1 (60 R265). -/
theorem Engine.issueIllegal_eq (e : Engine) :
    e.issueIllegal = if e.busy then e else e.setFlags true .illegalCommand := rfl

theorem Engine.check_hash (e : Engine) :
    e.check (some .hash) = if e.inputInvalid then .invalidInput else .none := rfl

theorem Engine.check_pad (e : Engine) :
    e.check (some .pad) = if e.inputInvalid then .invalidInput else .none := rfl

theorem Engine.check_block (e : Engine) : e.check (some .block) = if e.noBlockLeft then .noBlock else .none := rfl

/-- What CUR a command starts with. -/
def Instr.cur : Instr → Cur
  | .nop => .none
  | .hash => .hash
  | .init => .init
  | .pad => .pad
  | .block => .block
  | .encode => .encode

/-- exec answers a next state for every command and changes the engine only; a command other than NOP is its issue. -/
theorem exec_eq (i : Instr) (s : State) :
    exec i s = .next (if i = .nop then s else s.setEngine (s.toEngine.issue i (Instr.cur i))) := by
  cases i <;> rfl

end Sys2Proof.Machine
end

