-- ==== Sys2Proof/Laws/Memory.lean ====
section
/-! SUPPORT. The laws of sparse memory: what a write changes and leaves, that it keeps the canonical form, and that equal
contents in canonical form are equal lists. -/

namespace Sys2Proof.Machine

variable {α : Type}

/-! ### Lookup -/

@[simp] theorem Cells.lookup_nil (i : Nat) : Cells.lookup i ([] : Cells α) = none := rfl

theorem Cells.lookup_cons (i : Nat) (c : Nat × α) (m : Cells α) :
    Cells.lookup i (c :: m) = if c.1 = i then some c.2 else Cells.lookup i m := rfl

theorem Cells.lookup_append (i : Nat) (m n : Cells α) :
    Cells.lookup i (m ++ n) = (Cells.lookup i m).or (Cells.lookup i n) := by
  induction m with
  | nil => simp
  | cons c m ih =>
    rw [List.cons_append, Cells.lookup_cons, Cells.lookup_cons]
    split <;> simp [*]

theorem Cells.lookup_filter (i : Nat) (p : Nat → Bool) (m : Cells α) :
    Cells.lookup i (m.filter fun c => p c.1) = if p i then Cells.lookup i m else none := by
  induction m with
  | nil => simp
  | cons c m ih =>
    by_cases hc : c.1 = i
    · subst hc
      by_cases hp : p c.1 <;> simp [Cells.lookup_cons, hp, ih]
    · by_cases hp : p c.1 <;> simp [Cells.lookup_cons, hp, hc, ih]

theorem Cells.lookup_numbered (i base : Nat) (vs : List α) :
    Cells.lookup i (Cells.numbered base vs) = if base ≤ i then vs[i - base]? else none := by
  induction vs generalizing base with
  | nil => simp [Cells.numbered]
  | cons v vs ih =>
    rw [Cells.numbered, Cells.lookup_cons, ih]
    by_cases h : base = i
    · simp [h]
    · by_cases hle : base ≤ i
      · obtain ⟨k, hk⟩ : ∃ k, i = base + (k + 1) := ⟨i - base - 1, by omega⟩
        subst hk
        have h1 : base + (k + 1) - base = k + 1 := by omega
        have h2 : base + (k + 1) - (base + 1) = k := by omega
        have h3 : base + 1 ≤ base + (k + 1) := by omega
        simp [h1, h2, h3]
      · have h3 : ¬ base + 1 ≤ i := by omega
        simp [h, hle, h3]

/-- What is listed after a write: the written values in their range, what was there before everywhere else. -/
theorem Cells.lookup_write (m : Cells α) (base : Nat) (vs : List α) (i : Nat) :
    Cells.lookup i (Cells.write m base vs) =
      if base ≤ i ∧ i < base + vs.length then vs[i - base]? else Cells.lookup i m := by
  rw [Cells.write, Cells.lookup_append, Cells.lookup_append, Cells.lookup_numbered,
    Cells.lookup_filter i (fun k => decide (k < base)), Cells.lookup_filter i (fun k => decide (base + vs.length ≤ k))]
  rcases Nat.lt_or_ge i base with h | h
  · have : ¬ base ≤ i := by omega
    have h2 : ¬ base + vs.length ≤ i := by omega
    simp [h, this, h2]
  · rcases Nat.lt_or_ge i (base + vs.length) with h' | h'
    · have h1 : ¬ i < base := by omega
      have h2 : ¬ base + vs.length ≤ i := by omega
      simp [h1, h2, h, h']
    · have h1 : ¬ i < base := by omega
      have h2 : ¬ i < base + vs.length := by omega
      have h3 : vs.length ≤ i - base := by omega
      simp [h1, h2, h, h', List.getElem?_eq_none h3]

theorem Cells.lookup_write_in (m : Cells α) (base : Nat) (vs : List α) (k : Nat) (hk : k < vs.length) :
    Cells.lookup (base + k) (Cells.write m base vs) = some vs[k] := by
  rw [Cells.lookup_write, if_pos ⟨by omega, by omega⟩]
  simp [hk]

theorem Cells.lookup_write_out (m : Cells α) (base : Nat) (vs : List α) (i : Nat)
    (h : i < base ∨ base + vs.length ≤ i) : Cells.lookup i (Cells.write m base vs) = Cells.lookup i m := by
  rw [Cells.lookup_write, if_neg (by omega)]

/-! ### The canonical form -/

theorem Cells.wf_nil : Cells.wf ([] : Cells α) := List.Pairwise.nil

theorem Cells.mem_numbered_bounds (base : Nat) (vs : List α) (c : Nat × α) (h : c ∈ Cells.numbered base vs) :
    base ≤ c.1 ∧ c.1 < base + vs.length := by
  induction vs generalizing base with
  | nil => simp [Cells.numbered] at h
  | cons v vs ih =>
    rcases List.mem_cons.1 h with rfl | h
    · simp
    · have := ih (base + 1) h
      simp
      omega

theorem Cells.wf_numbered (base : Nat) (vs : List α) : Cells.wf (Cells.numbered base vs) := by
  induction vs generalizing base with
  | nil => exact Cells.wf_nil
  | cons v vs ih =>
    refine List.Pairwise.cons ?_ (ih (base + 1))
    intro k hk
    obtain ⟨c, hc, rfl⟩ := List.mem_map.1 hk
    have := Cells.mem_numbered_bounds _ _ _ hc
    omega

theorem Cells.wf_filter {m : Cells α} (h : Cells.wf m) (p : Nat × α → Bool) : Cells.wf (m.filter p) :=
  List.Pairwise.sublist (List.Sublist.map _ List.filter_sublist) h

theorem Cells.wf_append {m n : Cells α} (hm : Cells.wf m) (hn : Cells.wf n)
    (h : ∀ a ∈ m, ∀ b ∈ n, a.1 < b.1) : Cells.wf (m ++ n) := by
  rw [Cells.wf, List.map_append, List.pairwise_append]
  refine ⟨hm, hn, ?_⟩
  intro x hx y hy
  obtain ⟨a, ha, rfl⟩ := List.mem_map.1 hx
  obtain ⟨b, hb, rfl⟩ := List.mem_map.1 hy
  exact h a ha b hb

/-- A write keeps the canonical form. -/
theorem Cells.wf_write {m : Cells α} (h : Cells.wf m) (base : Nat) (vs : List α) : Cells.wf (Cells.write m base vs) := by
  refine Cells.wf_append (Cells.wf_append (Cells.wf_filter h _) (Cells.wf_numbered _ _) ?_) (Cells.wf_filter h _) ?_
  · intro a ha b hb
    have h1 := (List.mem_filter.1 ha).2
    have h2 := Cells.mem_numbered_bounds _ _ _ hb
    simp at h1
    omega
  · intro a ha b hb
    have h2 := (List.mem_filter.1 hb).2
    simp at h2
    rcases List.mem_append.1 ha with h1 | h1
    · have h1 := (List.mem_filter.1 h1).2
      simp at h1
      omega
    · have h1 := Cells.mem_numbered_bounds _ _ _ h1
      omega

/-- A write inside a size keeps every listed index inside it. -/
theorem Cells.within_write {m : Cells α} {size : Nat} (h : Cells.within m size) (base : Nat) (vs : List α)
    (hb : base + vs.length ≤ size) : Cells.within (Cells.write m base vs) size := by
  intro c hc
  rcases List.mem_append.1 hc with hc | hc
  · rcases List.mem_append.1 hc with hc | hc
    · exact h c (List.mem_filter.1 hc).1
    · have := Cells.mem_numbered_bounds _ _ _ hc
      omega
  · exact h c (List.mem_filter.1 hc).1

theorem Cells.within_nil (size : Nat) : Cells.within ([] : Cells α) size := by
  intro c hc
  cases hc

theorem Cells.lookup_eq_none_of_lt {m : Cells α} {i : Nat} (h : ∀ c ∈ m, i < c.1) : Cells.lookup i m = none := by
  induction m with
  | nil => rfl
  | cons c m ih =>
    have := h c (List.mem_cons_self ..)
    rw [Cells.lookup_cons, if_neg (by omega)]
    exact ih fun c hc => h c (List.mem_cons_of_mem _ hc)

theorem Cells.wf_head_lt {c : Nat × α} {m : Cells α} (h : Cells.wf (c :: m)) : ∀ d ∈ m, c.1 < d.1 := by
  intro d hd
  exact (List.pairwise_cons.1 h).1 d.1 (List.mem_map.2 ⟨d, hd, rfl⟩)

theorem Cells.wf_tail {c : Nat × α} {m : Cells α} (h : Cells.wf (c :: m)) : Cells.wf m :=
  (List.pairwise_cons.1 h).2

/-- Two canonical lists with the same contents are the same list. -/
theorem Cells.ext_of_wf {m n : Cells α} (hm : Cells.wf m) (hn : Cells.wf n)
    (h : ∀ i, Cells.lookup i m = Cells.lookup i n) : m = n := by
  induction m generalizing n with
  | nil =>
    cases n with
    | nil => rfl
    | cons d n => simpa [Cells.lookup_cons] using h d.1
  | cons c m ih =>
    cases n with
    | nil => simpa [Cells.lookup_cons] using h c.1
    | cons d n =>
      have hc : Cells.lookup c.1 (c :: m) = some c.2 := by simp [Cells.lookup_cons]
      have hd : Cells.lookup d.1 (d :: n) = some d.2 := by simp [Cells.lookup_cons]
      have hkey : c.1 = d.1 := by
        rcases Nat.lt_trichotomy c.1 d.1 with hlt | heq | hgt
        · have : Cells.lookup c.1 (d :: n) = none := Cells.lookup_eq_none_of_lt (by
            intro x hx
            rcases List.mem_cons.1 hx with rfl | hx
            · exact hlt
            · exact Nat.lt_trans hlt (Cells.wf_head_lt hn x hx))
          rw [← h, hc] at this
          cases this
        · exact heq
        · have : Cells.lookup d.1 (c :: m) = none := Cells.lookup_eq_none_of_lt (by
            intro x hx
            rcases List.mem_cons.1 hx with rfl | hx
            · exact hgt
            · exact Nat.lt_trans hgt (Cells.wf_head_lt hm x hx))
          rw [h, hd] at this
          cases this
      have hval : c.2 = d.2 := by
        have := h c.1
        rw [hc, hkey, hd] at this
        exact Option.some.inj this
      have htail : m = n := by
        refine ih (Cells.wf_tail hm) (Cells.wf_tail hn) fun i => ?_
        by_cases hi : c.1 = i
        · subst hi
          rw [Cells.lookup_eq_none_of_lt (Cells.wf_head_lt hm),
            Cells.lookup_eq_none_of_lt (by rw [hkey]; exact Cells.wf_head_lt hn)]
        · have := h i
          rwa [Cells.lookup_cons, Cells.lookup_cons, if_neg hi, if_neg (by rw [← hkey]; exact hi)] at this
      rw [htail, Prod.ext hkey hval]

/-! ### The engine's bytes after a write -/

theorem Engine.msgByte_write_in (e : Engine) (base : Nat) (vs : List Byte) (k : Nat) (hk : k < vs.length) :
    (e.setMsg (Cells.write e.msg base vs)).msgByte (base + k) = vs[k] := by
  simp [Engine.msgByte, Engine.setMsg, Cells.lookup_write_in _ _ _ _ hk]

theorem Engine.msgByte_write_out (e : Engine) (base : Nat) (vs : List Byte) (i : Nat)
    (h : i < base ∨ base + vs.length ≤ i) : (e.setMsg (Cells.write e.msg base vs)).msgByte i = e.msgByte i := by
  simp [Engine.msgByte, Engine.setMsg, Cells.lookup_write_out _ _ _ _ h]

/-- A list numbered from 0 holds its elements at their places. -/
theorem Cells.lookup_numbered_in (vs : List α) (k : Nat) (hk : k < vs.length) :
    Cells.lookup k (Cells.numbered 0 vs) = some vs[k] := by
  rw [Cells.lookup_numbered, if_pos (Nat.zero_le k), Nat.sub_zero, List.getElem?_eq_getElem hk]

theorem Cells.lookup_numbered_out (vs : List α) (k : Nat) (hk : vs.length ≤ k) :
    Cells.lookup k (Cells.numbered 0 vs) = none := by
  rw [Cells.lookup_numbered, if_pos (Nat.zero_le k), Nat.sub_zero, List.getElem?_eq_none hk]

theorem Cells.within_numbered (vs : List α) (size : Nat) (h : vs.length ≤ size) :
    Cells.within (Cells.numbered 0 vs) size := by
  intro c hc
  have := Cells.mem_numbered_bounds 0 vs c hc
  omega

/-- A byte of PADBUF that nothing lists is the free value of its epoch (93 U2). -/
theorem Engine.padByte_unwritten (e : Engine) (i : Nat) (h : Cells.lookup i e.padbuf = none) :
    e.padByte i = Config.freePad e.epoch i := by
  simp [Engine.padByte, h]

/-- A byte of MSG that nothing has written since reset is the free value of its epoch (93 U3). -/
theorem Engine.msgByte_unwritten (e : Engine) (i : Nat) (h : Cells.lookup i e.msg = none) :
    e.msgByte i = Config.freeMsg e.epoch i := by
  simp [Engine.msgByte, h]

end Sys2Proof.Machine
end

