-- ==== Sys2Proof/Laws/Bus.lean ====
section
/-! SUPPORT. The slave port: which accesses are admitted, and what a read and a write can do (20_memory R63 to R70). -/

namespace Sys2Proof.Machine

/-- The bounds of an admitted build (00_scope R6 to R8). -/
theorem Config.wf_bounds {c : Config} (h : c.wf = true) :
    13 ≤ c.addrW ∧ c.addrW ≤ 32 ∧ c.msgCap % 4 = 0 ∧ 4 ≤ c.msgCap ∧ c.msgCap + 4096 ≤ 2 ^ c.addrW ∧
      8192 ≤ 2 ^ c.addrW ∧ 2 ^ c.addrW ≤ 2 ^ 32 := by
  simp only [Config.wf, Config.addrWOk, Config.msgCapAligned, Config.msgCapInRange, Bool.and_eq_true,
    decide_eq_true_eq, beq_iff_eq] at h
  obtain ⟨⟨⟨h1, h2⟩, h3⟩, h4, h5⟩ := h
  have h6 : 2 ^ 13 ≤ 2 ^ c.addrW := Nat.pow_le_pow_right (by omega) h1
  have h7 : 2 ^ c.addrW ≤ 2 ^ 32 := Nat.pow_le_pow_right (by omega) h2
  exact ⟨h1, h2, h3, h4, h5, by omega, h7⟩

theorem admitted_iff (c : Config) (a n : Nat) :
    admitted c a n = true ↔
      a < 2 ^ c.addrW ∧ ((n = 4 ∧ a % 4 = 0) ∨ (n = 1 ∧ ((0x040 ≤ a ∧ a < 0x080) ∨ 0x1000 ≤ a))) := by
  simp [admitted, inHexWindow, offHex, offWv, offMsg]

theorem inMsgWindow_iff (c : Config) (a : Nat) : inMsgWindow c a = true ↔ 0x1000 ≤ a ∧ a < 0x1000 + c.msgCap := by
  simp [inMsgWindow, offMsg]

/-! ### Reads -/

theorem Engine.memRead_word {e : Engine} {a : Nat} (h : admitted e.cfg a 4 = true) (d : Word) :
    e.memRead d a 4 = .ok (e.readWord d a) := by
  simp [Engine.memRead, h]

theorem Engine.memRead_byte {e : Engine} {a : Nat} (h : admitted e.cfg a 1 = true) (d : Word) :
    e.memRead d a 1 = .ok ((e.windowByte d a).zeroExtend 32) := by
  simp [Engine.memRead, h]

theorem Engine.memRead_refused {e : Engine} {a n : Nat} (h : admitted e.cfg a n = false) (d : Word) :
    e.memRead d a n = .error (.busError a n) := by
  simp [Engine.memRead, h]

/-! ### Byte lanes -/

/-- The lanes of a word give back the four bytes it was made of (20 R62). -/
theorem laneBytes_laneWord (b0 b1 b2 b3 : Byte) : laneBytes 4 (laneWord b0 b1 b2 b3) = [b0, b1, b2, b3] := by
  have h : ∀ (a b c d : Byte) (k : Nat), k < 4 →
      laneByte (d ++ c ++ b ++ a : Word) k = (if k = 0 then a else if k = 1 then b else if k = 2 then c else d) := by
    intro a b c d k hk
    apply BitVec.eq_of_getLsbD_eq
    intro i hi
    simp only [laneByte, BitVec.getLsbD_extractLsb', BitVec.getLsbD_append]
    grind
  simp only [laneBytes, List.range, List.range.loop, List.map, laneWord, h _ _ _ _ 0 (by omega),
    h _ _ _ _ 1 (by omega), h _ _ _ _ 2 (by omega), h _ _ _ _ 3 (by omega)]
  rfl

/-- Lane 0 of a zero-extended byte is the byte. -/
theorem laneBytes_byte (b : Byte) : laneBytes 1 (b.zeroExtend 32) = [b] := by
  have h : laneByte (b.zeroExtend 32) 0 = b := by
    apply BitVec.eq_of_toNat_eq
    simp [laneByte]
    exact b.isLt
  show [laneByte (b.zeroExtend 32) 0] = [b]
  rw [h]

theorem laneBytes_length (n : Nat) (v : Word) : (laneBytes n v).length = n := by simp [laneBytes]

/-! ### Writes -/

/-- A command word leaves the engine as it was, starts a command, or leaves an error; it always answers next. -/
theorem issueCommand_cases (c : Word) (s : State) :
    ∃ e, issueCommand c s = .next (s.setEngine e) ∧
      (e = s.toEngine ∨
        (s.busy = false ∧ ∃ i, i ≠ .nop ∧ s.toEngine.check (some i) = .none ∧
          e = s.toEngine.clearFlags.start (Instr.cur i) (firstPhase i)) ∨
        (s.busy = false ∧ ∃ o, s.toEngine.check o ≠ .none ∧ e = s.toEngine.clearFlags.raise o (s.toEngine.check o))) := by
  unfold issueCommand
  split
  · rename_i i _
    by_cases hi : i = .nop
    · exact ⟨s.toEngine, by rw [exec_eq, if_pos hi]; rfl, .inl rfl⟩
    · refine ⟨_, by rw [exec_eq, if_neg hi], ?_⟩
      rcases Engine.issue_cases s.toEngine i (Instr.cur i) with ⟨_, h⟩ | ⟨hb, hc, h⟩ | ⟨hb, hc, h⟩
      · exact .inl h
      · exact .inr (.inl ⟨hb, i, hi, hc, h⟩)
      · exact .inr (.inr ⟨hb, some i, hc, h⟩)
  · refine ⟨_, rfl, ?_⟩
    cases hb : s.busy with
    | true =>
      refine .inl ?_
      have hb' : s.toEngine.busy = true := hb
      simp [Engine.issueIllegal, hb']
    | false =>
      refine .inr (.inr ⟨rfl, none, by simp [Engine.check], ?_⟩)
      have hb' : s.toEngine.busy = false := hb
      simp [Engine.issueIllegal, hb']

theorem memWrite_refused {s : State} {a n : Nat} (h : admitted s.cfg a n = false) (v : Word) :
    memWrite s a n v = .refused (.busError a n) := by
  simp [memWrite, h]

/-- What an admitted write can do (R67, R70): nothing, a command, MSG_LEN, or bytes of MSG. -/
theorem memWrite_cases {s : State} {a n : Nat} (h : admitted s.cfg a n = true) (v : Word) :
    memWrite s a n v = .next s ∨
      (s.busy = false ∧ a = offCmd ∧ memWrite s a n v = issueCommand v s) ∨
      (s.busy = false ∧ a = offMsgLen ∧ memWrite s a n v = .next (s.setEngine (s.toEngine.setMsgLen v))) ∨
      (s.busy = false ∧ 0x1000 ≤ a ∧ a < 0x1000 + s.cfg.msgCap ∧
        memWrite s a n v =
          .next (s.setEngine (s.toEngine.setMsg (Cells.write s.msg (a - offMsg) (laneBytes n v))))) := by
  have hb : s.busy = true ∨ s.busy = false := by cases s.busy <;> simp
  unfold memWrite
  simp only [h, if_true]
  rcases hb with hb | hb
  · simp only [hb, Bool.true_and, lockedWhileBusy]
    by_cases hl : (a == offCmd || a == offMsgLen || inMsgWindow s.cfg a) = true
    · simp [hl]
    · simp only [Bool.or_eq_true, beq_iff_eq, not_or] at hl
      simp [hl]
  · simp only [hb, Bool.false_and]
    by_cases h1 : a = offCmd
    · simp [h1]
    · by_cases h2 : a = offMsgLen
      · simp [h2, offCmd, offMsgLen]
      · cases h3 : inMsgWindow s.cfg a with
        | false => simp [h1, h2]
        | true =>
          have := (inMsgWindow_iff _ _).1 h3
          simp [h1, h2, this]

/-- A write to the MSG window with BUSY = 0 stores its lanes (R67). -/
theorem memWrite_msg {s : State} {i n : Nat} (hb : s.busy = false) (ha : admitted s.cfg (offMsg + i) n = true)
    (hi : i < s.cfg.msgCap) (v : Word) :
    memWrite s (offMsg + i) n v =
      .next (s.setEngine (s.toEngine.setMsg (Cells.write s.msg i (laneBytes n v)))) := by
  have hwin : inMsgWindow s.cfg (0x1000 + i) = true := (inMsgWindow_iff _ _).2 (by omega)
  have ha' : admitted s.cfg (0x1000 + i) n = true := ha
  have n1 : ¬ 0x1000 + i = 4 := by omega
  have n2 : ¬ 0x1000 + i = 12 := by omega
  simp [memWrite, ha', hb, offCmd, offMsgLen, hwin, offMsg, n1, n2]

/-- While BUSY = 1 an admitted write changes nothing (R70); a write to an ignored offset never does. -/
theorem memWrite_busy {s : State} {a n : Nat} (h : admitted s.cfg a n = true) (hb : s.busy = true) (v : Word) :
    memWrite s a n v = .next s := by
  rcases memWrite_cases h v with h1 | ⟨h1, _⟩ | ⟨h1, _⟩ | ⟨h1, _⟩
  · exact h1
  all_goals
    rw [hb] at h1
    cases h1

/-- Every admitted write answers a next state, which differs from s in the engine only. -/
theorem memWrite_next {s : State} {a n : Nat} (h : admitted s.cfg a n = true) (v : Word) :
    ∃ e, memWrite s a n v = .next (s.setEngine e) := by
  rcases memWrite_cases h v with h1 | ⟨_, _, h1⟩ | ⟨_, _, h1⟩ | ⟨_, _, _, h1⟩
  · exact ⟨s.toEngine, h1⟩
  · obtain ⟨e, h2, _⟩ := issueCommand_cases v s
    exact ⟨e, by rw [h1, h2]⟩
  · exact ⟨_, h1⟩
  · exact ⟨_, h1⟩

end Sys2Proof.Machine
end

