-- ==== Sys2Proof/Laws/MicroSteps.lean ====
section
/-! SUPPORT. What each micro-step changes and leaves, one lemma per field, and each micro-step as one record. -/

namespace Sys2Proof.Machine


/-! ### Engine.initStep -/

@[simp] theorem Engine.initStep_h (e : Engine) : (e.initStep).h = IV := rfl
@[simp] theorem Engine.initStep_wv (e : Engine) : (e.initStep).wv = e.wv := rfl
@[simp] theorem Engine.initStep_w (e : Engine) : (e.initStep).w = e.w := rfl
@[simp] theorem Engine.initStep_padbuf (e : Engine) : (e.initStep).padbuf = e.padbuf := rfl
@[simp] theorem Engine.initStep_nblk (e : Engine) : (e.initStep).nblk = e.nblk := rfl
@[simp] theorem Engine.initStep_blkidx (e : Engine) : (e.initStep).blkidx = e.blkidx := rfl
@[simp] theorem Engine.initStep_hex (e : Engine) : (e.initStep).hex = e.hex := rfl
@[simp] theorem Engine.initStep_msg (e : Engine) : (e.initStep).msg = e.msg := rfl
@[simp] theorem Engine.initStep_msgLen (e : Engine) : (e.initStep).msgLen = e.msgLen := rfl
@[simp] theorem Engine.initStep_done (e : Engine) : (e.initStep).done = e.done := rfl
@[simp] theorem Engine.initStep_err (e : Engine) : (e.initStep).err = e.err := rfl
@[simp] theorem Engine.initStep_seq (e : Engine) : (e.initStep).seq = e.seq := rfl
@[simp] theorem Engine.initStep_cur (e : Engine) : (e.initStep).cur = e.cur := rfl
@[simp] theorem Engine.initStep_cfg (e : Engine) : (e.initStep).cfg = e.cfg := rfl
@[simp] theorem Engine.initStep_epoch (e : Engine) : (e.initStep).epoch = e.epoch := rfl

/-- initStep as one record. -/
theorem Engine.initStep_eq (e : Engine) : e.initStep = { e with h := IV } := rfl

/-! ### Engine.loadStep -/

@[simp] theorem Engine.loadStep_h (e : Engine) : (e.loadStep).h = e.h := rfl
@[simp] theorem Engine.loadStep_wv (e : Engine) : (e.loadStep).wv = e.h := rfl
@[simp] theorem Engine.loadStep_w (e : Engine) : (e.loadStep).w = e.w.load e.block := rfl
@[simp] theorem Engine.loadStep_padbuf (e : Engine) : (e.loadStep).padbuf = e.padbuf := rfl
@[simp] theorem Engine.loadStep_nblk (e : Engine) : (e.loadStep).nblk = e.nblk := rfl
@[simp] theorem Engine.loadStep_blkidx (e : Engine) : (e.loadStep).blkidx = e.blkidx := rfl
@[simp] theorem Engine.loadStep_hex (e : Engine) : (e.loadStep).hex = e.hex := rfl
@[simp] theorem Engine.loadStep_msg (e : Engine) : (e.loadStep).msg = e.msg := rfl
@[simp] theorem Engine.loadStep_msgLen (e : Engine) : (e.loadStep).msgLen = e.msgLen := rfl
@[simp] theorem Engine.loadStep_done (e : Engine) : (e.loadStep).done = e.done := rfl
@[simp] theorem Engine.loadStep_err (e : Engine) : (e.loadStep).err = e.err := rfl
@[simp] theorem Engine.loadStep_seq (e : Engine) : (e.loadStep).seq = e.seq := rfl
@[simp] theorem Engine.loadStep_cur (e : Engine) : (e.loadStep).cur = e.cur := rfl
@[simp] theorem Engine.loadStep_cfg (e : Engine) : (e.loadStep).cfg = e.cfg := rfl
@[simp] theorem Engine.loadStep_epoch (e : Engine) : (e.loadStep).epoch = e.epoch := rfl

/-- loadStep as one record. -/
theorem Engine.loadStep_eq (e : Engine) : e.loadStep = { e with w := e.w.load e.block, wv := e.h } := rfl

/-! ### Engine.rndStep -/

@[simp] theorem Engine.rndStep_h (e : Engine) (t : Fin 64) : (e.rndStep t).h = e.h := rfl
@[simp] theorem Engine.rndStep_wv (e : Engine) (t : Fin 64) : (e.rndStep t).wv = e.wv.round K[t] e.w[t] := rfl
@[simp] theorem Engine.rndStep_w (e : Engine) (t : Fin 64) : (e.rndStep t).w = e.w := rfl
@[simp] theorem Engine.rndStep_padbuf (e : Engine) (t : Fin 64) : (e.rndStep t).padbuf = e.padbuf := rfl
@[simp] theorem Engine.rndStep_nblk (e : Engine) (t : Fin 64) : (e.rndStep t).nblk = e.nblk := rfl
@[simp] theorem Engine.rndStep_blkidx (e : Engine) (t : Fin 64) : (e.rndStep t).blkidx = e.blkidx := rfl
@[simp] theorem Engine.rndStep_hex (e : Engine) (t : Fin 64) : (e.rndStep t).hex = e.hex := rfl
@[simp] theorem Engine.rndStep_msg (e : Engine) (t : Fin 64) : (e.rndStep t).msg = e.msg := rfl
@[simp] theorem Engine.rndStep_msgLen (e : Engine) (t : Fin 64) : (e.rndStep t).msgLen = e.msgLen := rfl
@[simp] theorem Engine.rndStep_done (e : Engine) (t : Fin 64) : (e.rndStep t).done = e.done := rfl
@[simp] theorem Engine.rndStep_err (e : Engine) (t : Fin 64) : (e.rndStep t).err = e.err := rfl
@[simp] theorem Engine.rndStep_seq (e : Engine) (t : Fin 64) : (e.rndStep t).seq = e.seq := rfl
@[simp] theorem Engine.rndStep_cur (e : Engine) (t : Fin 64) : (e.rndStep t).cur = e.cur := rfl
@[simp] theorem Engine.rndStep_cfg (e : Engine) (t : Fin 64) : (e.rndStep t).cfg = e.cfg := rfl
@[simp] theorem Engine.rndStep_epoch (e : Engine) (t : Fin 64) : (e.rndStep t).epoch = e.epoch := rfl

/-- rndStep as one record. -/
theorem Engine.rndStep_eq (e : Engine) (t : Fin 64) : e.rndStep t = { e with wv := e.wv.round K[t] e.w[t] } := rfl

/-! ### Engine.chainStep -/

@[simp] theorem Engine.chainStep_h (e : Engine) : (e.chainStep).h = e.h.add e.wv := rfl
@[simp] theorem Engine.chainStep_wv (e : Engine) : (e.chainStep).wv = e.wv := rfl
@[simp] theorem Engine.chainStep_w (e : Engine) : (e.chainStep).w = e.w := rfl
@[simp] theorem Engine.chainStep_padbuf (e : Engine) : (e.chainStep).padbuf = e.padbuf := rfl
@[simp] theorem Engine.chainStep_nblk (e : Engine) : (e.chainStep).nblk = e.nblk := rfl
@[simp] theorem Engine.chainStep_blkidx (e : Engine) : (e.chainStep).blkidx = e.blkidx + 1 := rfl
@[simp] theorem Engine.chainStep_hex (e : Engine) : (e.chainStep).hex = e.hex := rfl
@[simp] theorem Engine.chainStep_msg (e : Engine) : (e.chainStep).msg = e.msg := rfl
@[simp] theorem Engine.chainStep_msgLen (e : Engine) : (e.chainStep).msgLen = e.msgLen := rfl
@[simp] theorem Engine.chainStep_done (e : Engine) : (e.chainStep).done = e.done := rfl
@[simp] theorem Engine.chainStep_err (e : Engine) : (e.chainStep).err = e.err := rfl
@[simp] theorem Engine.chainStep_seq (e : Engine) : (e.chainStep).seq = e.seq := rfl
@[simp] theorem Engine.chainStep_cur (e : Engine) : (e.chainStep).cur = e.cur := rfl
@[simp] theorem Engine.chainStep_cfg (e : Engine) : (e.chainStep).cfg = e.cfg := rfl
@[simp] theorem Engine.chainStep_epoch (e : Engine) : (e.chainStep).epoch = e.epoch := rfl

/-- chainStep as one record. -/
theorem Engine.chainStep_eq (e : Engine) : e.chainStep = { e with h := e.h.add e.wv, blkidx := e.blkidx + 1 } := rfl

/-! ### Engine.encStep -/

@[simp] theorem Engine.encStep_h (e : Engine) : (e.encStep).h = e.h := rfl
@[simp] theorem Engine.encStep_wv (e : Engine) : (e.encStep).wv = e.wv := rfl
@[simp] theorem Engine.encStep_w (e : Engine) : (e.encStep).w = e.w := rfl
@[simp] theorem Engine.encStep_padbuf (e : Engine) : (e.encStep).padbuf = e.padbuf := rfl
@[simp] theorem Engine.encStep_nblk (e : Engine) : (e.encStep).nblk = e.nblk := rfl
@[simp] theorem Engine.encStep_blkidx (e : Engine) : (e.encStep).blkidx = e.blkidx := rfl
@[simp] theorem Engine.encStep_hex (e : Engine) : (e.encStep).hex = encodeHex e.h := rfl
@[simp] theorem Engine.encStep_msg (e : Engine) : (e.encStep).msg = e.msg := rfl
@[simp] theorem Engine.encStep_msgLen (e : Engine) : (e.encStep).msgLen = e.msgLen := rfl
@[simp] theorem Engine.encStep_done (e : Engine) : (e.encStep).done = e.done := rfl
@[simp] theorem Engine.encStep_err (e : Engine) : (e.encStep).err = e.err := rfl
@[simp] theorem Engine.encStep_seq (e : Engine) : (e.encStep).seq = e.seq := rfl
@[simp] theorem Engine.encStep_cur (e : Engine) : (e.encStep).cur = e.cur := rfl
@[simp] theorem Engine.encStep_cfg (e : Engine) : (e.encStep).cfg = e.cfg := rfl
@[simp] theorem Engine.encStep_epoch (e : Engine) : (e.encStep).epoch = e.epoch := rfl

/-- encStep as one record. -/
theorem Engine.encStep_eq (e : Engine) : e.encStep = { e with hex := encodeHex e.h } := rfl

end Sys2Proof.Machine
end

