-- ==== Sys2Proof/Laws/Padder.lean ====
section
/-! SUPPORT. What pad(m) is where it succeeds, and what the PAD micro-step leaves. -/

namespace Sys2Proof.Machine

/-- pad(m) where the length fits: the four parts of R132. -/
theorem pad_ok {lf : LenField} {m : List Byte} (h : lengthUnfit lf m.length = false) :
    pad lf m = .ok (m ++ [0x80] ++ List.replicate (padLen lf m.length - lf.bytes - (m.length + 1)) 0 ++
      beBytes lf.bytes (8 * m.length)) := by
  simp [pad, h]

theorem pad_error {lf : LenField} {m : List Byte} (h : lengthUnfit lf m.length = true) :
    pad lf m = .error .invalidInput := by
  simp [pad, h]

/-- One of the two happens. -/
theorem pad_cases (lf : LenField) (m : List Byte) :
    (lengthUnfit lf m.length = true ∧ pad lf m = .error .invalidInput) ∨
      (lengthUnfit lf m.length = false ∧ ∃ p, pad lf m = .ok p ∧ p.length = padLen lf m.length) := by
  cases h : lengthUnfit lf m.length with
  | true => exact .inl ⟨rfl, pad_error h⟩
  | false =>
    refine .inr ⟨rfl, _, pad_ok h, ?_⟩
    have := le_ceil64 (m.length + 1 + lf.bytes)
    simp only [List.length_append, List.length_cons, List.length_nil, List.length_replicate, beBytes_length, padLen] at *
    omega

theorem pad_length {lf : LenField} {m p : List Byte} (h : pad lf m = .ok p) : p.length = padLen lf m.length := by
  rcases pad_cases lf m with ⟨_, h'⟩ | ⟨_, q, h', hq⟩
  · rw [h'] at h
    cases h
  · rw [h'] at h
    cases h
    exact hq

/-- The block count in closed form: floor((n + LFB) / 64) + 1 blocks (R136). -/
theorem padLen_eq (lf : LenField) (n : Nat) : padLen lf n = 64 * ((n + lf.bytes) / 64 + 1) := by
  unfold padLen ceil64
  omega

theorem lenField_bytes_le (lf : LenField) : lf.bytes ≤ 8 := by cases lf <;> decide

theorem Engine.message_length (e : Engine) : e.message.length = e.msgLen.toNat := by simp [Engine.message]

theorem Engine.message_getElem (e : Engine) (i : Nat) (h : i < e.message.length) : e.message[i] = e.msgByte i := by
  simp [Engine.message]

/-- The Message depends on MSG_LEN and MSG alone. -/
theorem Engine.message_congr {e e' : Engine} (hl : e'.msgLen = e.msgLen)
    (hm : ∀ i, i < e.msgLen.toNat → e'.msgByte i = e.msgByte i) : e'.message = e.message := by
  simp only [Engine.message, hl]
  exact List.map_congr_left fun i hi => hm i (List.mem_range.1 hi)

/-- A message the acceptance check let through can be padded (R261, R267). -/
theorem Engine.pad_message {e : Engine} (h : e.inputInvalid = false) :
    ∃ p, pad e.cfg.lenField e.message = .ok p ∧ p.length = padLen e.cfg.lenField e.msgLen.toNat ∧
      e.msgLen.toNat ≤ e.cfg.msgCap := by
  have hl := e.message_length
  simp only [Engine.inputInvalid, Bool.or_eq_false_iff, decide_eq_false_iff_not] at h
  rcases pad_cases e.cfg.lenField e.message with ⟨hu, _⟩ | ⟨_, p, hp, hlen⟩
  · rw [lengthUnfit, hl, h.2] at hu
    cases hu
  · exact ⟨p, hp, by rw [hlen, hl], by omega⟩

/-- The PAD micro-step on a message that can be padded (R135). -/
theorem Engine.padStep_ok {e : Engine} {p : List Byte} (h : pad e.cfg.lenField e.message = .ok p) :
    e.padStep = (e.setPadbuf (Cells.numbered 0 p)).setBlocks (BitVec.ofNat 32 (p.length / 64)) 0 := by
  simp [Engine.padStep, h]

/-- The number of blocks of a 32-bit length fits NBLK's 32 bits. -/
theorem padLen_blocks_lt (lf : LenField) (n : Word) : padLen lf n.toNat / 64 < 2 ^ 32 := by
  have h1 := n.isLt
  have h2 := lenField_bytes_le lf
  rw [padLen_eq]
  omega

/-- Block j of a PADBUF that holds p is block j of p. -/
theorem Engine.block_of_held {e : Engine} {p : List Byte} {j : Nat} (hj : 64 * j + 64 ≤ p.length)
    (hb : e.blkidx.toNat = j) (hp : ∀ i, (h : i < p.length) → e.padByte i = p[i]) : e.block = blockOf p j := by
  apply Vector.ext
  intro i hi
  have h1 : 64 * j + i < p.length := by omega
  simp only [Engine.block, blockOf, Vector.getElem_ofFn, hb, hp _ h1]
  simp [h1]

end Sys2Proof.Machine
end

