-- ==== Sys2Proof/Laws/Schedule.lean ====
section
/-! SUPPORT. The message schedule entry by entry, and that it depends on its Block alone. -/

namespace Sys2Proof.Machine

theorem Schedule.load_lt (w : Schedule) (b : Block) (j : Nat) (h : j < 16) :
    (Schedule.load w b)[j] = Block.word b ⟨j, h⟩ := by
  simp [Schedule.load, h]

theorem Schedule.load_ge (w : Schedule) (b : Block) (j : Nat) (h : 16 ≤ j) (hj : j < 64) :
    (Schedule.load w b)[j] = w[j] := by
  simp [Schedule.load, Nat.not_lt.2 h]

theorem Schedule.expAt_self (w : Schedule) (t : Nat) (lo : 16 ≤ t) (hi : t < 64) :
    (Schedule.expAt w t)[t] = w.expWord t lo hi := by
  simp [Schedule.expAt, lo, hi]

theorem Schedule.expAt_ne (w : Schedule) (t i : Nat) (hi : i < 64) (h : i ≠ t) : (Schedule.expAt w t)[i] = w[i] := by
  unfold Schedule.expAt
  split
  · rw [Vector.getElem_set_ne _ _ (Ne.symm h)]
  · rfl

theorem Schedule.expandTo_zero (w : Schedule) : w.expandTo 0 = w := rfl

theorem Schedule.expandTo_succ (w : Schedule) (n : Nat) : w.expandTo (n + 1) = (w.expandTo n).expAt (16 + n) := rfl

/-- The first 16 + n entries after n expansions are settled: later expansions leave them. -/
theorem Schedule.expandTo_stable (w : Schedule) (n k i : Nat) (hk : n ≤ k) (h : i < 16 + n) (hi : i < 64) :
    (w.expandTo k)[i] = (w.expandTo n)[i] := by
  induction hk with
  | refl => rfl
  | @step k hk ih =>
    have hk : n ≤ k := hk
    simp only [Schedule.expandTo_succ]
    rw [Schedule.expAt_ne _ _ _ hi (by omega), ih]

/-- Entry 16 + n of any later schedule is computed from its earlier entries (R153). -/
theorem Schedule.expandTo_word (w : Schedule) (n k : Nat) (hn : n < k) (hi : n < 48) :
    (w.expandTo k)[16 + n] = (w.expandTo k).expWord (16 + n) (by omega) (by omega) := by
  have low : ∀ i, (h : i < 16 + n) → (w.expandTo k)[i]'(by omega) = (w.expandTo n)[i]'(by omega) :=
    fun i h => Schedule.expandTo_stable w n k i (by omega) h (by omega)
  rw [Schedule.expandTo_stable w (n + 1) k (16 + n) (by omega) (by omega) (by omega)]
  simp only [Schedule.expandTo_succ]
  rw [Schedule.expAt_self _ _ (by omega) (by omega)]
  simp only [Schedule.expWord]
  rw [low _ (by omega), low _ (by omega), low _ (by omega), low _ (by omega)]

theorem Schedule.expandTo_low (w : Schedule) (k i : Nat) (h : i < 16) : (w.expandTo k)[i] = w[i] := by
  rw [Schedule.expandTo_stable w 0 k i (Nat.zero_le _) (by omega) (by omega), Schedule.expandTo_zero]

/-- Two schedules with the same first 16 entries expand to the same first 16 + n entries. -/
theorem Schedule.expandTo_agree (w v : Schedule) (h : ∀ i, (hi : i < 16) → w[i] = v[i]) (n : Nat) (hn : n ≤ 48) :
    ∀ i, (hi : i < 16 + n) → (w.expandTo n)[i] = (v.expandTo n)[i] := by
  induction n with
  | zero =>
    intro i hi
    simp only [Schedule.expandTo_zero]
    exact h i hi
  | succ n ih =>
    have ih := ih (by omega)
    intro i hi
    simp only [Schedule.expandTo_succ]
    by_cases hin : i = 16 + n
    · subst hin
      rw [Schedule.expAt_self _ _ (by omega) (by omega), Schedule.expAt_self _ _ (by omega) (by omega)]
      simp only [Schedule.expWord]
      rw [ih _ (by omega), ih _ (by omega), ih _ (by omega), ih _ (by omega)]
    · rw [Schedule.expAt_ne _ _ _ (by omega) hin, Schedule.expAt_ne _ _ _ (by omega) hin, ih _ (by omega)]

/-- expand(B) as the n = 48 expansions of the loaded words, W being 0 before. -/
theorem expand_eq (b : Block) (n : Nat) (hn : n = 48) :
    expand b = (Schedule.load (Vector.replicate 64 0) b).expandTo n := by
  rw [hn, expand]

/-- Whatever W held before, LOAD and all n = 48 expansions leave expand(B) (R154). -/
theorem Schedule.load_expandTo (w : Schedule) (b : Block) (n : Nat) (hn : n = 48) :
    (Schedule.load w b).expandTo n = expand b := by
  rw [expand_eq b n hn]
  apply Vector.ext
  intro i hi
  refine Schedule.expandTo_agree _ _ (fun j hj => ?_) n (by omega) i (by omega)
  rw [Schedule.load_lt _ _ _ hj, Schedule.load_lt _ _ _ hj]

/-- compress(w, s) as its n = 64 rounds with s added back in. -/
theorem compress_eq (w : Schedule) (s : HashState) (n : Nat) (hn : n = 64) : compress w s = s.add (s.roundsTo w n) := by
  rw [hn, compress]

theorem HashState.roundsTo_zero (v : HashState) (w : Schedule) : v.roundsTo w 0 = v := rfl

theorem HashState.roundsTo_succ (v : HashState) (w : Schedule) (n : Nat) (h : n < 64) :
    v.roundsTo w (n + 1) = (v.roundsTo w n).round K[n] w[n] := by
  simp [HashState.roundsTo, h]

end Sys2Proof.Machine
end

