-- ==== Sys2Proof/Laws/Sequencer.lean ====
section
/-! SUPPORT. The engine's step phase by phase, runs of the engine, and what a block's 114 steps compute. -/

namespace Sys2Proof.Machine

/-! ### Runs -/

theorem Engine.run_zero (e : Engine) : e.run 0 = .next e := rfl

theorem Engine.run_succ {e e' : Engine} (n : Nat) (h : e.step = .next e') : e.run (n + 1) = e'.run n := by
  simp [Engine.run, h]

theorem Engine.run_add {e e' : Engine} (m n : Nat) (h : e.run m = .next e') : e.run (m + n) = e'.run n := by
  induction m generalizing e with
  | zero =>
    cases h
    rw [Nat.zero_add]
  | succ m ih =>
    rw [Nat.add_right_comm]
    cases hs : e.step with
    | next d =>
      rw [Engine.run_succ _ hs] at h ⊢
      exact ih h
    | fault f => simp [Engine.run, hs] at h
    | refused r => simp [Engine.run, hs] at h

theorem Engine.run_one {e e' : Engine} (h : e.step = .next e') : e.run 1 = .next e' := Engine.run_succ 0 h

/-! ### One step -/

/-- An idle engine has no step and keeps its state (60 R281). -/
theorem Engine.step_idle {e : Engine} (h : e.busy = false) : e.step = .next e := by simp [Engine.step, h]

/-- A busy engine's step: the micro-step, then the move of seq (44 R222). -/
theorem Engine.step_of_micro {e d : Engine} (hp : e.seq.phase ≠ .idle) (hm : e.microStep = .next d) :
    e.step = d.moveSeq := by
  simp [Engine.step, (Engine.busy_eq_true e).2 hp, hm]

/-- An engine's step answers next only by its micro-step and the move after it. -/
theorem Engine.step_cases {e e' : Engine} (h : e.step = .next e') :
    (e.busy = false ∧ e' = e) ∨
      (e.busy = true ∧ ∃ d, e.microStep = .next d ∧
        ((∃ q, nextSeq d.seq d.cur d.blkidx d.nblk = .goto q ∧ e' = d.setSeq q) ∨
          (nextSeq d.seq d.cur d.blkidx d.nblk = .finish ∧ e' = d.finish))) := by
  cases hb : e.busy with
  | false =>
    rw [Engine.step_idle hb] at h
    exact .inl ⟨rfl, (Host.Outcome.next.inj h).symm⟩
  | true =>
    refine .inr ⟨rfl, ?_⟩
    simp only [Engine.step, hb, if_true] at h
    cases hm : e.microStep with
    | next d =>
      rw [hm] at h
      refine ⟨d, rfl, ?_⟩
      simp only [Engine.moveSeq] at h
      cases hq : nextSeq d.seq d.cur d.blkidx d.nblk with
      | goto q =>
        rw [hq] at h
        exact .inl ⟨q, rfl, (Host.Outcome.next.inj h).symm⟩
      | finish =>
        rw [hq] at h
        exact .inr ⟨rfl, (Host.Outcome.next.inj h).symm⟩
      | undefined =>
        rw [hq] at h
        cases h
    | fault f =>
      rw [hm] at h
      cases h
    | refused r =>
      rw [hm] at h
      cases h

/-- The micro-step that a phase runs, where it answers next (44 R222). -/
theorem Engine.microStep_cases {e d : Engine} (h : e.microStep = .next d) :
    (e.seq.phase = .idle ∧ d = e) ∨ (e.seq.phase = .pad ∧ d = e.padStep) ∨ (e.seq.phase = .init ∧ d = e.initStep) ∨
      (e.seq.phase = .load ∧ d = e.loadStep) ∨
      (e.seq.phase = .exp ∧ 16 ≤ e.seq.t.val ∧ d = e.setW (e.w.expAt e.seq.t.val)) ∨
      (e.seq.phase = .rnd ∧ d = e.rndStep e.seq.t) ∨ (e.seq.phase = .chain ∧ d = e.chainStep) ∨
      (e.seq.phase = .enc ∧ d = e.encStep) := by
  unfold Engine.microStep at h
  split at h <;> rename_i hp
  case h_5 =>
    unfold Engine.expStep at h
    split at h
    · rename_i ht
      simp [hp, ht, (Host.Outcome.next.inj h).symm]
    · cases h
  all_goals simp [hp, (Host.Outcome.next.inj h).symm]

/-- No micro-step moves seq or CUR, and none touches MSG, MSG_LEN, DONE, ERR, the build or the epoch. -/
theorem Engine.microStep_frame {e d : Engine} (h : e.microStep = .next d) :
    d.seq = e.seq ∧ d.cur = e.cur ∧ d.msg = e.msg ∧ d.msgLen = e.msgLen ∧ d.done = e.done ∧ d.err = e.err ∧
      d.cfg = e.cfg ∧ d.epoch = e.epoch := by
  rcases Engine.microStep_cases h with ⟨_, rfl⟩ | ⟨_, rfl⟩ | ⟨_, rfl⟩ | ⟨_, rfl⟩ | ⟨_, _, rfl⟩ | ⟨_, rfl⟩ | ⟨_, rfl⟩ |
    ⟨_, rfl⟩
  case inr.inl =>
    unfold Engine.padStep
    split <;> simp
  all_goals simp [Engine.initStep, Engine.loadStep, Engine.rndStep, Engine.chainStep, Engine.encStep]

/-! ### The phases' steps -/

theorem Engine.step_pad_hash {e : Engine} (hs : e.seq = ⟨.pad, 0⟩) (hc : e.cur = .hash) :
    e.step = .next (e.padStep.setSeq ⟨.init, 0⟩) := by
  have hm : e.microStep = .next e.padStep := by simp [Engine.microStep, hs]
  have hf := Engine.microStep_frame hm
  rw [Engine.step_of_micro (by simp [hs]) hm]
  simp [Engine.moveSeq, nextSeq, hf.1, hf.2.1, hs, hc]

theorem Engine.step_pad_pad {e : Engine} (hs : e.seq = ⟨.pad, 0⟩) (hc : e.cur = .pad) :
    e.step = .next e.padStep.finish := by
  have hm : e.microStep = .next e.padStep := by simp [Engine.microStep, hs]
  have hf := Engine.microStep_frame hm
  rw [Engine.step_of_micro (by simp [hs]) hm]
  simp [Engine.moveSeq, nextSeq, hf.1, hf.2.1, hs, hc]

theorem Engine.step_init_hash {e : Engine} (hs : e.seq = ⟨.init, 0⟩) (hc : e.cur = .hash) :
    e.step = .next (e.initStep.setSeq ⟨.load, 0⟩) := by
  rw [Engine.step_of_micro (d := e.initStep) (by simp [hs]) (by simp [Engine.microStep, hs])]
  simp [Engine.moveSeq, nextSeq, Engine.initStep, hs, hc]

theorem Engine.step_init_init {e : Engine} (hs : e.seq = ⟨.init, 0⟩) (hc : e.cur = .init) :
    e.step = .next e.initStep.finish := by
  rw [Engine.step_of_micro (d := e.initStep) (by simp [hs]) (by simp [Engine.microStep, hs])]
  simp [Engine.moveSeq, nextSeq, Engine.initStep, hs, hc]

theorem Engine.step_load {e : Engine} (hs : e.seq = ⟨.load, 0⟩) : e.step = .next (e.loadStep.setSeq ⟨.exp, 16⟩) := by
  rw [Engine.step_of_micro (d := e.loadStep) (by simp [hs]) (by simp [Engine.microStep, hs])]
  simp [Engine.moveSeq, nextSeq, Engine.loadStep, hs]

theorem Engine.step_exp {e : Engine} (n : Nat) (hn : n < 47) (hs : e.seq = ⟨.exp, ⟨16 + n, by omega⟩⟩) :
    e.step = .next ((e.setW (e.w.expAt (16 + n))).setSeq ⟨.exp, ⟨16 + (n + 1), by omega⟩⟩) := by
  rw [Engine.step_of_micro (d := e.setW (e.w.expAt (16 + n))) (by simp [hs])
    (by simp [Engine.microStep, Engine.expStep, hs])]
  have h1 : 16 + n < 63 := by omega
  simp only [Engine.moveSeq, nextSeq, Engine.setW_seq, hs, h1, if_true]
  congr 3
  simp [Fin.ext_iff, Fin.val_add]
  omega

theorem Engine.step_exp_last {e : Engine} (n : Nat) (hn : n = 47) (hs : e.seq = ⟨.exp, ⟨16 + n, by omega⟩⟩) :
    e.step = .next ((e.setW (e.w.expAt (16 + n))).setSeq ⟨.rnd, 0⟩) := by
  rw [Engine.step_of_micro (d := e.setW (e.w.expAt (16 + n))) (by simp [hs])
    (by simp [Engine.microStep, Engine.expStep, hs])]
  have h1 : ¬ 16 + n < 63 := by omega
  simp only [Engine.moveSeq, nextSeq, Engine.setW_seq, hs, h1, if_false]

theorem Engine.step_rnd {e : Engine} (n : Nat) (hn : n < 63) (hs : e.seq = ⟨.rnd, ⟨n, by omega⟩⟩) :
    e.step = .next ((e.setWv (e.wv.round K[n] e.w[n])).setSeq ⟨.rnd, ⟨n + 1, by omega⟩⟩) := by
  rw [Engine.step_of_micro (d := e.setWv (e.wv.round K[n] e.w[n])) (by simp [hs])
    (by simp [Engine.microStep, Engine.rndStep, hs])]
  simp only [Engine.moveSeq, nextSeq, Engine.setWv_seq, hs, hn, if_true]
  congr 3
  simp [Fin.ext_iff, Fin.val_add]
  omega

theorem Engine.step_rnd_last {e : Engine} (n : Nat) (hn : n = 63) (hs : e.seq = ⟨.rnd, ⟨n, by omega⟩⟩) :
    e.step = .next ((e.setWv (e.wv.round K[n] e.w[n])).setSeq ⟨.chain, 0⟩) := by
  rw [Engine.step_of_micro (d := e.setWv (e.wv.round K[n] e.w[n])) (by simp [hs])
    (by simp [Engine.microStep, Engine.rndStep, hs])]
  have h1 : ¬ n < 63 := by omega
  simp only [Engine.moveSeq, nextSeq, Engine.setWv_seq, hs, h1, if_false]

theorem Engine.step_chain_block {e : Engine} (hs : e.seq = ⟨.chain, 0⟩) (hc : e.cur = .block) :
    e.step = .next e.chainStep.finish := by
  rw [Engine.step_of_micro (d := e.chainStep) (by simp [hs]) (by simp [Engine.microStep, hs])]
  simp [Engine.moveSeq, nextSeq, Engine.chainStep, hs, hc]

theorem Engine.step_chain_more {e : Engine} (hs : e.seq = ⟨.chain, 0⟩) (hc : e.cur = .hash)
    (hb : (e.blkidx + 1).toNat < e.nblk.toNat) : e.step = .next (e.chainStep.setSeq ⟨.load, 0⟩) := by
  rw [Engine.step_of_micro (d := e.chainStep) (by simp [hs]) (by simp [Engine.microStep, hs])]
  simp only [Engine.moveSeq, nextSeq, Engine.chainStep, Engine.setBlocks_seq, Engine.setBlocks_cur,
    Engine.setBlocks_blkidx, Engine.setBlocks_nblk, Engine.setH_seq, Engine.setH_cur, hs, hc, hb, if_true]

theorem Engine.step_chain_last {e : Engine} (hs : e.seq = ⟨.chain, 0⟩) (hc : e.cur = .hash)
    (hb : e.blkidx + 1 = e.nblk) : e.step = .next (e.chainStep.setSeq ⟨.enc, 0⟩) := by
  rw [Engine.step_of_micro (d := e.chainStep) (by simp [hs]) (by simp [Engine.microStep, hs])]
  simp only [Engine.moveSeq, nextSeq, Engine.chainStep, Engine.setBlocks_seq, Engine.setBlocks_cur,
    Engine.setBlocks_blkidx, Engine.setBlocks_nblk, Engine.setH_seq, Engine.setH_cur, hs, hc, hb, Nat.lt_irrefl,
    if_true, if_false]

theorem Engine.step_enc {e : Engine} (hs : e.seq = ⟨.enc, 0⟩) : e.step = .next e.encStep.finish := by
  rw [Engine.step_of_micro (d := e.encStep) (by simp [hs]) (by simp [Engine.microStep, hs])]
  simp [Engine.moveSeq, nextSeq, Engine.encStep, hs]

/-! ### The expansions and the rounds of one block -/

/-- The first n expansions, n < 48: W is expanded that far and nothing else moves but seq. -/
theorem Engine.run_exp {e : Engine} (hs : e.seq = ⟨.exp, 16⟩) (n : Nat) (hn : n < 48) :
    e.run n = .next ((e.setW (e.w.expandTo n)).setSeq ⟨.exp, ⟨16 + n, by omega⟩⟩) := by
  induction n with
  | zero =>
    rw [Engine.run_zero]
    congr 1
    rw [show (⟨.exp, ⟨16 + 0, by omega⟩⟩ : Seq) = e.seq from hs.symm]
    rfl
  | succ n ih =>
    rw [Engine.run_add n 1 (ih (by omega)), Engine.run_one (Engine.step_exp n (by omega) rfl)]
    rfl

/-- All n = 48 expansions. -/
theorem Engine.run_exp_all {e : Engine} (hs : e.seq = ⟨.exp, 16⟩) (n : Nat) (hn : n = 48) :
    e.run n = .next ((e.setW (e.w.expandTo n)).setSeq ⟨.rnd, 0⟩) := by
  obtain ⟨m, rfl⟩ : ∃ m, n = m + 1 := ⟨n - 1, by omega⟩
  rw [Engine.run_add m 1 (Engine.run_exp hs m (by omega)), Engine.run_one (Engine.step_exp_last m (by omega) rfl)]
  rfl

/-- The first n rounds, n < 64: WV has made them and nothing else moves but seq. -/
theorem Engine.run_rnd {e : Engine} (hs : e.seq = ⟨.rnd, 0⟩) (n : Nat) (hn : n < 64) :
    e.run n = .next ((e.setWv (e.wv.roundsTo e.w n)).setSeq ⟨.rnd, ⟨n, hn⟩⟩) := by
  induction n with
  | zero =>
    rw [Engine.run_zero]
    congr 1
    rw [show (⟨.rnd, ⟨0, hn⟩⟩ : Seq) = e.seq from hs.symm]
    rfl
  | succ n ih =>
    rw [Engine.run_add n 1 (ih (by omega)), Engine.run_one (Engine.step_rnd n (by omega) rfl),
      HashState.roundsTo_succ _ _ _ (by omega)]
    rfl

/-- All n = 64 rounds. -/
theorem Engine.run_rnd_all {e : Engine} (hs : e.seq = ⟨.rnd, 0⟩) (n : Nat) (hn : n = 64) :
    e.run n = .next ((e.setWv (e.wv.roundsTo e.w n)).setSeq ⟨.chain, 0⟩) := by
  obtain ⟨m, rfl⟩ : ∃ m, n = m + 1 := ⟨n - 1, by omega⟩
  rw [Engine.run_add m 1 (Engine.run_rnd hs m (by omega)), Engine.run_one (Engine.step_rnd_last m (by omega) rfl),
    HashState.roundsTo_succ _ _ _ (by omega)]
  rfl

/-- LOAD, EXP(16..63) and RND(0..63): W = expand(B), WV = the post-round-63 working variables, H unchanged. -/
theorem Engine.run_to_chain {e : Engine} (hs : e.seq = ⟨.load, 0⟩) :
    e.run 113 = .next (((e.setW (expand e.block)).setWv (e.h.roundsTo (expand e.block) 64)).setSeq ⟨.chain, 0⟩) := by
  have h1 := Engine.run_add 1 112 (Engine.run_one (Engine.step_load hs))
  have h2 := Engine.run_add 48 64 (Engine.run_exp_all (e := e.loadStep.setSeq ⟨.exp, 16⟩) rfl 48 rfl)
  have h3 := Engine.run_rnd_all (e := ((e.loadStep.setSeq ⟨.exp, 16⟩).setW
    ((e.loadStep.setSeq ⟨.exp, 16⟩).w.expandTo 48)).setSeq ⟨.rnd, 0⟩) rfl 64 rfl
  refine h1.trans (h2.trans (h3.trans ?_))
  simp only [Engine.loadStep, Engine.setSeq_w, Engine.setWv_w, Engine.setW_w, Engine.setSeq_setW, Engine.setSeq_setWv,
    Engine.setSeq_setSeq, Engine.setWv_setW, Engine.setW_setW, Engine.setWv_setWv, Engine.setSeq_wv, Engine.setWv_wv,
    Schedule.load_expandTo]

end Sys2Proof.Machine
end

