-- ==== Sys2Proof/Laws/Runs.lean ====
section
/-! SUPPORT. Runs of the engine over whole blocks and over the blocks of a padded message (43_compressor R177,
44_digest_commands R202, R223). -/

namespace Sys2Proof.Machine

/-- An idle engine stays as it is however long it is run. -/
theorem Engine.run_idle {e : Engine} (h : e.busy = false) (n : Nat) : e.run n = .next e := by
  induction n with
  | zero => rfl
  | succ n ih => rw [Engine.run_succ n (Engine.step_idle h), ih]

/-- A longer run goes through the state that a shorter run answers. -/
theorem Engine.run_split {e e' : Engine} (m n : Nat) (h : e.run (m + n) = .next e') :
    ∃ d, e.run m = .next d ∧ d.run n = .next e' := by
  induction m generalizing e with
  | zero => exact ⟨e, rfl, by rwa [Nat.zero_add] at h⟩
  | succ m ih =>
    rw [Nat.add_right_comm] at h
    cases hs : e.step with
    | next d =>
      rw [Engine.run_succ _ hs] at h
      obtain ⟨c, h1, h2⟩ := ih h
      exact ⟨c, by rw [Engine.run_succ _ hs, h1], h2⟩
    | fault f => simp [Engine.run, hs] at h
    | refused r => simp [Engine.run, hs] at h

/-- If the engine is busy after n steps, it was busy after every k <= n steps. -/
theorem Engine.run_busy_before {e e' : Engine} {k n : Nat} (hk : k ≤ n) (h : e.run n = .next e')
    (hb : e'.busy = true) : ∃ u, e.run k = .next u ∧ u.busy = true := by
  obtain ⟨j, rfl⟩ : ∃ j, n = k + j := ⟨n - k, by omega⟩
  obtain ⟨u, h1, h2⟩ := Engine.run_split k j h
  refine ⟨u, h1, ?_⟩
  cases hu : u.busy with
  | true => rfl
  | false =>
    rw [Engine.run_idle hu] at h2
    cases h2
    rw [hu] at hb
    cases hb

theorem HashState.add_get (a b : HashState) (k : Fin 8) : (a.add b).get k = a.get k + b.get k := by
  match k with
  | 0 | 1 | 2 | 3 | 4 | 5 | 6 | 7 => rfl

theorem Engine.setSeq_finish (e : Engine) (q : Seq) : (e.setSeq q).finish = e.finish := rfl

/-- The updates of one block on top of those of the block before it. -/
theorem Engine.block_updates (e : Engine) (w x : Schedule) (v y h z : HashState) (n i j : Word) :
    (((((((e.setW w).setWv v).setH h).setBlocks n i).setW x).setWv y).setH z).setBlocks n j =
      (((e.setW x).setWv y).setH z).setBlocks n j := rfl

theorem Engine.block_updates_seq (e : Engine) (x : Schedule) (y z : HashState) (n i : Word) (q : Seq)
    (hq : e.seq = q) :
    ((((e.setW x).setWv y).setH z).setBlocks n i).setSeq q = (((e.setW x).setWv y).setH z).setBlocks n i := by
  rw [← hq]
  rfl

/-- A command's start, the updates of a block and its finish, as one record. -/
theorem Engine.block_record (e : Engine) (c : Cur) (q : Seq) (x : Schedule) (y z : HashState) (n i : Word) :
    (((((e.clearFlags.start c q).setW x).setWv y).setH z).setBlocks n i).finish =
      { e with h := z, w := x, wv := y, nblk := n, blkidx := i, done := true, err := .none, cur := .none,
               seq := ⟨.idle, 0⟩ } := by
  cases e
  rfl

/-- PAD's start, its updates and its finish, as one record. -/
theorem Engine.pad_record (e : Engine) (c : Cur) (q : Seq) (m : Memory) (n i : Word) :
    (((e.clearFlags.start c q).setPadbuf m).setBlocks n i).finish =
      { e with padbuf := m, nblk := n, blkidx := i, done := true, err := .none, cur := .none, seq := ⟨.idle, 0⟩ } := by
  cases e
  rfl

/-- INIT's start, its update and its finish, as one record. -/
theorem Engine.init_record (e : Engine) (c : Cur) (q : Seq) :
    (e.clearFlags.start c q).initStep.finish =
      { e with h := IV, done := true, err := .none, cur := .none, seq := ⟨.idle, 0⟩ } := by
  cases e
  rfl

/-- ENCODE's start, its update and its finish, as one record. -/
theorem Engine.enc_record (e : Engine) (c : Cur) (q : Seq) :
    (e.clearFlags.start c q).encStep.finish =
      { e with hex := encodeHex e.h, done := true, err := .none, cur := .none, seq := ⟨.idle, 0⟩ } := by
  cases e
  rfl

/-- A command's start as one record. -/
theorem Engine.start_record (e : Engine) (c : Cur) (q : Seq) :
    e.clearFlags.start c q = { e with done := false, err := .none, cur := c, seq := q } := by
  cases e
  rfl

/-- The block at BLKIDX depends on PADBUF, BLKIDX and the epoch only. -/
theorem Engine.block_congr {e d : Engine} (hp : d.padbuf = e.padbuf) (hi : d.blkidx = e.blkidx)
    (he : d.epoch = e.epoch) : d.block = e.block := by
  simp only [Engine.block, Engine.padByte, hp, hi, he]

/-- The block at BLKIDX worked through: H, W, WV and BLKIDX after its CHAIN (R177). -/
def Engine.blockDone (e : Engine) : Engine :=
  (((e.setW (expand e.block)).setWv (e.h.roundsTo (expand e.block) 64)).setH
    (compress (expand e.block) e.h)).setBlocks e.nblk (e.blkidx + 1)

/-- The 113 steps before CHAIN, and what CHAIN then makes of them, with expand(B) and the rounds' result named. -/
theorem Engine.run_to_chain_named {e : Engine} (hs : e.seq = ⟨.load, 0⟩) :
    ∃ x v, e.run 113 = .next (((e.setW x).setWv v).setSeq ⟨.chain, 0⟩) ∧
      e.blockDone = (((e.setW x).setWv v).setH (e.h.add v)).setBlocks e.nblk (e.blkidx + 1) := by
  refine ⟨_, _, Engine.run_to_chain hs, ?_⟩
  rw [Engine.blockDone, compress_eq _ _ 64 rfl]

/-- The 114 steps of a block, given how the sequencer goes on from CHAIN. -/
theorem Engine.run_block {e : Engine} (hs : e.seq = ⟨.load, 0⟩) (g : Engine → Engine)
    (h : ∀ x v, (((e.setW x).setWv v).setSeq ⟨.chain, 0⟩).step =
      .next (g (((((e.setW x).setWv v).setH (e.h.add v)).setBlocks e.nblk (e.blkidx + 1)).setSeq ⟨.chain, 0⟩))) :
    e.run (113 + 1) = .next (g (e.blockDone.setSeq ⟨.chain, 0⟩)) := by
  obtain ⟨x, v, h1, h2⟩ := Engine.run_to_chain_named hs
  rw [h2, Engine.run_add 113 1 h1, Engine.run_one (h x v)]

/-- The 114 steps of a block that BLOCK works on. -/
theorem Engine.run_block_last {e : Engine} (hs : e.seq = ⟨.load, 0⟩) (hc : e.cur = .block) :
    e.run (113 + 1) = .next e.blockDone.finish := by
  rw [Engine.run_block hs Engine.finish fun x v =>
    Engine.step_chain_block (e := ((e.setW x).setWv v).setSeq ⟨.chain, 0⟩) rfl hc, Engine.setSeq_finish]

/-- The 114 steps of a block that HASH works on, with a block left after it. -/
theorem Engine.run_block_more {e : Engine} (hs : e.seq = ⟨.load, 0⟩) (hc : e.cur = .hash)
    (hb : (e.blkidx + 1).toNat < e.nblk.toNat) : e.run (113 + 1) = .next (e.blockDone.setSeq ⟨.load, 0⟩) := by
  rw [Engine.run_block hs (fun d => d.setSeq ⟨.load, 0⟩) fun x v =>
    Engine.step_chain_more (e := ((e.setW x).setWv v).setSeq ⟨.chain, 0⟩) rfl hc hb, Engine.setSeq_setSeq]

/-- The 114 steps of the last block that HASH works on. -/
theorem Engine.run_block_to_enc {e : Engine} (hs : e.seq = ⟨.load, 0⟩) (hc : e.cur = .hash)
    (hb : e.blkidx + 1 = e.nblk) : e.run (113 + 1) = .next (e.blockDone.setSeq ⟨.enc, 0⟩) := by
  rw [Engine.run_block hs (fun d => d.setSeq ⟨.enc, 0⟩) fun x v =>
    Engine.step_chain_last (e := ((e.setW x).setWv v).setSeq ⟨.chain, 0⟩) rfl hc hb, Engine.setSeq_setSeq]

/-! ### The blocks of one HASH -/

/-- What PADBUF holds at BLKIDX = j of a padded message p. -/
structure Engine.Holds (e : Engine) (p : List Byte) (n : Nat) : Prop where
  len : p.length = 64 * n
  nblk : e.nblk.toNat = n
  bytes : ∀ i, (h : i < p.length) → e.padByte i = p[i]

/-- One more block of the message: what `blockDone` makes of the state at block k. -/
theorem Engine.blockDone_held {e d : Engine} {p : List Byte} {n k : Nat} (hp : e.Holds p n) (hk : k < n)
    {w : Schedule} {v : HashState}
    (hd : d = (((e.setW w).setWv v).setH (compressTo p e.h k)).setBlocks e.nblk (BitVec.ofNat 32 k)) :
    d.blockDone = (((e.setW (expand (blockOf p k))).setWv
      ((compressTo p e.h k).roundsTo (expand (blockOf p k)) 64)).setH (compressTo p e.h (k + 1))).setBlocks e.nblk
        (BitVec.ofNat 32 (k + 1)) := by
  have hn := e.nblk.isLt
  have hl := hp.len
  have hnb := hp.nblk
  have hblk : d.block = blockOf p k :=
    Engine.block_of_held (by omega)
      (by rw [hd, Engine.setBlocks_blkidx, BitVec.toNat_ofNat, Nat.mod_eq_of_lt (by omega)])
      (by rw [hd]; exact hp.bytes)
  have hadd : BitVec.ofNat 32 k + 1 = BitVec.ofNat 32 (k + 1) := (BitVec.ofNat_add ..).symm
  rw [Engine.blockDone, hblk, hd]
  simp only [Engine.setBlocks_h, Engine.setBlocks_nblk, Engine.setBlocks_blkidx, Engine.setH_h, hadd, compressTo]
  rw [Engine.block_updates]

/-- HASH at its first LOAD, H = IV: after k blocks, k < n, it stands at the LOAD of block k with H the chaining value
so far; only H, W, WV and BLKIDX have moved. -/
theorem Engine.run_blocks {e : Engine} {p : List Byte} {n : Nat} (hp : e.Holds p n) (hs : e.seq = ⟨.load, 0⟩)
    (hc : e.cur = .hash) (hb : e.blkidx = 0) (k : Nat) (hk : k < n) :
    ∃ w v, e.run (k * (113 + 1)) = .next
      ((((e.setW w).setWv v).setH (compressTo p e.h k)).setBlocks e.nblk (BitVec.ofNat 32 k)) := by
  induction k with
  | zero =>
    refine ⟨e.w, e.wv, ?_⟩
    rw [Nat.zero_mul, Engine.run_zero, compressTo, show BitVec.ofNat 32 0 = e.blkidx from hb.symm]
    rfl
  | succ k ih =>
    obtain ⟨w, v, ih⟩ := ih (by omega)
    have hn := e.nblk.isLt
    have hnb := hp.nblk
    rw [Nat.succ_mul, Engine.run_add _ _ ih]
    obtain ⟨d, hd⟩ : ∃ d, d = (((e.setW w).setWv v).setH (compressTo p e.h k)).setBlocks e.nblk (BitVec.ofNat 32 k) :=
      ⟨_, rfl⟩
    have hadd : BitVec.ofNat 32 k + 1 = BitVec.ofNat 32 (k + 1) := (BitVec.ofNat_add ..).symm
    have hmore : (d.blkidx + 1).toNat < d.nblk.toNat := by
      rw [hd, Engine.setBlocks_blkidx, hadd, BitVec.toNat_ofNat, Nat.mod_eq_of_lt (by omega), Engine.setBlocks_nblk, hnb]
      exact hk
    rw [← hd, Engine.run_block_more (by rw [hd]; exact hs) (by rw [hd]; exact hc) hmore,
      Engine.blockDone_held hp (by omega) hd]
    refine ⟨expand (blockOf p k), (compressTo p e.h k).roundsTo (expand (blockOf p k)) 64, ?_⟩
    rw [Engine.block_updates_seq _ _ _ _ _ _ _ hs]

/-- All the n = k + 1 blocks: HASH stands at ENC. -/
theorem Engine.run_all_blocks {e : Engine} {p : List Byte} {k : Nat} (hp : e.Holds p (k + 1)) (hs : e.seq = ⟨.load, 0⟩)
    (hc : e.cur = .hash) (hb : e.blkidx = 0) :
    e.run ((k + 1) * (113 + 1)) = .next (((((e.setW (expand (blockOf p k))).setWv
      ((compressTo p e.h k).roundsTo (expand (blockOf p k)) 64)).setH (compressTo p e.h (k + 1))).setBlocks e.nblk
        e.nblk).setSeq ⟨.enc, 0⟩) := by
  obtain ⟨w, v, ih⟩ := Engine.run_blocks hp hs hc hb k (by omega)
  have hn := e.nblk.isLt
  have hnb := hp.nblk
  rw [Nat.succ_mul, Engine.run_add _ _ ih]
  obtain ⟨d, hd⟩ : ∃ d, d = (((e.setW w).setWv v).setH (compressTo p e.h k)).setBlocks e.nblk (BitVec.ofNat 32 k) :=
    ⟨_, rfl⟩
  have hadd : BitVec.ofNat 32 k + 1 = BitVec.ofNat 32 (k + 1) := (BitVec.ofNat_add ..).symm
  have hlast : BitVec.ofNat 32 (k + 1) = e.nblk := by
    apply BitVec.eq_of_toNat_eq
    rw [BitVec.toNat_ofNat, Nat.mod_eq_of_lt (by omega), hnb]
  rw [← hd, Engine.run_block_to_enc (by rw [hd]; exact hs) (by rw [hd]; exact hc)
    (by rw [hd, Engine.setBlocks_blkidx, Engine.setBlocks_nblk, hadd, hlast]), Engine.blockDone_held hp (by omega) hd,
    hlast]

/-- HASH accepted, run to its end: with p the padded Message of n + 1 blocks, it is busy at its ENC and then leaves
the digest (R202, R211, R223). -/
theorem Engine.run_hash (e : Engine) (hi : e.inputInvalid = false) :
    ∃ (p : List Byte) (n : Nat), pad e.cfg.lenField e.message = .ok p ∧ p.length = 64 * (n + 1) ∧
      e.messageBlocks = n + 1 ∧ n + 1 < 2 ^ 32 ∧
      (∃ u, (e.clearFlags.start .hash ⟨.pad, 0⟩).run (1 + (1 + (n + 1) * (113 + 1))) = .next u ∧ u.busy = true) ∧
      (e.clearFlags.start .hash ⟨.pad, 0⟩).run (1 + (1 + ((n + 1) * (113 + 1) + 1))) = .next
        { e with
          padbuf := Cells.numbered 0 p
          h := compressTo p IV (n + 1)
          hex := encodeHex (compressTo p IV (n + 1))
          w := expand (blockOf p n)
          wv := (compressTo p IV n).roundsTo (expand (blockOf p n)) 64
          nblk := BitVec.ofNat 32 (n + 1)
          blkidx := BitVec.ofNat 32 (n + 1)
          done := true
          err := .none
          cur := .none
          seq := ⟨.idle, 0⟩ } := by
  obtain ⟨p, hp, hl, _⟩ := Engine.pad_message hi
  have hlt := padLen_blocks_lt e.cfg.lenField e.msgLen
  obtain ⟨n, hn⟩ : ∃ n, p.length = 64 * (n + 1) := ⟨_, by rw [hl, padLen_eq]⟩
  have hd : p.length / 64 = n + 1 := by omega
  have hp' : pad (e.clearFlags.start .hash ⟨.pad, 0⟩).cfg.lenField
      (e.clearFlags.start .hash ⟨.pad, 0⟩).message = .ok p := hp
  have h1 := Engine.step_pad_hash (e := e.clearFlags.start .hash ⟨.pad, 0⟩) rfl rfl
  rw [Engine.padStep_ok hp', hd] at h1
  obtain ⟨E1, hE1⟩ : ∃ E1, E1 = (((e.clearFlags.start .hash ⟨.pad, 0⟩).setPadbuf
      (Cells.numbered 0 p)).setBlocks (BitVec.ofNat 32 (n + 1)) 0).setSeq ⟨.init, 0⟩ := ⟨_, rfl⟩
  have h1 : (e.clearFlags.start .hash ⟨.pad, 0⟩).step = .next E1 := by rw [h1, hE1]
  have h2 := Engine.step_init_hash (e := E1) (by rw [hE1]; rfl) (by rw [hE1]; rfl)
  have hH : (E1.initStep.setSeq ⟨.load, 0⟩).Holds p (n + 1) := by
    refine ⟨hn, ?_, ?_⟩
    · rw [hE1]
      show (BitVec.ofNat 32 (n + 1)).toNat = n + 1
      rw [BitVec.toNat_ofNat, Nat.mod_eq_of_lt (by omega)]
    · intro i hi
      rw [hE1]
      show (Cells.lookup i (Cells.numbered 0 p)).getD _ = p[i]
      rw [Cells.lookup_numbered_in p i hi]
      rfl
  have h3 := Engine.run_all_blocks hH rfl (by rw [hE1]; rfl) (by rw [hE1]; rfl)
  have h4 := Engine.run_add 1 ((n + 1) * (113 + 1)) (Engine.run_one h2)
  have h5 := Engine.run_add 1 (1 + ((n + 1) * (113 + 1))) (Engine.run_one h1)
  rw [h4, h3] at h5
  refine ⟨p, n, hp, hn, ?_, by omega, ⟨_, h5, rfl⟩, ?_⟩
  · rw [Engine.messageBlocks, ← hl, hd]
  · have h6 := Engine.run_add _ 1 h5
    rw [Engine.run_one (Engine.step_enc rfl)] at h6
    rw [show 1 + (1 + ((n + 1) * (113 + 1) + 1)) = 1 + (1 + ((n + 1) * (113 + 1))) + 1 by omega, h6]
    have hh : (E1.initStep.setSeq ⟨.load, 0⟩).h = IV := rfl
    have hnb : (E1.initStep.setSeq ⟨.load, 0⟩).nblk = BitVec.ofNat 32 (n + 1) := by rw [hE1]; rfl
    rw [hh, hnb, hE1]
    obtain ⟨x, hx⟩ : ∃ x, x = expand (blockOf p n) := ⟨_, rfl⟩
    obtain ⟨y, hy⟩ : ∃ y, y = (compressTo p IV n).roundsTo x 64 := ⟨_, rfl⟩
    obtain ⟨z, hz⟩ : ∃ z, z = compressTo p IV (n + 1) := ⟨_, rfl⟩
    rw [← hx, ← hy, ← hz]
    cases e
    rfl

/-- HASH that passes its checks starts at (PAD, 0). -/
theorem exec_hash_start {s : State} (hb : s.busy = false) (hi : s.inputInvalid = false) :
    exec .hash s = .next (s.setEngine (s.toEngine.clearFlags.start .hash ⟨.pad, 0⟩)) := by
  have hc : s.toEngine.check (some .hash) = .none := by rw [Engine.check_hash, hi, if_neg Bool.false_ne_true]
  show Host.Outcome.next (s.setEngine (s.toEngine.issue .hash .hash)) = _
  rw [Engine.issue_start hb hc]
  rfl

/-- HASH performed is its start, run for 3 + 114·NBLK engine steps. -/
theorem perform_hash {s : State} (hb : s.busy = false) (hi : s.inputInvalid = false) :
    perform .hash s =
      (s.toEngine.clearFlags.start .hash ⟨.pad, 0⟩).run (3 + 114 * s.toEngine.messageBlocks) := by
  rw [perform, performFor, exec_hash_start hb hi]
  rfl

/-- The functional digest of a message that pads to n + 1 blocks (R202). -/
theorem hash_of_pad {lf : LenField} {m p : List Byte} {n : Nat} (hp : pad lf m = .ok p)
    (hl : p.length = 64 * (n + 1)) :
    hash lf m = .ok (encodeHex (compressTo p IV (n + 1))) ∧ digest lf m = .ok (compressTo p IV (n + 1)) := by
  have hd : p.length / 64 = n + 1 := by omega
  simp only [hash, digest, hp, hd, and_self]

end Sys2Proof.Machine
end

