-- ==== Sys2Proof/Laws/Invariant.lean ====
section
/-! SUPPORT. The engine's invariant under its own steps, with the measure of the steps left; what a host step can do. -/

namespace Sys2Proof.Machine

/-- Choosing the next move takes a choice and changes nothing else; it is the reset only where one is listed, and the
engine's only where BUSY = 1. -/
theorem State.nextMove_frame {s t : State} {m : Move} (h : s.nextMove = (m, t)) :
    t.toEngine = s.toEngine ∧ t.host = s.host ∧ t.draws = s.draws ∧ (m = .reset → Turn.reset ∈ s.turns) ∧
      (m = .engine → s.busy = true) ∧ (∀ x ∈ t.turns, x ∈ s.turns) := by
  unfold State.nextMove at h
  split at h
  · rename_i ht
    cases h
    exact ⟨rfl, rfl, rfl, by simp [ht], by simp, by simp [ht]; grind⟩
  · rename_i ht
    cases h
    exact ⟨rfl, rfl, rfl, by split <;> simp, by split <;> simp, by simp [ht]; grind⟩
  · rename_i ht
    cases h
    refine ⟨rfl, rfl, rfl, by split <;> simp, ?_, by simp [ht]; grind⟩
    split
    · exact fun _ => ‹_›
    · simp
  · split at h
    · rename_i hb
      simp only [Bool.and_eq_true] at hb
      split at h <;> cases h <;> exact ⟨rfl, rfl, rfl, by simp, fun _ => hb.2, fun _ h => h⟩
    · split at h
      · cases h
        exact ⟨rfl, rfl, rfl, by simp, by simp, fun _ h => h⟩
      · split at h <;> cases h
        · rename_i hb
          exact ⟨rfl, rfl, rfl, by simp, fun _ => hb, fun _ h => h⟩
        · exact ⟨rfl, rfl, rfl, by simp, by simp, fun _ h => h⟩

/-- A host step always answers next; it leaves the engine as it was or makes one admitted write. -/
theorem hostStep_cases (s : State) :
    ∃ t, hostStep s = .next t ∧ t.turns = s.turns ∧ t.ticks = s.ticks ∧
      (Cells.wf s.host.vars → Cells.wf t.host.vars) ∧
      (t.toEngine = s.toEngine ∨
        ∃ a n v, s.host.prog[s.host.pc]? = some (.write a n v) ∧ admitted s.cfg a n = true ∧
          ∃ u, memWrite s.hostAck a n v = .next u ∧ t = u) := by
  unfold hostStep
  split
  · exact ⟨s, rfl, rfl, rfl, id, .inl rfl⟩
  · refine ⟨_, rfl, ?_⟩
    unfold State.hostRead
    simp only
    split <;> exact ⟨rfl, rfl, fun h => Cells.wf_write h _ _, .inl rfl⟩
  · rename_i a n v hp
    unfold State.hostWrite
    cases ha : admitted s.cfg a n with
    | true =>
      obtain ⟨e, he⟩ := memWrite_next (s := s.hostAck) ha v
      rw [he]
      exact ⟨_, rfl, rfl, rfl, id, .inr ⟨a, n, v, hp, ha, _, he, rfl⟩⟩
    | false =>
      rw [memWrite_refused (s := s.hostAck) ha]
      exact ⟨_, rfl, rfl, rfl, id, .inl rfl⟩
  · exact ⟨_, rfl, rfl, rfl, id, .inl rfl⟩

/-- How many steps a busy engine has left: the measure that every step lowers by one (44 R223). -/
def Engine.stepsLeft (e : Engine) : Nat :=
  let more := if e.cur = .hash then 1 + 114 * (e.nblk.toNat - e.blkidx.toNat - 1) else 0
  match e.seq.phase with
  | .idle => 0
  | .pad => if e.cur = .hash then 3 + 114 * e.messageBlocks else 1
  | .init => if e.cur = .hash then 2 + 114 * (e.nblk.toNat - e.blkidx.toNat) else 1
  | .load => 114 + more
  | .exp => (64 - e.seq.t.val) + 65 + more
  | .rnd => (64 - e.seq.t.val) + 1 + more
  | .chain => 1 + more
  | .enc => 1

theorem Seq.eq_of {q : Seq} {p : Phase} (h : q.phase = p) (h2 : q.t = 0) : q = ⟨p, 0⟩ := by
  cases q; simp_all

/-- A step that moves W, WV, H, HEX and the sequencer only keeps the invariant. -/
theorem Engine.Inv.of_frame {e e' : Engine} (h : e.Inv) (hp : e'.padbuf = e.padbuf) (hn : e'.nblk = e.nblk)
    (hb : e'.blkidx = e.blkidx) (hm : e'.msg = e.msg) (he : e'.err = e.err) (hc : e'.cfg = e.cfg)
    (hd : e'.done = e.done ∨ e'.busy = false ∧ e'.done = true) (hbusy : e.busy = true) (hnp : e'.seq.phase ≠ .pad)
    (hblk : e'.inBlock → e.inBlock) (hs : e'.seqLegal) : e'.Inv := by
  obtain ⟨a1,a2,a3,a4,a5,a6,a7,a8,a9,a10,a11,a12,a13,a14⟩ := h
  refine ⟨by rwa [hc], by rwa [hm], by rwa [hm, hc], by rwa [hp], by rwa [hp, hc], ?_, ?_, ?_, ?_, hs,
    fun h => absurd h hnp, ?_, ?_, ?_⟩
  · intro i hi; rw [hp]; rw [hn] at hi; exact a6 i hi
  · rw [hn, hc]; exact a7
  · rw [hn, hb]; exact a8
  · intro h; rw [hn, hb]; exact a9 (hblk h)
  · intro h; have := a12 hbusy; rw [he]; rcases hd with hd | ⟨hd, _⟩
    · rw [hd]; exact this
    · rw [hd] at h; cases h
  · rw [he]; exact a13
  · intro h; rw [he] at h; exact absurd (a12 hbusy).2 h

/-- From the invariant a busy engine makes its step, keeps the invariant and has one step less to go. -/
theorem Engine.Inv.step_next {e : Engine} (h : e.Inv) (hb : e.busy = true) :
    ∃ e', e.step = .next e' ∧ e'.Inv ∧ e.stepsLeft = e'.stepsLeft + 1 := by
  have hsl := h.seq_legal
  have hph := (Engine.busy_eq_true e).1 hb
  unfold Engine.seqLegal at hsl
  cases hp : e.seq.phase with
  | idle => exact absurd hp hph
  | pad =>
    simp only [hp] at hsl
    obtain ⟨hc, ht⟩ := hsl
    have hq := Seq.eq_of hp ht
    obtain ⟨p, hpad, hl, hcap⟩ := Engine.pad_message (h.input_held hp)
    have hlt := padLen_blocks_lt e.cfg.lenField e.msgLen
    have hN : (BitVec.ofNat 32 (p.length / 64)).toNat = p.length / 64 := by
      rw [hl, BitVec.toNat_ofNat, Nat.mod_eq_of_lt hlt]
    have hle : p.length ≤ padCap e.cfg := by rw [hl]; simp only [padLen, padCap, ceil64]; omega
    have h64 : 64 * (p.length / 64) = p.length := by rw [hl, padLen_eq]; omega
    have hpos : 0 < p.length / 64 := by rw [hl, padLen_eq]; omega
    have hst := Engine.padStep_ok hpad
    have key : ∀ e' : Engine, e'.padbuf = Cells.numbered 0 p → e'.nblk = BitVec.ofNat 32 (p.length / 64) →
        e'.blkidx = 0 → e'.msg = e.msg → e'.err = e.err → e'.cfg = e.cfg →
        (e'.done = e.done ∨ e'.busy = false ∧ e'.done = true) → e'.seq.phase ≠ .pad → e'.seqLegal → e'.Inv := by
      intro e' k1 k2 k3 k4 k5 k6 k7 k8 k9
      have hf := h.busy_flags hb
      refine ⟨by rw [k6]; exact h.cfg_wf, by rw [k4]; exact h.msg_wf, by rw [k4, k6]; exact h.msg_within,
        by rw [k1]; exact Cells.wf_numbered _ _,
        by rw [k1, k6]; exact Cells.within_numbered _ _ hle, ?_, ?_, ?_, ?_, k9,
        fun h => absurd h k8, ?_, by rw [k5]; exact h.err_raised, ?_⟩
      · intro i hi
        rw [k2, hN, h64] at hi
        rw [k1, Cells.lookup_numbered_in p i hi]
        rfl
      · rw [k2, hN, k6]; omega
      · rw [k3]; simp
      · intro _; rw [k3, k2, hN]; simpa using hpos
      · intro hb'; rw [k5]; rcases k7 with k7 | ⟨k7, _⟩
        · rw [k7]; exact hf
        · rw [k7] at hb'; cases hb'
      · intro h; rw [k5] at h; exact absurd hf.2 h
    rcases hc with hc | hc
    · refine ⟨_, Engine.step_pad_hash hq hc, ?_, ?_⟩
      · rw [hst]; apply key <;> try rfl
        · exact .inl rfl
        · exact fun hh => Phase.noConfusion hh
        · exact ⟨.inl hc, rfl⟩
      · rw [hst]
        simp only [Engine.stepsLeft, hp, hc, if_true]
        show _ = (if e.cur = .hash then 2 + 114 * ((BitVec.ofNat 32 (p.length / 64)).toNat - (0#32).toNat) else 1) + 1
        rw [if_pos hc, hN, Engine.messageBlocks, ← hl]
        simp; omega
    · refine ⟨_, Engine.step_pad_pad hq hc, ?_, ?_⟩
      · rw [hst]; apply key <;> try rfl
        · exact .inr ⟨rfl, rfl⟩
        · exact fun hh => Phase.noConfusion hh
        · exact ⟨rfl, rfl⟩
      · simp [Engine.stepsLeft, hp, hc, Engine.finish, Seq.idle]
  | init =>
    simp only [hp] at hsl
    obtain ⟨hc, ht⟩ := hsl
    have hq := Seq.eq_of hp ht
    rcases hc with hc | hc
    · refine ⟨_, Engine.step_init_hash hq hc, ?_, ?_⟩
      · apply Engine.Inv.of_frame h <;>
          try first | rfl | exact .inl rfl | exact hb | exact fun hh => Phase.noConfusion hh
        · intro _; exact .inl ⟨hp, hc⟩
        · exact ⟨.inl hc, rfl⟩
      · have := h.block_held (.inl ⟨hp, hc⟩)
        simp [Engine.stepsLeft, hp, hc]; omega
    · refine ⟨_, Engine.step_init_init hq hc, ?_, ?_⟩
      · apply Engine.Inv.of_frame h <;>
          try first | rfl | exact .inr ⟨rfl, rfl⟩ | exact hb | exact fun hh => Phase.noConfusion hh
        · intro h; simp [Engine.inBlock, Seq.idle, Engine.finish] at h
        · exact ⟨rfl, rfl⟩
      · simp [Engine.stepsLeft, hp, hc, Engine.finish, Seq.idle]
  | load =>
    simp only [hp] at hsl
    obtain ⟨hc, ht⟩ := hsl
    have hq := Seq.eq_of hp ht
    refine ⟨_, Engine.step_load hq, ?_, ?_⟩
    · apply Engine.Inv.of_frame h <;>
          try first | rfl | exact .inl rfl | exact hb | exact fun hh => Phase.noConfusion hh
      · intro _; exact .inr (.inl hp)
      · exact ⟨hc, Nat.le_refl 16⟩
    · rcases hc with hc | hc <;> simp [Engine.stepsLeft, hp, hc] <;> omega
  | exp =>
    simp only [hp] at hsl
    obtain ⟨hc, ht⟩ := hsl
    obtain ⟨n, hn⟩ : ∃ n, e.seq.t.val = 16 + n := ⟨_, (Nat.add_sub_cancel' ht).symm⟩
    have hlt := e.seq.t.isLt
    have hq : e.seq = ⟨.exp, ⟨16 + n, by omega⟩⟩ := by
      have : e.seq.t = ⟨16 + n, by omega⟩ := Fin.ext hn
      rw [← hp, ← this]
    by_cases h47 : n < 47
    · refine ⟨_, Engine.step_exp n h47 hq, ?_, ?_⟩
      · apply Engine.Inv.of_frame h <;>
          try first | rfl | exact .inl rfl | exact hb | exact fun hh => Phase.noConfusion hh
        · intro _; exact .inr (.inr (.inl hp))
        · exact ⟨hc, by simp⟩
      · rcases hc with hc | hc <;> simp [Engine.stepsLeft, hp, hc, hn] <;> omega
    · refine ⟨_, Engine.step_exp_last n (by omega) hq, ?_, ?_⟩
      · apply Engine.Inv.of_frame h <;>
          try first | rfl | exact .inl rfl | exact hb | exact fun hh => Phase.noConfusion hh
        · intro _; exact .inr (.inr (.inl hp))
        · exact hc
      · rcases hc with hc | hc <;> simp [Engine.stepsLeft, hp, hc, hn] <;> omega
  | rnd =>
    simp only [hp] at hsl
    obtain ⟨n, hn⟩ : ∃ n, e.seq.t.val = n := ⟨_, rfl⟩
    have hlt := e.seq.t.isLt
    have hq : e.seq = ⟨.rnd, ⟨n, by omega⟩⟩ := by
      have : e.seq.t = ⟨n, by omega⟩ := Fin.ext hn
      rw [← hp, ← this]
    by_cases h47 : n < 63
    · refine ⟨_, Engine.step_rnd n h47 hq, ?_, ?_⟩
      · apply Engine.Inv.of_frame h <;>
          try first | rfl | exact .inl rfl | exact hb | exact fun hh => Phase.noConfusion hh
        · intro _; exact .inr (.inr (.inr (.inl hp)))
        · exact hsl
      · rcases hsl with hc | hc <;> simp [Engine.stepsLeft, hp, hc, hn] <;> omega
    · refine ⟨_, Engine.step_rnd_last n (by omega) hq, ?_, ?_⟩
      · apply Engine.Inv.of_frame h <;>
          try first | rfl | exact .inl rfl | exact hb | exact fun hh => Phase.noConfusion hh
        · intro _; exact .inr (.inr (.inr (.inl hp)))
        · exact ⟨hsl, rfl⟩
      · rcases hsl with hc | hc <;> simp [Engine.stepsLeft, hp, hc, hn] <;> omega
  | chain =>
    simp only [hp] at hsl
    obtain ⟨hc, ht⟩ := hsl
    have hq := Seq.eq_of hp ht
    have hbl := h.block_held (.inr (.inr (.inr (.inr hp))))
    have hnlt := e.nblk.isLt
    have hadd : (e.blkidx + 1).toNat = e.blkidx.toNat + 1 := by
      rw [BitVec.toNat_add]; simp; omega
    have hf := h.busy_flags hb
    have key : ∀ e' : Engine, e'.padbuf = e.padbuf → e'.nblk = e.nblk → e'.blkidx = e.blkidx + 1 → e'.msg = e.msg →
        e'.err = e.err → e'.cfg = e.cfg → (e'.done = e.done ∨ e'.busy = false ∧ e'.done = true) →
        e'.seq.phase ≠ .pad → (e'.inBlock → (e.blkidx + 1).toNat < e.nblk.toNat) → e'.seqLegal → e'.Inv := by
      intro e' k1 k2 k3 k4 k5 k6 k7 k8 k8' k9
      refine ⟨by rw [k6]; exact h.cfg_wf, by rw [k4]; exact h.msg_wf, by rw [k4, k6]; exact h.msg_within,
        by rw [k1]; exact h.padbuf_wf, by rw [k1, k6]; exact h.padbuf_within, by rw [k1, k2]; exact h.padbuf_held,
        by rw [k2, k6]; exact h.nblk_fits, by rw [k2, k3]; omega, by rw [k2, k3]; exact k8', k9,
        fun h => absurd h k8, ?_, by rw [k5]; exact h.err_raised, ?_⟩
      · intro hb'; rw [k5]; rcases k7 with k7 | ⟨k7, _⟩
        · rw [k7]; exact hf
        · rw [k7] at hb'; cases hb'
      · intro h; rw [k5] at h; exact absurd hf.2 h
    rcases hc with hc | hc
    · by_cases hlast : (e.blkidx + 1).toNat < e.nblk.toNat
      · refine ⟨_, Engine.step_chain_more hq hc hlast, ?_, ?_⟩
        · apply key <;>
          try first | rfl | exact .inl rfl | exact hb | exact fun hh => Phase.noConfusion hh
          · intro _; exact hlast
          · exact ⟨.inl hc, rfl⟩
        · simp [Engine.stepsLeft, hp, hc]; omega
      · have heq : e.blkidx + 1 = e.nblk := by apply BitVec.eq_of_toNat_eq; omega
        refine ⟨_, Engine.step_chain_last hq hc heq, ?_, ?_⟩
        · apply key <;>
          try first | rfl | exact .inl rfl | exact hb | exact fun hh => Phase.noConfusion hh
          · intro h; simp [Engine.inBlock] at h
          · exact ⟨.inl hc, rfl⟩
        · simp [Engine.stepsLeft, hp, hc]; omega
    · refine ⟨_, Engine.step_chain_block hq hc, ?_, ?_⟩
      · apply key <;>
          try first | rfl | exact .inr ⟨rfl, rfl⟩ | exact hb | exact fun hh => Phase.noConfusion hh
        · intro h; simp [Engine.inBlock, Engine.finish, Seq.idle] at h
        · exact ⟨rfl, rfl⟩
      · simp [Engine.stepsLeft, hp, hc, Engine.finish, Seq.idle]
  | enc =>
    simp only [hp] at hsl
    obtain ⟨hc, ht⟩ := hsl
    have hq := Seq.eq_of hp ht
    refine ⟨_, Engine.step_enc hq, ?_, ?_⟩
    · apply Engine.Inv.of_frame h <;>
          try first | rfl | exact .inr ⟨rfl, rfl⟩ | exact hb | exact fun hh => Phase.noConfusion hh
      · intro h; simp [Engine.inBlock, Engine.finish, Seq.idle] at h
      · exact ⟨rfl, rfl⟩
    · simp [Engine.stepsLeft, hp, Engine.finish, Seq.idle]

/-! ### Runs of the engine alone -/

/-- With no turn listed and no host statement left, a busy machine's step is its engine's. -/
theorem step_engine_alone {s : State} {e : Engine} (ht : s.turns = []) (hh : s.hostReady = false) (hb : s.busy = true)
    (he : s.toEngine.step = .next e) : step s = .next (s.setEngine e) := by
  unfold step machineStep State.nextMove
  simp [ht, hh, hb, engineStep, he]

/-- A run of the engine to its idle state is a run of the machine whose host has nothing to do. -/
theorem Runs.of_run {s : State} {e : Engine} (n : Nat) (ht : s.turns = []) (hh : s.hostReady = false)
    (hr : s.toEngine.run n = .next e) (hi : e.busy = false) :
    ∃ k, Runs (fun x => x.busy = true) k s (s.setEngine e) := by
  induction n generalizing s with
  | zero =>
    cases hr
    exact ⟨0, .refl s⟩
  | succ n ih =>
    cases hb : s.busy with
    | false =>
      rw [Engine.run_idle hb] at hr
      cases hr
      exact ⟨0, .refl s⟩
    | true =>
      cases hs : s.toEngine.step with
      | next d =>
        rw [Engine.run_succ n hs] at hr
        obtain ⟨k, hk⟩ := ih (s := s.setEngine d) ht hh hr
        exact ⟨k + 1, .step hb (step_engine_alone ht hh hb hs) hk⟩
      | fault f => simp [Engine.run, hs] at hr
      | refused r => simp [Engine.run, hs] at hr

end Sys2Proof.Machine
end

