-- ==== Sys2Proof/Laws/PerInstr.lean ====
section
/-! SUPPORT. Statements for all instructions, made per instruction. -/

namespace Sys2Proof.Laws

namespace CodeRoundTrip

/-- The command is well-formed, its word is the zero-extended OPC of the opcode table, the word is legal, and decoding it
gives the command back (30_encoding R93, R94). -/
def Statement (i : Instr) : Prop :=
  i.wf = true ∧ CommandWord.wf (encode i) = true ∧ (encode i).toNat = i.opc.toNat ∧ decode (encode i) = .ok i

theorem nop : Statement .nop := ⟨rfl, by decide, by decide, rfl⟩
theorem hash : Statement .hash := ⟨rfl, by decide, by decide, rfl⟩
theorem init : Statement .init := ⟨rfl, by decide, by decide, rfl⟩
theorem pad : Statement .pad := ⟨rfl, by decide, by decide, rfl⟩
theorem block : Statement .block := ⟨rfl, by decide, by decide, rfl⟩
theorem encode : Statement .encode := ⟨rfl, by decide, by decide, rfl⟩

end CodeRoundTrip

end Sys2Proof.Laws
end

