-- ==== Sys2Proof/Tests/Slice0.lean ====
section
/-! SUPPORT. The model's own tests. Expected results are the spec's: each test names the rule or the row of
spec/95_test_vectors.md it takes them from. The witness theorems show states that meet a statement's hypotheses. -/

open Sys2Proof Sys2Proof.Machine

namespace Sys2Proof.Tests

/-! ## Small states -/

/-- The machine after reset with its engine replaced. -/
def withEngine (e : Engine) : State := State.reset.setEngine e

/-- The engine after reset in the default build. -/
def fresh : Engine := State.reset.toEngine

/-- An engine standing at a phase with a command in progress. -/
def at_ (p : Phase) (t : Fin 64) (c : Cur) : Engine := (fresh.setSeq ⟨p, t⟩).setCur c

/-- The 2-byte build with room for 16384 bytes (95 section 2.7 row 13). -/
def twoByte : Engine := .resetWith { lenField := .two, msgCap := 16384, addrW := 16 } 0

/-- The engine's STATUS after an outcome. -/
def statusOf : Host.Outcome State Fault Refusal → Option Word
  | .next s => some s.toEngine.status
  | .fault _ => none
  | .refused _ => none

/-- A field of the engine after a command performed. -/
def afterRun {α : Type} (f : Engine → α) : Host.Outcome Engine Fault Refusal → Option α
  | .next e => some (f e)
  | .fault _ => none
  | .refused _ => none

/-- A field of the machine after a step or a write. -/
def afterStep {α : Type} (f : State → α) : Host.Outcome State Fault Refusal → Option α
  | .next s => some (f s)
  | .fault _ => none
  | .refused _ => none

/-- A read's value. -/
def valueOf : Except Refusal Word → Option Word
  | .ok v => some v
  | .error _ => none

/-- A padded message's bytes from an index on. -/
def padTail (lf : LenField) (m : List Byte) (i : Nat) : Option (Nat × List Byte) :=
  match pad lf m with
  | .ok p => some (p.length, p.drop i)
  | .error _ => none

/-- The first word of a digest. -/
def digestA (lf : LenField) (m : List Byte) : Option Word :=
  match digest lf m with
  | .ok s => some s.a
  | .error _ => none

def abc : List Byte := [0x61, 0x62, 0x63]

/-! ## WellFormed refuses one ill-formed term for each check -/

theorem test_wf_reserved_bits : CommandWord.rsvdClear 0x00000101 = false ∧ CommandWord.wf 0x00000101 = false := by decide
theorem test_wf_unknown_code : CommandWord.codeKnown 0x00000006 = false ∧ CommandWord.wf 0x00000006 = false := by decide
theorem test_wf_addr_w : Config.addrWOk { lenField := .eight, msgCap := 4, addrW := 12 } = false ∧
    Config.addrWOk { lenField := .eight, msgCap := 4, addrW := 33 } = false ∧
    Config.wf { lenField := .eight, msgCap := 4, addrW := 12 } = false := by decide
theorem test_wf_cap_aligned : Config.msgCapAligned { lenField := .eight, msgCap := 4097, addrW := 16 } = false ∧
    Config.wf { lenField := .eight, msgCap := 4097, addrW := 16 } = false := by decide
theorem test_wf_cap_range : Config.msgCapInRange { lenField := .eight, msgCap := 0, addrW := 16 } = false ∧
    Config.msgCapInRange { lenField := .eight, msgCap := 4100, addrW := 13 } = false ∧
    Config.wf { lenField := .eight, msgCap := 4100, addrW := 13 } = false := by decide
theorem test_wf_bounds_allowed : Config.wf { lenField := .two, msgCap := 4096, addrW := 13 } = true ∧
    Config.wf { lenField := .eight, msgCap := 4, addrW := 32 } = true ∧ Config.wf .defaultBuild = true := by decide

/-! ## Decoding: every command's word written out from R93, and the illegal kinds of R95 -/

theorem test_decode_nop : decode 0b00000000000000000000000000000000#32 = .ok .nop := rfl
theorem test_decode_hash : decode 0b00000000000000000000000000000001#32 = .ok .hash := rfl
theorem test_decode_init : decode 0b00000000000000000000000000000010#32 = .ok .init := rfl
theorem test_decode_pad : decode 0b00000000000000000000000000000011#32 = .ok .pad := rfl
theorem test_decode_block : decode 0b00000000000000000000000000000100#32 = .ok .block := rfl
theorem test_decode_encode : decode 0b00000000000000000000000000000101#32 = .ok .encode := rfl
theorem test_decode_illegal : decode 0x00000006 = .error (.unknownCode 0x06) ∧
    decode 0x000000ff = .error (.unknownCode 0xff) ∧ decode 0x00000100 = .error (.reservedBits 1) ∧
    decode 0x80000001 = .error (.reservedBits 0x800000) := ⟨rfl, rfl, rfl, rfl⟩
/-- A 32-bit write to CMD carries the OPC on lane 0 (R62, R90). -/
theorem test_decode_bytes : decodeBytes [0x04, 0, 0, 0, 0xaa] = .ok (.block, [0xaa]) ∧
    decodeBytes [0, 0, 0, 0x04] = .error (.reservedBits 0x040000) ∧ decodeBytes [4, 0, 0] = .error (.tooShort 3) :=
  ⟨rfl, rfl, rfl⟩
theorem test_decode_table_words : decodeTableWord 32 5 = some .encode ∧ decodeTableWord 8 1 = some .hash ∧
    decodeTableWord 32 256 = none ∧ decodeTableWord 64 (2 ^ 32) = none := by decide

/-! ## BitOps (95 section 2.1) -/

theorem test_rotr : rotr 0x61626380 1 = 0x30b131c0 ∧ rotr 0x61626380 31 = 0xc2c4c700 ∧ rotr 0x61626380 32 = 0x61626380 ∧
    rotr 0x61626380 33 = 0x30b131c0 ∧ rotr 0x12345678 4 = 0x81234567 := by decide
theorem test_shr : shr 0xffffffff 31 = 1 ∧ shr 0x6a09e667 32 = 0x6a09e667 ∧ shr 0x6a09e667 36 = 0x06a09e66 ∧
    shr 0xffffffff 10 = 0x003fffff := by decide
theorem test_sigmas : ssig0 0x6a09e667 = 0xba0cf582 ∧ ssig1 0x6a09e667 = 0xcfe5da3c ∧ bsig0 0x6a09e667 = 0xce20b47e ∧
    bsig1 0x6a09e667 = 0x55b65510 := by decide
theorem test_ch_maj : ch 0x510e527f 0x9b05688c 0x1f83d9ab = 0x1f85c98c ∧ maj 0x6a09e667 0xbb67ae85 0x3c6ef372 = 0x3a6fe667 := by decide
theorem test_add_wraps : add32 0xfffffffe 0xffffffff = 0xfffffffd ∧ add32 0x80000000 0x80000000 = 0 := by decide

/-! ## Padder (95 section 2.2, 41 R139) -/

theorem test_pad_abc : padTail .eight abc 0 =
    some (64, [0x61, 0x62, 0x63, 0x80] ++ List.replicate 59 0 ++ [0x18]) := by decide +kernel
theorem test_pad_56 : padTail .eight (List.replicate 56 0x61) 126 = some (128, [0x01, 0xc0]) ∧
    padTail .two (List.replicate 56 0x61) 56 = some (64, [0x80, 0, 0, 0, 0, 0, 0x01, 0xc0]) := by decide +kernel
theorem test_pad_boundaries : (padTail .eight (List.replicate 55 0) 0).map Prod.fst = some 64 ∧
    (padTail .two (List.replicate 61 0) 0).map Prod.fst = some 64 ∧
    (padTail .two (List.replicate 62 0) 0).map Prod.fst = some 128 := by decide +kernel

/-! ## Schedule, rounds and digests (95 sections 1, 2.3 to 2.5, 43 R179) -/

def abcBlock : Block :=
  match pad .eight abc with
  | .ok p => blockOf p 0
  | .error _ => Vector.replicate 64 0

theorem test_schedule_abc : (expand abcBlock)[0] = 0x61626380 ∧ (expand abcBlock)[15] = 0x18 ∧
    (expand abcBlock)[18] = 0x7da86405 ∧ (expand abcBlock)[63] = 0x12b1edeb := by decide +kernel
theorem test_round_0_abc : IV.round 0x428a2f98 0x61626380 =
    ⟨0x5d6aebcd, 0x6a09e667, 0xbb67ae85, 0x3c6ef372, 0xfa2a4622, 0x510e527f, 0x9b05688c, 0x1f83d9ab⟩ := by decide
theorem test_digest_abc : digestA .eight abc = some 0xba7816bf := by decide +kernel
theorem test_digest_two_byte_trailer : digestA .two (List.replicate 56 0x61) = some 0xcf8d1a8a := by decide +kernel

/-! ## HexEncoder (95 section 2.6) -/

theorem test_hexchar : (hexchar 0, hexchar 9, hexchar 10, hexchar 15) = (0x30, 0x39, 0x61, 0x66) := by decide
theorem test_encode_iv : (encodeHex IV).toList.take 16 =
    [0x36, 0x61, 0x30, 0x39, 0x65, 0x36, 0x36, 0x37, 0x62, 0x62, 0x36, 0x37, 0x61, 0x65, 0x38, 0x35] := by
  decide +kernel

/-! ## Commands (95 section 2.7, by row) -/

/-- Rows 1 and 2. -/
theorem test_nop : statusOf (issueCommand 0 State.reset) = some 0 ∧
    statusOf (issueCommand 0 (withEngine (fresh.setFlags true .invalidInput))) = some 0x12 := by decide
/-- Rows 3 to 6. -/
theorem test_illegal : statusOf (issueCommand 0x00000100 State.reset) = some 0x52 ∧
    statusOf (issueCommand 0x00000006 State.reset) = some 0x52 ∧
    statusOf (issueCommand 0x000000ff State.reset) = some 0x52 ∧
    statusOf (issueCommand 0x80000001 State.reset) = some 0x52 := by decide
/-- Row 7. -/
theorem test_block_none_left : statusOf (issueCommand 4 State.reset) = some 0x62 := by decide
/-- Row 8. -/
theorem test_encode_after_reset : afterRun (fun e => (e.status, e.hex.toList)) (perform .encode State.reset) =
    some (2, List.replicate 64 0x30) := by decide +kernel
/-- Rows 9 and 16. -/
theorem test_init : afterRun (fun e => (e.status, e.h.a, e.h.h)) (perform .init State.reset) =
    some (2, 0x6a09e667, 0x5be0cd19) ∧
    afterRun Engine.status (perform .init (withEngine (fresh.setFlags true .noBlock))) = some 2 := by decide
/-- Row 10. -/
theorem test_pad_empty : afterRun (fun e => (e.status, e.nblk, e.blkidx)) (perform .pad State.reset) =
    some (2, 1, 0) := by decide
/-- Row 12. -/
theorem test_pad_too_long : afterStep (fun s => (s.toEngine.status, s.nblk, s.blkidx))
    (exec .pad (withEngine ((fresh.setMsgLen 0xffffffff).setBlocks 3 2))) = some (0x12, 0, 0) := by decide
/-- Rows 11 and 13. -/
theorem test_hash_too_long : statusOf (exec .hash (withEngine (fresh.setMsgLen 4097))) = some 0x12 ∧
    statusOf (exec .hash (withEngine (twoByte.setMsgLen 8192))) = some 0x12 ∧
    statusOf (exec .hash (withEngine (twoByte.setMsgLen 8191))) = some 1 := by decide
/-- Row 17. -/
theorem test_busy_ignores : statusOf (issueCommand 0x80000001 (withEngine (at_ .rnd 5 .hash))) = some 1 ∧
    statusOf (issueCommand 2 (withEngine (at_ .rnd 5 .hash))) = some 1 := by decide
/-- The whole HASH of the empty message through its 117 steps (95 section 1.1). -/
theorem test_hash_empty : afterRun (fun e => (e.status, e.h.a, e.h.h, e.nblk, e.blkidx, e.wv.a)) (perform .hash State.reset) =
    some (2, 0xe3b0c442, 0x7852b855, 1, 1, 0x79a6dddb) := by decide +kernel

/-! ## Bus transactions (95 section 2.8, by row) -/

/-- Rows 1, 2, 4 to 6 and 18. -/
theorem test_bus_reads : (([0x000, 0x018, 0x01C, 0x004, 0x0A0] : List Nat).map fun a => valueOf (fresh.memRead 9 a 4)) =
    [some 0x53323536, some 0x1008, some 0x1000, some 0, some 0] ∧ valueOf (fresh.memRead 9 0x2000 1) = some 0 := by decide
/-- Row 3. -/
theorem test_bus_caps_two : valueOf (twoByte.memRead 9 0x018 4) = some 0x1002 := by decide
/-- Rows 10 to 13 and 17, and R68's byte registers. -/
theorem test_bus_refused : (([(0x000, 1), (0x002, 4), (0x1000, 2), (0x10000, 4), (0x1001, 4), (0x03F, 1), (0x080, 1),
    (0xFFF, 1)] : List (Nat × Nat)).map fun p => admitted .defaultBuild p.1 p.2) = List.replicate 8 false := by decide
theorem test_bus_admitted : (([(0x040, 1), (0x07F, 1), (0x1000, 1), (0xFFFF, 1), (0xFFFC, 4), (0x000, 4)] :
    List (Nat × Nat)).map fun p => admitted .defaultBuild p.1 p.2) = List.replicate 6 true := by decide
/-- Rows 14 to 16. -/
theorem test_bus_lanes : afterStep (fun s => s.msg) (memWrite State.reset 0x1000 4 0x00636261) =
    some [(0, 0x61), (1, 0x62), (2, 0x63), (3, 0x00)] ∧
    (afterStep (fun s => valueOf (s.toEngine.memRead 9 0x1000 4))
      (memWrite (withEngine (fresh.setMsg [(0, 0x61), (1, 0x62), (2, 0x63), (3, 0x00)])) 0x1003 1 0x64)) =
      some (some 0x64636261) := by decide
/-- Rows 7 to 9 and 19. -/
theorem test_bus_ignored : memWrite State.reset 0x0A0 4 0xdeadbeef = .next State.reset ∧
    memWrite State.reset 0x008 4 0xffffffff = .next State.reset ∧ memWrite State.reset 0x000 4 0 = .next State.reset ∧
    memWrite State.reset 0x040 1 0x41 = .next State.reset := ⟨rfl, rfl, rfl, rfl⟩
/-- Rows 20 to 22. -/
theorem test_bus_msg_len : afterStep (fun s => s.msgLen) (memWrite State.reset 0x00C 4 0xffffffff) = some 0xffffffff ∧
    afterStep (fun s => s.msgLen) (memWrite (withEngine (at_ .rnd 5 .hash)) 0x00C 4 5) = some 0 ∧
    afterStep (fun s => s.msg) (memWrite (withEngine (at_ .rnd 5 .hash)) 0x1000 1 0x7a) = some [] := by decide
/-- Row 23: a read of NBLK while busy is the draw, whatever NBLK holds. -/
theorem test_bus_unsettled : valueOf ((at_ .rnd 5 .hash).memRead 0xdead 0x010 4) = some 0xdead ∧
    valueOf ((at_ .rnd 5 .hash).memRead 0xdead 0x00C 4) = some 0 := by decide
/-- Row 25: a refused write through the host's step changes no state of the engine and issues no command. -/
theorem test_bus_refused_write : afterStep (fun s => (s.toEngine.status, s.busy, s.host.resp))
    (hostStep (State.reset.loadProgram [.write 0x004 1 1])) = some (0, false, .busError 0x004 1) := by decide

/-! ## The machine's step -/

/-- The host's first step after withFetchWord runs the placed command (R200): HASH starts at (PAD, 0). -/
theorem test_step_runs_hash : afterStep (fun s => (s.seq, s.cur)) (step (State.reset.withFetchWord 32 1)) =
    some (⟨.pad, 0⟩, .hash) := by decide
theorem test_step_reset_input : afterStep (fun s => (s.seq.phase, s.msgLen, s.epoch, s.turns))
    (step ((withEngine ((at_ .rnd 5 .hash).setMsgLen 7)).setTurns [.reset, .host])) = some (.idle, 0, 1, [.host]) := by decide

/-! ## Host programs (30 R97 to R102, 95 program P1) -/

theorem test_assemble_p1 : (assemble [.loadMsg abc, .run .hash]) = some
    [.write 0x1000 1 0x61, .write 0x1001 1 0x62, .write 0x1002 1 0x63, .write 0x00C 4 3, .write 0x004 4 1,
      .read 0x008 4 0, .bnz 0 1 5] := by decide
theorem test_assemble_text : assembleText ["  WR32 MSG+4, 0x10 ; a comment", "again: RD32 NBLK -> n", "BNZ n, 0x2, again"] =
    some [.write 0x1004 4 0x10, .read 0x010 4 0, .bnz 0 2 1] := by decide
/-- A `;` inside a literal is a character of it, and an open literal does not assemble (log 20's choices). -/
theorem test_assemble_literals : (parseProgram ["LOADMSG " ++ String.ofList [quoteChar, 'a', ';', quoteChar] ++ " ; b"]) =
    some [.loadMsg [0x61, 0x3b]] ∧
    parseProgram ["CMDW " ++ String.ofList [quoteChar, 'H', 'A', 'S', 'H']] = none := by decide
theorem test_host_branch : afterStep (fun s => s.host.pc)
    (hostStep ((State.reset.loadProgram [.bnz 0 0xF0 7]).setHost
      { prog := [.bnz 0 0xF0 7], pc := 0, vars := [(0, 0x62)], resp := .none })) = some 7 := by decide

/-! ## Witnesses: for every statement with hypotheses, inputs that meet them, at the ends of their ranges -/

/-- A machine at round 5 of a HASH. -/
def busyMachine : State := withEngine (at_ .rnd 5 .hash)

/-- The machine after reset with HASH accepted. -/
def hashStarted : State := State.reset.setEngine (fresh.clearFlags.start .hash ⟨.pad, 0⟩)

/-- An idle machine with one padded block left of two. -/
def oneBlockLeft : State := withEngine (fresh.setBlocks 2 1)

/-- A host about to make one statement. -/
def withStmt (s : State) (x : HostStmt) : State := s.loadProgram [x]

theorem witness_IllegalWordsRaiseIllegalCommand : (∃ x, decode 0x00000100 = .error x) ∧ (∃ x, decode 0x00000006 = .error x) ∧
    (∃ x, decode 0xffffffff = .error x) ∧ State.reset.busy = false ∧ busyMachine.busy = true :=
  ⟨⟨_, rfl⟩, ⟨_, rfl⟩, ⟨_, rfl⟩, rfl, rfl⟩

theorem witness_AdditionWrapsInAnyOrder : ([1, 0xffffffff] : List Word).Perm [0xffffffff, 1] := .swap _ _ _

theorem witness_RotateMovesEveryBit : (0 : Nat) < 32 ∧ (31 : Nat) < 32 := by decide
theorem witness_ShiftFillsWithZeros : (0 : Nat) < 32 ∧ 0 + 32 % 32 ≤ 31 ∧ (31 : Nat) < 32 ∧ ¬ 31 + 1 % 32 ≤ 31 := by decide
theorem witness_ChooseAndMajorityPerBit : (0 : Nat) < 32 ∧ (31 : Nat) < 32 := by decide
theorem witness_SigmasXorTheirSourceBits : (0 : Nat) < 32 ∧ (31 : Nat) < 32 := by decide

theorem witness_PaddedLengthIsTheSmallestThatFits : (∃ p, pad .eight [] = .ok p) ∧
    (∃ p, pad .two (List.replicate 8191 0) = .ok p) ∧ 64 % 64 = 0 ∧ 0 + 1 + LenField.bytes .eight ≤ 64 :=
  ⟨⟨_, rfl⟩, ⟨_, pad_ok (by rw [List.length_replicate]; decide)⟩, rfl, by decide⟩

theorem witness_PaddedBytesAreLaidOut : 8 * ([] : List Byte).length < 2 ^ 64 ∧ (∃ p, pad .eight [] = .ok p) ∧
    8 * (List.replicate 61 (0 : Byte)).length < 2 ^ 64 ∧ (∃ p, pad .two (List.replicate 61 0) = .ok p) :=
  ⟨by decide, ⟨_, rfl⟩, by decide, ⟨_, pad_ok (by rw [List.length_replicate]; decide)⟩⟩

theorem witness_PadRefusesExactlyTheUnfitLengths : (∃ m : List Byte, m.length = 8191) ∧ ∃ m : List Byte, m.length = 8192 :=
  ⟨⟨List.replicate 8191 0, List.length_replicate⟩, ⟨List.replicate 8192 0, List.length_replicate⟩⟩

/-- Lengths 55 and 56 in the 8-byte build, 61 and 62 in the 2-byte build: the two sides of each clause. -/
theorem witness_BlockCountFollowsTheClosedForm :
    (∃ p, pad .eight (List.replicate 55 0) = .ok p) ∧ (∃ p, pad .eight (List.replicate 56 0) = .ok p) ∧
    (∃ p, pad .two (List.replicate 61 0) = .ok p) ∧ (∃ p, pad .two (List.replicate 62 0) = .ok p) :=
  ⟨⟨_, pad_ok (by rw [List.length_replicate]; decide)⟩, ⟨_, pad_ok (by rw [List.length_replicate]; decide)⟩,
    ⟨_, pad_ok (by rw [List.length_replicate]; decide)⟩, ⟨_, pad_ok (by rw [List.length_replicate]; decide)⟩⟩

theorem witness_TrailerWidthsAgreeExactly : ∀ n ∈ [0, 55, 56, 61, 62, 8191],
    (List.replicate n (0 : Byte)).length ≤ 8191 ∧ (∃ p, pad .eight (List.replicate n 0) = .ok p) ∧
      ∃ q, pad .two (List.replicate n 0) = .ok q := by
  intro n hn
  have h : n ≤ 8191 := by
    simp only [List.mem_cons, List.not_mem_nil, or_false] at hn
    omega
  refine ⟨by rw [List.length_replicate]; exact h, ⟨_, pad_ok rfl⟩, ⟨_, pad_ok ?_⟩⟩
  rw [List.length_replicate]
  simp only [lengthUnfit, beq_self_eq_true, Bool.true_and, decide_eq_false_iff_not]
  omega

theorem witness_ScheduleWordsFollowTheRecurrence : 16 ≤ 16 ∧ 16 < 64 ∧ 16 ≤ 63 ∧ 63 < 64 := by decide

theorem witness_LoadReadsTheBlockAndTheChainingValue : (at_ .load 0 .block).seq = ⟨.load, 0⟩ ∧ 16 ≤ 16 ∧ 63 < 64 :=
  ⟨rfl, by decide, by decide⟩

theorem witness_ExpandStepWritesOneWord : 16 ≤ (16 : Fin 64).val ∧ (at_ .exp 16 .hash).seq = ⟨.exp, 16⟩ ∧
    16 ≤ (63 : Fin 64).val ∧ (at_ .exp 63 .block).seq = ⟨.exp, 63⟩ ∧ (0 : Fin 64) ≠ 16 :=
  ⟨by decide, rfl, by decide, rfl, by decide⟩

theorem witness_RoundReadsEverythingBeforeItWrites : (at_ .rnd 0 .hash).seq = ⟨.rnd, 0⟩ ∧ (at_ .rnd 63 .block).seq = ⟨.rnd, 63⟩ :=
  ⟨rfl, rfl⟩

theorem witness_ChainAddsThePreBlockState : (at_ .chain 0 .block).seq.phase = .chain ∧
    ∃ e', (at_ .chain 0 .block).step = .next e' :=
  ⟨rfl, _, Engine.step_chain_block rfl rfl⟩

theorem witness_BlockStepsRefineCompress : (at_ .load 0 .block).seq = ⟨.load, 0⟩ ∧ (at_ .load 0 .block).cur = .block ∧
    ((at_ .load 0 .hash).setBlocks 2 1).seq = ⟨.load, 0⟩ ∧ ((at_ .load 0 .hash).setBlocks 2 1).cur = .hash ∧
    ((at_ .load 0 .hash).setBlocks 2 1).blkidx.toNat < ((at_ .load 0 .hash).setBlocks 2 1).nblk.toNat :=
  ⟨rfl, rfl, rfl, rfl, by decide⟩

/-- One step for each row of R221's table, in its order, with t = 62 and 63 at EXP and RND. -/
theorem witness_SequencerFollowsTheTable :
    (∃ e', (at_ .pad 0 .hash).step = .next e') ∧ (∃ e', (at_ .pad 0 .pad).step = .next e') ∧
    (∃ e', (at_ .init 0 .hash).step = .next e') ∧ (∃ e', (at_ .init 0 .init).step = .next e') ∧
    (∃ e', (at_ .load 0 .block).step = .next e') ∧ (∃ e', (at_ .exp 62 .block).step = .next e') ∧
    (∃ e', (at_ .exp 63 .block).step = .next e') ∧ (∃ e', (at_ .rnd 62 .block).step = .next e') ∧
    (∃ e', (at_ .rnd 63 .block).step = .next e') ∧
    (∃ e', ((at_ .chain 0 .hash).setBlocks 2 0).step = .next e' ∧ e'.blkidx.toNat < e'.nblk.toNat) ∧
    (∃ e', ((at_ .chain 0 .hash).setBlocks 1 0).step = .next e' ∧ e'.blkidx = e'.nblk) ∧
    (∃ e', (at_ .chain 0 .block).step = .next e') ∧ (∃ e', (at_ .enc 0 .encode).step = .next e') :=
  ⟨⟨_, Engine.step_pad_hash rfl rfl⟩, ⟨_, Engine.step_pad_pad rfl rfl⟩, ⟨_, Engine.step_init_hash rfl rfl⟩,
    ⟨_, Engine.step_init_init rfl rfl⟩, ⟨_, Engine.step_load rfl⟩, ⟨_, Engine.step_exp 46 (by decide) rfl⟩,
    ⟨_, Engine.step_exp_last 47 rfl rfl⟩, ⟨_, Engine.step_rnd 62 (by decide) rfl⟩, ⟨_, Engine.step_rnd_last 63 rfl rfl⟩,
    ⟨_, Engine.step_chain_more rfl rfl (by decide), by decide⟩, ⟨_, Engine.step_chain_last rfl rfl (by decide), by decide⟩,
    ⟨_, Engine.step_chain_block rfl rfl⟩, ⟨_, Engine.step_enc rfl⟩⟩

/-- H changes at INIT, the flags' registers at PAD. -/
theorem witness_EachRegisterHasItsWriters : (∃ e', (at_ .init 0 .init).step = .next e' ∧ e'.h ≠ (at_ .init 0 .init).h) ∧
    (∃ e', (at_ .pad 0 .pad).step = .next e' ∧ e'.nblk ≠ (at_ .pad 0 .pad).nblk ∧ e'.padbuf ≠ (at_ .pad 0 .pad).padbuf) ∧
    (∃ e', (at_ .chain 0 .block).step = .next e' ∧ e'.blkidx ≠ (at_ .chain 0 .block).blkidx) :=
  ⟨⟨_, Engine.step_init_init rfl rfl, by decide⟩, ⟨_, Engine.step_pad_pad rfl rfl, by decide, by decide⟩,
    ⟨_, Engine.step_chain_block rfl rfl, by decide⟩⟩

/-- The invariant of an engine without blocks whose other parts are plain. -/
theorem inv_of_plain {e : Engine} (hc : e.cfg.wf = true) (hm : e.msg = []) (hp : e.padbuf = []) (hn : e.nblk = 0)
    (hb : e.blkidx = 0) (hi : ¬ e.inBlock) (hs : e.seqLegal) (hin : e.inputInvalid = false)
    (hf : e.busy = true → e.done = false ∧ e.err = .none) (he : e.err = .none) : e.Inv where
  cfg_wf := hc
  msg_wf := by rw [hm]; exact .nil
  msg_within := by rw [hm]; intro c h; cases h
  padbuf_wf := by rw [hp]; exact .nil
  padbuf_within := by rw [hp]; intro c h; cases h
  padbuf_held := by rw [hn]; intro i h; exact absurd h (Nat.not_lt_zero i)
  nblk_fits := by rw [hn]; exact Nat.zero_le _
  blkidx_le := by rw [hb]; exact Nat.zero_le _
  block_held := fun h => absurd h hi
  seq_legal := hs
  input_held := fun _ => hin
  busy_flags := hf
  err_raised := .inl he
  err_done := fun h => absurd he h

theorem reset_engine_inv : fresh.Inv :=
  inv_of_plain (by decide) rfl rfl rfl rfl (by simp [Engine.inBlock, fresh, State.reset, Engine.resetWith, Seq.idle]) ⟨rfl, rfl⟩
    (by decide) (by decide) rfl

theorem hash_started_inv : hashStarted.toEngine.Inv :=
  inv_of_plain (by decide) rfl rfl rfl rfl
    (by simp [Engine.inBlock, hashStarted, State.setEngine, Engine.start, Engine.setSeq]) ⟨.inl rfl, rfl⟩
    (by decide) (by decide) rfl

theorem witness_RoundConstantsAreTheTable :
    ((List.range 312).filter fun p => 2 ≤ p && (List.range p).all fun d => d ≤ 1 || p % d != 0)[(63 : Fin 64).val]? =
      some 311 := by decide +kernel

theorem witness_EveryBusyEngineFinishes : hashStarted.toEngine.Inv ∧ hashStarted.toEngine.busy = true :=
  ⟨hash_started_inv, rfl⟩

theorem witness_NopChangesNothing : State.reset.cfg.wf = true ∧ busyMachine.cfg.wf = true ∧
    (0x00000100#32).extractLsb' 0 8 = 0#8 ∧ 0x00000100#32 ≠ 0 ∧ (0xffffff00#32).extractLsb' 0 8 = 0#8 := by decide

theorem witness_HashComputesTheDigest : State.reset.busy = false ∧ State.reset.inputInvalid = false ∧
    (withEngine (fresh.setMsgLen 4096)).busy = false ∧ (withEngine (fresh.setMsgLen 4096)).inputInvalid = false ∧
    (withEngine (fresh.setMsgLen 4097)).busy = false ∧ (withEngine (fresh.setMsgLen 4097)).inputInvalid = true := by decide

theorem witness_InitLoadsTheInitialValues : State.reset.busy = false := rfl

theorem witness_PadBuildsThePaddedMessage : State.reset.busy = false ∧ State.reset.inputInvalid = false ∧
    (withEngine (twoByte.setMsgLen 8191)).busy = false ∧ (withEngine (twoByte.setMsgLen 8191)).inputInvalid = false ∧
    (withEngine (twoByte.setMsgLen 8192)).busy = false ∧ (withEngine (twoByte.setMsgLen 8192)).inputInvalid = true := by decide

theorem witness_BlockCompressesOneBlock : oneBlockLeft.busy = false ∧ oneBlockLeft.blkidx.toNat < oneBlockLeft.nblk.toNat ∧
    State.reset.busy = false ∧ State.reset.nblk.toNat ≤ State.reset.blkidx.toNat := by decide

theorem witness_EncodeRendersTheChainingValue : State.reset.busy = false := rfl

theorem witness_WritesWhileBusyAreIgnored : busyMachine.busy = true ∧ admitted busyMachine.cfg 0x004 4 = true ∧
    admitted busyMachine.cfg 0x00C 4 = true ∧ admitted busyMachine.cfg 0x1000 1 = true ∧
    admitted busyMachine.cfg 0x1FFC 4 = true ∧ admitted busyMachine.cfg 0x1FFF 1 = true ∧ busyMachine.cfg.msgCap = 0x1000 := by decide

/-- Each clause at its boundary: 4096 and 4097 bytes, 8191 and 8192 with the 2-byte trailer, a block left and none. -/
theorem witness_CheckFollowsThePriorityOrder : ¬ fresh.cfg.msgCap < (fresh.setMsgLen 4096).msgLen.toNat ∧
    fresh.cfg.msgCap < (fresh.setMsgLen 4097).msgLen.toNat ∧ twoByte.cfg.lenField = .two ∧
    ¬ 65535 < 8 * (twoByte.setMsgLen 8191).msgLen.toNat ∧ 65535 < 8 * (twoByte.setMsgLen 8192).msgLen.toNat ∧
    fresh.nblk.toNat ≤ fresh.blkidx.toNat ∧ (fresh.setBlocks 2 1).blkidx.toNat < (fresh.setBlocks 2 1).nblk.toNat := by decide

theorem witness_StepwiseCommandsEqualHash : State.reset.busy = false ∧ State.reset.inputInvalid = false := by decide

/-- A HASH runs to its end on a machine whose host has no program. -/
theorem witness_HashIsRightUnderEveryInterleaving : ∃ (u : State) (k : Nat),
    State.reset.busy = false ∧ State.reset.inputInvalid = false ∧
    hashStarted.toEngine = { State.reset.toEngine with done := false, err := .none, cur := .hash, seq := ⟨.pad, 0⟩ } ∧
    hashStarted.noResetListed ∧ Runs (fun x => x.busy = true) k hashStarted u ∧ u.busy = false := by
  obtain ⟨p, n, _, _, _, _, _, h⟩ := Engine.run_hash State.reset.toEngine (by decide)
  obtain ⟨k, hk⟩ := Runs.of_run (s := hashStarted) _ rfl rfl h rfl
  exact ⟨_, k, rfl, by decide, rfl, List.not_mem_nil, hk, rfl⟩

theorem witness_HashDependsOnTheMessageAlone : ∃ (t : State) (a b : Engine), State.reset.busy = false ∧ t.busy = false ∧
    State.reset.inputInvalid = false ∧ t.inputInvalid = false ∧ State.reset.cfg.lenField = t.cfg.lenField ∧
    State.reset.toEngine.message = t.toEngine.message ∧ perform .hash State.reset = .next a ∧ perform .hash t = .next b ∧
    t.toEngine ≠ State.reset.toEngine := by
  have key : ∀ s : State, s.busy = false → s.inputInvalid = false → ∃ a, perform .hash s = .next a := by
    intro s hb hi
    obtain ⟨p, n, _, _, hm, _, _, h⟩ := Engine.run_hash s.toEngine hi
    rw [perform_hash hb hi, hm, show 3 + 114 * (n + 1) = 1 + (1 + ((n + 1) * (113 + 1) + 1)) by omega, h]
    exact ⟨_, rfl⟩
  obtain ⟨a, ha⟩ := key State.reset rfl (by decide)
  obtain ⟨b, hb⟩ := key oneBlockLeft rfl (by decide)
  exact ⟨oneBlockLeft, a, b, rfl, rfl, by decide, by decide, rfl, rfl, ha, hb, fun h => absurd (congrArg Engine.nblk h) (by decide)⟩

/-- Each kind of refused access, at the ends of the ranges, by a write and by a read. -/
theorem witness_RefusedAccessesChangeNothing : State.reset.cfg.wf = true ∧ ((2 : Nat) ≠ 1 ∧ (2 : Nat) ≠ 4) ∧ 0x002 % 4 ≠ 0 ∧
    (0x03F ≤ 0x03F ∧ 0x080 ≤ 0x080 ∧ 0x080 ≤ 0xFFF ∧ 0xFFF ≤ 0xFFF) ∧ 2 ^ State.reset.cfg.addrW ≤ 0x10000 ∧
    (withStmt State.reset (.write 0x1000 2 5)).host.prog[(withStmt State.reset (.write 0x1000 2 5)).host.pc]? =
      some (.write 0x1000 2 5) ∧
    (withStmt busyMachine (.read 0x03F 1 0)).host.prog[(withStmt busyMachine (.read 0x03F 1 0)).host.pc]? =
      some (.read 0x03F 1 0) :=
  ⟨by decide, by decide, by decide, by decide, by decide, rfl, rfl⟩

theorem witness_ReadOnlyRegistersReadAsMapped : State.reset.cfg.wf = true ∧ busyMachine.cfg.wf = true ∧
    State.reset.busy = false ∧ busyMachine.busy = true ∧ 0x03C % 4 = 0 ∧ 0x09C % 4 = 0 := by decide

theorem witness_StatusShowsBusyDoneErr : (State.reset.cfg.wf = true ∧ hashStarted.cfg.wf = true ∧ hashStarted.toEngine.Inv ∧
    hashStarted.busy = true) ∧ ∀ c ∈ [ErrCode.none, .invalidInput, .illegalCommand, .noBlock],
      (fresh.setFlags true c).busy = false ∧ (fresh.setFlags true c).done = true ∧ (fresh.setFlags true c).err = c :=
  ⟨⟨by decide, by decide, hash_started_inv, rfl⟩, fun _ _ => ⟨rfl, rfl, rfl⟩⟩

theorem witness_MsgLenReadsBackEveryValue : State.reset.cfg.wf = true ∧ State.reset.busy = false ∧ busyMachine.cfg.wf = true ∧
    busyMachine.busy = true := by decide

theorem witness_CmdIssuesAndReadsZero : State.reset.cfg.wf = true ∧ State.reset.busy = false ∧ busyMachine.cfg.wf = true ∧
    busyMachine.busy = true ∧ decode 0x00000005 = .ok .encode ∧ ∃ x, decode 0x00000006 = .error x :=
  ⟨by decide, rfl, by decide, rfl, rfl, _, rfl⟩

theorem witness_HexWindowReadsTheDigestString : State.reset.cfg.wf = true ∧ State.reset.busy = false ∧
    busyMachine.cfg.wf = true ∧ busyMachine.busy = true := by decide

theorem witness_MsgWindowStoresExactlyItsBytes : State.reset.cfg.wf = true ∧ State.reset.busy = false ∧
    busyMachine.cfg.wf = true ∧ busyMachine.busy = true ∧ busyMachine.cfg.msgCap = 4096 ∧
    0 < State.reset.cfg.msgCap ∧ 4095 < State.reset.cfg.msgCap ∧ 4092 < State.reset.cfg.msgCap ∧ 4092 % 4 = 0 := by decide

theorem witness_ReservedOffsetsReadZeroIgnoreWrites : State.reset.cfg.wf = true ∧ State.reset.cfg.msgCap = 0x1000 ∧
    admitted State.reset.cfg 0x0A0 4 = true ∧ admitted State.reset.cfg 0xFFC 4 = true ∧
    admitted State.reset.cfg 0x2000 1 = true ∧ admitted State.reset.cfg 0xFFFF 1 = true ∧
    admitted State.reset.cfg 0xFFFC 4 = true := by decide

theorem witness_ReadsHaveNoSideEffect : (∃ t, hostStep (withStmt busyMachine (.read 0x010 4 0)) = .next t) ∧
    (withStmt busyMachine (.read 0x010 4 0)).host.prog[(withStmt busyMachine (.read 0x010 4 0)).host.pc]? =
      some (.read 0x010 4 0) ∧ fresh.busy = false ∧ 0x00C ≤ 0x00C ∧ 0x0A0 ≤ 0x0A0 :=
  ⟨⟨_, rfl⟩, rfl, rfl, Nat.le_refl _, Nat.le_refl _⟩

theorem witness_ResultsStayUntilTheNextCommand : (∃ t, hostStep (withStmt State.reset (.write 0x1000 1 5)) = .next t) ∧
    (∀ v n, (withStmt State.reset (.write 0x1000 1 5)).host.prog[(withStmt State.reset (.write 0x1000 1 5)).host.pc]? ≠
      some (.write 0x004 n v)) ∧ State.reset.busy = false := by
  refine ⟨?_, ?_, rfl⟩
  · obtain ⟨t, ht, _⟩ := hostStep_cases (withStmt State.reset (.write 0x1000 1 5))
    exact ⟨t, ht⟩
  · intro v n h
    have h' : HostStmt.write 0x1000 1 5 = .write 0x004 n v := Option.some.inj h
    injection h' with h1
    exact absurd h1 (by decide)

theorem witness_HostWritesMakeTheirTransactions :
    (withStmt State.reset (.write 0x1FFC 4 5)).host.prog[(withStmt State.reset (.write 0x1FFC 4 5)).host.pc]? =
      some (.write 0x1FFC 4 5) ∧ admitted (withStmt State.reset (.write 0x1FFC 4 5)).cfg 0x1FFC 4 = true :=
  ⟨rfl, by decide⟩

theorem witness_HostStatementsRunOnTheHostAlone :
    (withStmt State.reset (.read 0x008 4 3)).host.prog[(withStmt State.reset (.read 0x008 4 3)).host.pc]? =
      some (.read 0x008 4 3) ∧
    (∃ v, (withStmt State.reset (.read 0x008 4 3)).toEngine.memRead
      (Config.freeRead (withStmt State.reset (.read 0x008 4 3)).draws) 0x008 4 = .ok v) ∧ (0 : Nat) ≠ 3 ∧
    (withStmt State.reset (.bnz 0 1 0)).host.prog[(withStmt State.reset (.bnz 0 1 0)).host.pc]? = some (.bnz 0 1 0) ∧
    State.reset.hostReady = false :=
  ⟨rfl, ⟨_, Engine.memRead_word (by decide) _⟩, by decide, rfl, rfl⟩

theorem witness_LoadMsgWritesTheMessage : State.reset.cfg.wf = true ∧ State.reset.busy = false ∧
    ([] : List Byte).length ≤ State.reset.cfg.msgCap ∧ (List.replicate 4096 (0 : Byte)).length ≤ State.reset.cfg.msgCap :=
  ⟨by decide, rfl, by decide, by rw [List.length_replicate]; decide⟩

theorem witness_StepRunsTheDecodedCommand : State.reset.cfg.wf = true ∧ decode 0x00000001 = .ok .hash ∧
    ∃ t, (State.reset.withFetchWord 32 1).nextMove = (.host, t) ∧ t.cfg.wf = true ∧
      t.host.prog[t.host.pc]? = some (.write 0x004 4 0x00000001) :=
  ⟨by decide, rfl, _, rfl, by decide, rfl⟩

/-- A machine for each clause. -/
theorem witness_EachTurnMovesItsAgent :
    ((withStmt State.reset (.bnz 0 0 0)).setTurns [.host]).hostReady = true ∧ (busyMachine.setTurns [.engine]).busy = true ∧
    ((withStmt busyMachine (.bnz 0 0 0)).turns = [] ∧ (withStmt busyMachine (.bnz 0 0 0)).hostReady = true ∧
      (withStmt busyMachine (.bnz 0 0 0)).busy = true) ∧
    (State.reset.setTurns [.host]).hostReady = false ∧ (State.reset.setTurns [.engine]).busy = false ∧
    ((withStmt State.reset (.bnz 0 0 0)).turns = [] ∧ (withStmt State.reset (.bnz 0 0 0)).hostReady = true ∧
      (withStmt State.reset (.bnz 0 0 0)).busy = false) ∧
    (busyMachine.turns = [] ∧ busyMachine.hostReady = false ∧ busyMachine.busy = true) ∧
    (State.reset.turns = [] ∧ State.reset.hostReady = false ∧ State.reset.busy = false) := by decide

theorem witness_ResetInputSetsEveryRegister : (busyMachine.setTurns [.reset]).turns = .reset :: [] := rfl

theorem witness_EveryStepKeepsTheInvariant : hashStarted.Inv ∧ ∃ t, step hashStarted = .next t :=
  ⟨⟨hash_started_inv, .nil⟩, _, step_engine_alone rfl rfl rfl (Engine.step_pad_hash rfl rfl)⟩

theorem witness_StepNeverStops : State.reset.Inv ∧ hashStarted.Inv := ⟨⟨reset_engine_inv, .nil⟩, ⟨hash_started_inv, .nil⟩⟩

theorem witness_UnreachableCodesAreNeverRaised : hashStarted.err.raised ∧ ∃ t, step hashStarted = .next t :=
  ⟨.inl rfl, _, step_engine_alone rfl rfl rfl (Engine.step_pad_hash rfl rfl)⟩

theorem witness_NothingWritesTheBuild : ∃ t, step hashStarted = .next t :=
  ⟨_, step_engine_alone rfl rfl rfl (Engine.step_pad_hash rfl rfl)⟩

theorem witness_HostCannotDisturbARunningCommand : hashStarted.busy = true ∧ (∃ t, engineStep hashStarted = .next t) ∧
    (withStmt hashStarted (.write 0x1000 2 5)).busy = true ∧ ∃ t, hostStep (withStmt hashStarted (.write 0x1000 2 5)) = .next t := by
  refine ⟨rfl, ?_, rfl, ?_⟩
  · have h : hashStarted.toEngine.step = .next (hashStarted.toEngine.padStep.setSeq ⟨.init, 0⟩) :=
      Engine.step_pad_hash rfl rfl
    exact ⟨_, by rw [engineStep, h]⟩
  · obtain ⟨t, ht, _⟩ := hostStep_cases (withStmt hashStarted (.write 0x1000 2 5))
    exact ⟨t, ht⟩

end Sys2Proof.Tests
end

/-! SUPPORT. Which agent the machine's step moves: the choice case by case, and the step that follows from it. -/

namespace Sys2Proof.Machine

variable {s t : State} {rest : List Turn}

/-! ### The chosen move decides the step -/

theorem step_of_nextMove_host (h : s.nextMove = (.host, t)) : step s = hostStep t := by
  simp only [step, machineStep, h]

theorem step_of_nextMove_engine (h : s.nextMove = (.engine, t)) : step s = engineStep t := by
  simp only [step, machineStep, h]

theorem step_of_nextMove_quiet (h : s.nextMove = (.quiet, t)) : step s = .next t := by
  simp only [step, machineStep, h]

/-! ### The choice, case by case -/

theorem State.nextMove_host_turn (h : s.turns = .host :: rest) :
    s.nextMove = (if s.hostReady then .host else .quiet, s.setTurns rest) := by
  simp only [State.nextMove, h]

theorem State.nextMove_engine_turn (h : s.turns = .engine :: rest) :
    s.nextMove = (if s.busy then .engine else .quiet, s.setTurns rest) := by
  simp only [State.nextMove, h]

/-- Between two agents with a step the free value `Config.freeAgent` decides, and the counter of draws advances (R9, 93
U10). -/
theorem State.nextMove_both_ready (h : s.turns = []) (hh : s.hostReady = true) (hb : s.busy = true) :
    s.nextMove = (.host, s.setTicks (s.ticks + 1)) ∨ s.nextMove = (.engine, s.setTicks (s.ticks + 1)) := by
  cases ha : Config.freeAgent s.ticks with
  | host => left; simp [State.nextMove, h, hh, hb, ha]
  | engine => right; simp [State.nextMove, h, hh, hb, ha]

/-- With no turn listed and an agent without a step there is no draw. -/
theorem State.nextMove_no_draw (h : s.turns = []) (hn : (s.hostReady && s.busy) = false) :
    s.nextMove = (if s.hostReady then .host else if s.busy then .engine else .quiet, s) := by
  simp only [State.nextMove, h, hn]
  cases s.hostReady <;> cases s.busy <;> rfl

/-! ### The statement -/

/-- Settles O50: in each case of the scheduling the choice is known, and the step is the chosen agent's. -/
theorem eachTurnMovesItsAgent : Obligations.EachTurnMovesItsAgent := by
  intro s rest
  refine ⟨fun ht hh => ?_, fun ht hb => ?_, fun ht hh => ?_, fun ht hb => ?_, fun ht hh hb => ?_,
    fun ht hh hb => ?_, fun ht hh hb => ?_, fun ht hh hb => ?_⟩
  · exact step_of_nextMove_host (by rw [State.nextMove_host_turn ht, hh]; rfl)
  · exact step_of_nextMove_engine (by rw [State.nextMove_engine_turn ht, hb]; rfl)
  · exact step_of_nextMove_quiet (by rw [State.nextMove_host_turn ht, hh]; rfl)
  · exact step_of_nextMove_quiet (by rw [State.nextMove_engine_turn ht, hb]; rfl)
  · exact (State.nextMove_both_ready ht hh hb).imp step_of_nextMove_host step_of_nextMove_engine
  · exact step_of_nextMove_host (by simp [State.nextMove_no_draw ht, hh, hb])
  · exact step_of_nextMove_engine (by simp [State.nextMove_no_draw ht, hh, hb])
  · exact step_of_nextMove_quiet (by simp [State.nextMove_no_draw ht, hh, hb])

end Sys2Proof.Machine

/-! SUPPORT. What one step of the machine, whoever makes it, can leave of the engine: the engine's own step register by
register, a host step as one of five effects, and the step of the machine as the step of one agent. -/

namespace Sys2Proof.Machine

variable {e e' d : Engine} {s t : State}

/-! ### The engine's own step -/

/-- The PAD micro-step writes PADBUF, NBLK and BLKIDX alone (10 R25 to R27). -/
theorem Engine.padStep_frame (e : Engine) :
    e.padStep.h = e.h ∧ e.padStep.wv = e.wv ∧ e.padStep.w = e.w ∧ e.padStep.hex = e.hex := by
  unfold Engine.padStep
  split <;> exact ⟨rfl, rfl, rfl, rfl⟩

/-- The phases whose micro-step writes each register (10 R20 to R28). -/
theorem Engine.microStep_writers (h : e.microStep = .next d) :
    (d.h ≠ e.h → e.seq.phase = .init ∨ e.seq.phase = .chain) ∧
    (d.wv ≠ e.wv → e.seq.phase = .load ∨ e.seq.phase = .rnd) ∧
    (d.w ≠ e.w → e.seq.phase = .load ∨ e.seq.phase = .exp) ∧
    (d.padbuf ≠ e.padbuf → e.seq.phase = .pad) ∧ (d.nblk ≠ e.nblk → e.seq.phase = .pad) ∧
    (d.blkidx ≠ e.blkidx → e.seq.phase = .pad ∨ e.seq.phase = .chain) ∧
    (d.hex ≠ e.hex → e.seq.phase = .enc) := by
  rcases Engine.microStep_cases h with ⟨hp, rfl⟩ | ⟨hp, rfl⟩ | ⟨hp, rfl⟩ | ⟨hp, rfl⟩ | ⟨hp, _, rfl⟩ | ⟨hp, rfl⟩ |
    ⟨hp, rfl⟩ | ⟨hp, rfl⟩
  case inr.inl =>
    obtain ⟨hh, hwv, hw, hhex⟩ := e.padStep_frame
    simp [hp, hh, hwv, hw, hhex]
  all_goals simp [hp]

/-- A step leaves every register but DONE, seq and CUR as its micro-step left it. -/
theorem Engine.step_registers (h : e.step = .next e') :
    ∃ d, e.microStep = .next d ∧ e' = { d with done := e'.done, seq := e'.seq, cur := e'.cur } := by
  rcases Engine.step_cases h with ⟨hb, rfl⟩ | ⟨_, d, hm, ⟨q, _, rfl⟩ | ⟨_, rfl⟩⟩
  · exact ⟨e', by simp [Engine.microStep, (Engine.busy_eq_false e').1 hb], rfl⟩
  · exact ⟨d, hm, rfl⟩
  · exact ⟨d, hm, rfl⟩

/-- No engine step writes MSG, MSG_LEN, ERR, the build or the epoch (10 R29, R36, R53). -/
theorem Engine.step_frame (h : e.step = .next e') :
    e'.msg = e.msg ∧ e'.msgLen = e.msgLen ∧ e'.err = e.err ∧ e'.cfg = e.cfg ∧ e'.epoch = e.epoch := by
  obtain ⟨d, hm, he⟩ := Engine.step_registers h
  obtain ⟨-, -, hmsg, hlen, -, herr, hcfg, hepoch⟩ := Engine.microStep_frame hm
  rw [he]
  exact ⟨hmsg, hlen, herr, hcfg, hepoch⟩

/-- Settles O21: seq's move writes none of these registers, so a step's writers are those of its micro-step. -/
theorem eachRegisterHasItsWriters : Obligations.EachRegisterHasItsWriters := by
  intro e e' h
  obtain ⟨d, hm, he⟩ := Engine.step_registers h
  obtain ⟨hh, hwv, hw, hpadbuf, hnblk, hblkidx, hhex⟩ := Engine.microStep_writers hm
  have hframe := Engine.step_frame h
  rw [he] at hframe ⊢
  exact ⟨hh, hwv, hw, hpadbuf, hnblk, hblkidx, hhex, hframe⟩

/-! ### A host step -/

/-- The host's next statement is a write to CMD. -/
def State.writesCmd (s : State) : Prop := ∃ v n, s.host.prog[s.host.pc]? = some (.write offCmd n v)

/-- What a host step can make of the engine e (20 R67, R70, 44 R200). Only where it writes CMD can it start a command or
raise an error, and only an idle engine changes. -/
inductive Engine.HostEffect (e : Engine) (writesCmd : Prop) : Engine → Prop where
  | unchanged : HostEffect e writesCmd e
  | msgLen (idle : e.busy = false) (v : Word) : HostEffect e writesCmd (e.setMsgLen v)
  | msg (idle : e.busy = false) (i n : Nat) (v : Word) (inside : e.cfg.wf = true → i + n ≤ e.cfg.msgCap) :
      HostEffect e writesCmd (e.setMsg (Cells.write e.msg i (laneBytes n v)))
  | start (idle : e.busy = false) (cmd : writesCmd) (i : Instr) (real : i ≠ .nop) (pass : e.check (some i) = .none) :
      HostEffect e writesCmd (e.clearFlags.start (Instr.cur i) (firstPhase i))
  | raise (idle : e.busy = false) (cmd : writesCmd) (o : Option Instr) (fail : e.check o ≠ .none) :
      HostEffect e writesCmd (e.clearFlags.raise o (e.check o))

/-- An admitted access that begins in the MSG window of an admitted build ends in it: MSG_CAP and the offset of a 32-bit
access are multiples of 4 (00 R7, 20 R64). -/
theorem admitted_inside_msg {c : Config} {a n : Nat} (hc : c.wf = true) (ha : admitted c a n = true) (lo : 0x1000 ≤ a)
    (hi : a < 0x1000 + c.msgCap) : a - offMsg + n ≤ c.msgCap := by
  obtain ⟨_, _, hcap, _⟩ := Config.wf_bounds hc
  have hw := ((admitted_iff c a n).1 ha).2
  simp only [offMsg]
  omega

theorem hostStep_effect (h : hostStep s = .next t) : s.toEngine.HostEffect s.writesCmd t.toEngine := by
  obtain ⟨t', ht', -, -, -, heq⟩ := hostStep_cases s
  obtain rfl : t' = t := Host.Outcome.next.inj (ht'.symm.trans h)
  rcases heq with heq | ⟨a, n, v, hstmt, ha, _, hw, rfl⟩
  · rw [heq]
    exact .unchanged
  · rcases memWrite_cases (s := s.hostAck) ha v with h1 | ⟨hb, rfl, h1⟩ | ⟨hb, rfl, h1⟩ | ⟨hb, lo, hi, h1⟩
    · obtain rfl := Host.Outcome.next.inj (hw.symm.trans h1)
      exact .unchanged
    · obtain ⟨e, he, hcases⟩ := issueCommand_cases v s.hostAck
      obtain rfl := Host.Outcome.next.inj (hw.symm.trans (h1.trans he))
      rcases hcases with rfl | ⟨_, i, real, pass, rfl⟩ | ⟨_, o, fail, rfl⟩
      · exact .unchanged
      · exact .start hb ⟨v, n, hstmt⟩ i real pass
      · exact .raise hb ⟨v, n, hstmt⟩ o fail
    · obtain rfl := Host.Outcome.next.inj (hw.symm.trans h1)
      exact .msgLen hb v
    · obtain rfl := Host.Outcome.next.inj (hw.symm.trans h1)
      exact .msg hb _ n v fun hc => admitted_inside_msg hc ha lo hi

/-- The neutral result of an error is the empty buffer or nothing (60 R272). -/
theorem Engine.neutral_cases (e : Engine) (o : Option Instr) (c : ErrCode) :
    e.neutral o c = e.emptyBuffer ∨ e.neutral o c = e := by
  unfold Engine.neutral
  split
  · exact .inl rfl
  · exact .inl rfl
  · exact .inr rfl

/-- No host step writes the build (10 R53). -/
theorem Engine.HostEffect.cfg_eq {p : Prop} (h : e.HostEffect p e') : e'.cfg = e.cfg := by
  cases h with
  | unchanged | msgLen | msg | start => rfl
  | raise _ _ o _ => rcases e.clearFlags.neutral_cases o (e.check o) with hn | hn <;> simp [Engine.raise, hn]

/-- A host step that writes no command changes MSG and MSG_LEN at most (20 R71). -/
theorem Engine.HostEffect.of_no_command {p : Prop} (h : e.HostEffect p e') (hp : ¬ p) :
    e' = { e with msg := e'.msg, msgLen := e'.msgLen } := by
  cases h with
  | unchanged | msgLen | msg => rfl
  | start _ cmd | raise _ cmd => exact absurd cmd hp

/-! ### Engine and machine -/

theorem engineStep_next (h : engineStep s = .next t) : ∃ e, s.toEngine.step = .next e ∧ t = s.setEngine e := by
  unfold engineStep at h
  split at h
  · exact ⟨_, ‹_›, (Host.Outcome.next.inj h).symm⟩
  · cases h
  · cases h

theorem engineStep_idle (hb : s.busy = false) : engineStep s = .next s := by
  rw [engineStep, Engine.step_idle hb]
  rfl

/-- A step of the machine is one agent's step, the reset input, or nothing, from a state u that differs from s in the
environment's choices only. -/
theorem step_next_cases (h : step s = .next t) :
    ∃ u : State, u.toEngine = s.toEngine ∧ u.host = s.host ∧
      (hostStep u = .next t ∨ engineStep u = .next t ∨ t = u.resetInput ∨ t = u) := by
  obtain ⟨m, u, hm⟩ : ∃ m u, s.nextMove = (m, u) := ⟨_, _, rfl⟩
  obtain ⟨he, hh, -⟩ := State.nextMove_frame hm
  simp only [step, machineStep, hm] at h
  refine ⟨u, he, hh, ?_⟩
  cases m with
  | host => exact .inl h
  | engine => exact .inr (.inl h)
  | reset => exact .inr (.inr (.inl (Host.Outcome.next.inj h).symm))
  | quiet => exact .inr (.inr (.inr (Host.Outcome.next.inj h).symm))

/-- Settles O57: no agent writes the build, and the reset input keeps it. -/
theorem nothingWritesTheBuild : Obligations.NothingWritesTheBuild := by
  intro s t h
  obtain ⟨u, hu, -, h | h | rfl | rfl⟩ := step_next_cases h <;> rw [← hu]
  · exact (hostStep_effect h).cfg_eq
  · obtain ⟨e, he, rfl⟩ := engineStep_next h
    obtain ⟨-, -, -, hcfg, -⟩ := Engine.step_frame he
    exact hcfg
  · rfl

/-- Settles O45: the engine changes by a host step only in MSG and MSG_LEN where no command is written, and idle it keeps
its state. -/
theorem resultsStayUntilTheNextCommand : Obligations.ResultsStayUntilTheNextCommand :=
  ⟨fun _ _ h hcmd => (hostStep_effect h).of_no_command fun ⟨v, n, hv⟩ => hcmd v n hv, fun _ => engineStep_idle⟩

end Sys2Proof.Machine

/-! SUPPORT. The invariant under every step of the machine: an idle engine under the host's writes and commands, the reset
values, and the host's variables. -/

namespace Sys2Proof.Machine

variable {e e' : Engine} {s t : State}

/-! ### An idle engine -/

theorem Engine.not_inBlock_of_idle (hb : e.busy = false) : ¬ e.inBlock := by
  simp [Engine.inBlock, (Engine.busy_eq_false e).1 hb]

/-- The codes that a check can answer (60 R260, R267). -/
theorem Engine.check_raised (e : Engine) (o : Option Instr) : (e.check o).raised := by
  unfold Engine.check
  split
  · exact .inr (.inr (.inl rfl))
  · split
    · exact .inr (.inl rfl)
    · exact .inl rfl
  · split
    · exact .inr (.inl rfl)
    · exact .inl rfl
  · split
    · exact .inr (.inr (.inr rfl))
    · exact .inl rfl
  all_goals exact .inl rfl

theorem Engine.Inv.setFlags (h : e.Inv) (hb : e.busy = false) {d : Bool} {c : ErrCode} (hc : c.raised)
    (hd : c ≠ .none → d = true) : (e.setFlags d c).Inv :=
  { h with
    busy_flags := fun hb' => absurd (hb.symm.trans hb') Bool.false_ne_true
    err_raised := hc
    err_done := hd }

theorem Engine.Inv.emptyBuffer (h : e.Inv) (hb : e.busy = false) : e.emptyBuffer.Inv :=
  { h with
    padbuf_held := fun _ hi => absurd hi (Nat.not_lt_zero _)
    nblk_fits := Nat.zero_le _
    blkidx_le := Nat.le_refl _
    block_held := fun hblk => absurd hblk (Engine.not_inBlock_of_idle hb) }

theorem Engine.Inv.setMsgLen (h : e.Inv) (hb : e.busy = false) (v : Word) : (e.setMsgLen v).Inv :=
  { h with
    input_held := fun hp => Phase.noConfusion (((Engine.busy_eq_false e).1 hb).symm.trans hp) }

theorem Engine.Inv.setMsg_write (h : e.Inv) (i n : Nat) (v : Word) (hi : i + n ≤ e.cfg.msgCap) :
    (e.setMsg (Cells.write e.msg i (laneBytes n v))).Inv :=
  { h with
    msg_wf := Cells.wf_write h.msg_wf _ _
    msg_within := Cells.within_write h.msg_within _ _ (by rwa [laneBytes_length]) }

/-! ### Commands -/

/-- A command other than NOP starts where R220 puts it, with its own CUR. -/
theorem Engine.start_seqLegal {i : Instr} (real : i ≠ .nop) :
    (e.clearFlags.start (Instr.cur i) (firstPhase i)).seqLegal := by
  cases i with
  | nop => exact absurd rfl real
  | hash => exact ⟨.inl rfl, rfl⟩
  | init | pad | block | encode => exact ⟨.inr rfl, rfl⟩

/-- BLOCK alone starts inside a block, and its check is R266's: a block is left. -/
theorem Engine.start_block_held {i : Instr} (pass : e.check (some i) = .none)
    (h : (e.clearFlags.start (Instr.cur i) (firstPhase i)).inBlock) : e.blkidx.toNat < e.nblk.toNat := by
  cases i with
  | block => simpa [Engine.check_block, Engine.noBlockLeft] using pass
  | nop | hash | init | pad | encode => simp [Engine.inBlock, firstPhase, Instr.cur, Seq.idle] at h

/-- HASH and PAD alone start at PAD, and their check is R267's of the Message. -/
theorem Engine.start_input_held {i : Instr} (pass : e.check (some i) = .none) (h : (firstPhase i).phase = .pad) :
    e.inputInvalid = false := by
  cases i with
  | hash => simpa [Engine.check_hash] using pass
  | pad => simpa [Engine.check_pad] using pass
  | nop | init | block | encode => cases h

theorem Engine.Inv.start (h : e.Inv) {i : Instr} (real : i ≠ .nop) (pass : e.check (some i) = .none) :
    (e.clearFlags.start (Instr.cur i) (firstPhase i)).Inv :=
  { h with
    block_held := Engine.start_block_held pass
    seq_legal := Engine.start_seqLegal real
    input_held := Engine.start_input_held pass
    busy_flags := fun _ => ⟨rfl, rfl⟩
    err_raised := .inl rfl
    err_done := fun hne => absurd rfl hne }

theorem Engine.Inv.raise (h : e.Inv) (hb : e.busy = false) (o : Option Instr) :
    (e.clearFlags.raise o (e.check o)).Inv := by
  have hclear : e.clearFlags.Inv := h.setFlags hb (.inl rfl) fun hne => absurd rfl hne
  have hraise : ∀ d : Engine, d.Inv → d.busy = false → (d.setFlags true (e.check o)).Inv :=
    fun d hd hdb => hd.setFlags hdb (e.check_raised o) fun _ => rfl
  rcases e.clearFlags.neutral_cases o (e.check o) with hn | hn <;> rw [Engine.raise, hn]
  · exact hraise _ (hclear.emptyBuffer hb) hb
  · exact hraise _ hclear hb

theorem Engine.Inv.of_hostEffect {p : Prop} (h : e.Inv) (hx : e.HostEffect p e') : e'.Inv := by
  cases hx with
  | unchanged => exact h
  | msgLen idle v => exact h.setMsgLen idle v
  | msg idle i n v inside => exact h.setMsg_write i n v (inside h.cfg_wf)
  | start idle cmd i real pass => exact h.start real pass
  | raise idle cmd o fail => exact h.raise idle o

/-! ### The engine and the reset input -/

theorem Engine.Inv.of_step (h : e.Inv) (hs : e.step = .next e') : e'.Inv := by
  cases hb : e.busy with
  | false =>
    obtain rfl := Host.Outcome.next.inj ((Engine.step_idle hb).symm.trans hs)
    exact h
  | true =>
    obtain ⟨d, hd, hinv, -⟩ := h.step_next hb
    obtain rfl := Host.Outcome.next.inj (hd.symm.trans hs)
    exact hinv

/-- The reset values meet the invariant in every admitted build (70 R290). -/
theorem Engine.inv_resetWith {c : Config} (hc : c.wf = true) (n : Nat) : (Engine.resetWith c n).Inv where
  cfg_wf := hc
  msg_wf := Cells.wf_nil
  msg_within := Cells.within_nil _
  padbuf_wf := Cells.wf_nil
  padbuf_within := Cells.within_nil _
  padbuf_held := fun _ hi => absurd hi (Nat.not_lt_zero _)
  nblk_fits := Nat.zero_le _
  blkidx_le := Nat.le_refl _
  block_held := fun hblk => absurd hblk (Engine.not_inBlock_of_idle rfl)
  seq_legal := ⟨rfl, rfl⟩
  input_held := fun hp => Phase.noConfusion hp
  busy_flags := fun _ => ⟨rfl, rfl⟩
  err_raised := .inl rfl
  err_done := fun hne => absurd rfl hne

/-! ### The machine -/

/-- A host step keeps the host's variables in canonical form. -/
theorem hostStep_vars_wf (h : hostStep s = .next t) (hv : Cells.wf s.host.vars) : Cells.wf t.host.vars := by
  obtain ⟨t', ht', -, -, hvars, -⟩ := hostStep_cases s
  obtain rfl : t' = t := Host.Outcome.next.inj (ht'.symm.trans h)
  exact hvars hv

/-- Settles O54: the invariant does not speak of the environment's choices, and each agent's step and the reset input
keep it. -/
theorem everyStepKeepsTheInvariant : Obligations.EveryStepKeepsTheInvariant := by
  intro s t hs h
  obtain ⟨u, hu, hhost, hstep⟩ := step_next_cases h
  have hinv : u.toEngine.Inv := hu ▸ hs.engine
  have hvars : Cells.wf u.host.vars := hhost ▸ hs.vars_wf
  rcases hstep with h | h | rfl | rfl
  · exact ⟨hinv.of_hostEffect (hostStep_effect h), hostStep_vars_wf h hvars⟩
  · obtain ⟨e, he, rfl⟩ := engineStep_next h
    exact ⟨hinv.of_step he, hvars⟩
  · exact ⟨Engine.inv_resetWith hinv.cfg_wf _, hvars⟩
  · exact ⟨hinv, hvars⟩

end Sys2Proof.Machine

/-! SUPPORT. The register map: what a read of each offset returns and what a write to it does (10_state section 4, 20_memory
R66 to R71), and the statements of the map, register by register. -/

namespace Sys2Proof.Machine

variable {c : Config} {e : Engine} {s : State} {a i n : Nat}

/-! ### Admitted accesses of an admitted build -/

/-- Every aligned 32-bit access below the MSG window is admitted (20 R63, R64). -/
theorem admitted_register (hc : c.wf = true) (ha : a < 0x1000) (h4 : a % 4 = 0) : admitted c a 4 = true := by
  obtain ⟨-, -, -, -, -, hspace, -⟩ := Config.wf_bounds hc
  exact (admitted_iff c a 4).2 ⟨by omega, .inl ⟨rfl, h4⟩⟩

/-- Every byte of the HEX window can be accessed (20 R65). -/
theorem admitted_hex_byte (hc : c.wf = true) (hi : i < 64) : admitted c (0x040 + i) 1 = true := by
  obtain ⟨-, -, -, -, -, hspace, -⟩ := Config.wf_bounds hc
  exact (admitted_iff c _ 1).2 ⟨by omega, .inr ⟨rfl, .inl ⟨by omega, by omega⟩⟩⟩

/-- Every byte of the MSG window can be accessed (20 R65). -/
theorem admitted_msg_byte (hc : c.wf = true) (hi : i < c.msgCap) : admitted c (offMsg + i) 1 = true := by
  obtain ⟨-, -, -, -, hcap, -⟩ := Config.wf_bounds hc
  exact (admitted_iff c _ 1).2 ⟨by simp only [offMsg]; omega, .inr ⟨rfl, .inr (Nat.le_add_right _ _)⟩⟩

theorem admitted_msg_word (hc : c.wf = true) (hi : i < c.msgCap) (h4 : i % 4 = 0) :
    admitted c (offMsg + i) 4 = true := by
  obtain ⟨-, -, -, -, hcap, -⟩ := Config.wf_bounds hc
  exact (admitted_iff c _ 4).2 ⟨by simp only [offMsg]; omega, .inl ⟨rfl, by simp only [offMsg]; omega⟩⟩

/-! ### Writes -/

/-- An admitted write to any offset but CMD, MSG_LEN and the MSG window changes nothing (20 R67). -/
theorem memWrite_ignored (ha : admitted s.cfg a n = true) (hcmd : a ≠ 0x004) (hlen : a ≠ 0x00C)
    (hmsg : a < 0x1000 ∨ 0x1000 + s.cfg.msgCap ≤ a) (v : Word) : memWrite s a n v = .next s := by
  rcases memWrite_cases ha v with h | ⟨-, rfl, -⟩ | ⟨-, rfl, -⟩ | ⟨-, lo, hi, -⟩
  · exact h
  · exact absurd rfl hcmd
  · exact absurd rfl hlen
  · omega

theorem memWrite_cmd (hc : s.cfg.wf = true) (hb : s.busy = false) (v : Word) :
    memWrite s 0x004 4 v = issueCommand v s := by
  have ha := admitted_register hc (a := 0x004) (by decide) (by decide)
  rw [memWrite, if_pos ha, hb, Bool.false_and, if_neg Bool.false_ne_true, if_pos rfl]

theorem memWrite_msgLen (hc : s.cfg.wf = true) (hb : s.busy = false) (v : Word) :
    memWrite s 0x00C 4 v = .next (s.setEngine (s.toEngine.setMsgLen v)) := by
  have ha := admitted_register hc (a := 0x00C) (by decide) (by decide)
  rw [memWrite, if_pos ha, hb, Bool.false_and, if_neg Bool.false_ne_true, if_neg (show ¬ 0x00C = offCmd by decide),
    if_pos rfl]

/-! ### 32-bit reads of the registers -/

/-- A read of a register below the MSG window answers the map's word. -/
theorem Engine.memRead_register (hc : e.cfg.wf = true) (ha : a < 0x1000) (h4 : a % 4 = 0) (d : Word) :
    e.memRead d a 4 = .ok (e.readWord d a) :=
  Engine.memRead_word (admitted_register hc ha h4) d

theorem Engine.settled_idle (hb : e.busy = false) (d v : Word) : e.settled d v = v := by
  simp [Engine.settled, hb]

theorem fileWord_eq_get (s : HashState) (base : Nat) (k : Fin 8) : fileWord s base (base + 4 * k.val) = s.get k := by
  unfold fileWord
  congr 1
  apply Fin.ext
  simp only
  omega

theorem HashState.get_zero (k : Fin 8) : HashState.zero.get k = 0 := by
  match k with
  | 0 | 1 | 2 | 3 | 4 | 5 | 6 | 7 => rfl

/-- The map from DIGEST0 on, past the single registers. -/
theorem Engine.readWord_from_digest (d : Word) (lo : 0x020 ≤ a) :
    e.readWord d a =
      if a < 0x040 then e.settled d (fileWord e.h offDigest a)
      else if a < 0x080 then e.settled d
        (laneWord (e.windowByte d a) (e.windowByte d (a + 1)) (e.windowByte d (a + 2)) (e.windowByte d (a + 3)))
      else if a < 0x0A0 then e.settled d (fileWord e.wv offWv a)
      else if a < 0x1000 then 0
      else laneWord (e.windowByte d a) (e.windowByte d (a + 1)) (e.windowByte d (a + 2)) (e.windowByte d (a + 3)) := by
  have h : ∀ b, b < 0x020 → a ≠ b := fun b hb => by omega
  rw [Engine.readWord, if_neg (h offId (by decide)), if_neg (h offCmd (by decide)), if_neg (h offStatus (by decide)),
    if_neg (h offMsgLen (by decide)), if_neg (h offNblk (by decide)), if_neg (h offBlkidx (by decide)),
    if_neg (h offCaps (by decide)), if_neg (h offMsgCap (by decide))]

theorem Engine.readWord_digest (d : Word) (lo : 0x020 ≤ a) (hi : a < 0x040) :
    e.readWord d a = e.settled d (fileWord e.h offDigest a) := by
  rw [Engine.readWord_from_digest d lo, if_pos hi]

theorem Engine.readWord_hex (d : Word) (lo : 0x040 ≤ a) (hi : a < 0x080) :
    e.readWord d a = e.settled d
      (laneWord (e.windowByte d a) (e.windowByte d (a + 1)) (e.windowByte d (a + 2)) (e.windowByte d (a + 3))) := by
  rw [Engine.readWord_from_digest d (by omega), if_neg (by omega), if_pos hi]

theorem Engine.readWord_wv (d : Word) (lo : 0x080 ≤ a) (hi : a < 0x0A0) :
    e.readWord d a = e.settled d (fileWord e.wv offWv a) := by
  rw [Engine.readWord_from_digest d (by omega), if_neg (by omega), if_neg (by omega), if_pos hi]

theorem Engine.readWord_reserved (d : Word) (lo : 0x0A0 ≤ a) (hi : a < 0x1000) : e.readWord d a = 0 := by
  rw [Engine.readWord_from_digest d (by omega), if_neg (by omega), if_neg (by omega), if_neg (by omega), if_pos hi]

theorem Engine.readWord_window (d : Word) (lo : 0x1000 ≤ a) :
    e.readWord d a =
      laneWord (e.windowByte d a) (e.windowByte d (a + 1)) (e.windowByte d (a + 2)) (e.windowByte d (a + 3)) := by
  rw [Engine.readWord_from_digest d (by omega), if_neg (by omega), if_neg (by omega), if_neg (by omega),
    if_neg (by omega)]

/-! ### Bytes of the windows -/

theorem Engine.windowByte_hex (hb : e.busy = false) (d : Word) (hi : i < 64) :
    e.windowByte d (0x040 + i) = e.hex[i] := by
  have hlow : 0x040 + i < 0x1000 := by omega
  rw [Engine.windowByte, if_pos hlow, hb, if_neg Bool.false_ne_true, Nat.add_sub_cancel_left, List.getD_eq_getElem?_getD,
    List.getElem?_eq_getElem (by rwa [Vector.length_toList]), Option.getD_some, Vector.getElem_toList]

theorem Engine.windowByte_hex_busy (hb : e.busy = true) (d : Word) (hi : i < 64) :
    e.windowByte d (0x040 + i) = laneByte d 0 := by
  have hlow : 0x040 + i < 0x1000 := by omega
  rw [Engine.windowByte, if_pos hlow, hb, if_pos rfl]

theorem Engine.windowByte_msg (d : Word) (hi : i < e.cfg.msgCap) : e.windowByte d (offMsg + i) = e.msgByte i := by
  have hwin : inMsgWindow e.cfg (offMsg + i) = true := (inMsgWindow_iff _ _).2 (by simp only [offMsg]; omega)
  rw [Engine.windowByte, if_neg (Nat.not_lt.2 (Nat.le_add_right _ _)), if_pos hwin, Nat.add_sub_cancel_left]

theorem Engine.windowByte_above_msg (d : Word) (ha : 0x1000 + e.cfg.msgCap ≤ a) : e.windowByte d a = 0 := by
  have hwin : ¬ inMsgWindow e.cfg a = true := by
    rw [inMsgWindow_iff]
    omega
  rw [Engine.windowByte, if_neg (show ¬ a < 0x1000 by omega), if_neg hwin]

/-- Lane 0 of a zero-extended byte is the byte. -/
theorem laneByte_zeroExtend (b : Byte) : laneByte (b.zeroExtend 32) 0 = b :=
  (List.cons.inj (laneBytes_byte b)).1

/-! ### The read-only registers -/

/-- After reset NBLK, BLKIDX, DIGEST and WV read 0 (70 R290). -/
theorem readWord_reset (c : Config) (n : Nat) (d : Word) (h4 : a % 4 = 0)
    (ha : (0x010 ≤ a ∧ a < 0x018) ∨ (0x020 ≤ a ∧ a < 0x040) ∨ (0x080 ≤ a ∧ a < 0x0A0)) :
    (Engine.resetWith c n).readWord d a = 0 := by
  have hidle : (Engine.resetWith c n).busy = false := rfl
  rcases ha with ⟨lo, hi⟩ | ⟨lo, hi⟩ | ⟨lo, hi⟩
  · obtain rfl | rfl : a = 0x010 ∨ a = 0x014 := by omega
    · rfl
    · rfl
  · rw [Engine.readWord_digest d lo hi, Engine.settled_idle hidle]
    exact HashState.get_zero _
  · rw [Engine.readWord_wv d lo hi, Engine.settled_idle hidle]
    exact HashState.get_zero _

/-- CAPS as a number: LEN_FIELD_BYTES + 256 * ADDR_W (10 R46). -/
theorem capsWord_toNat (hc : c.wf = true) : (capsWord c).toNat = c.lenField.bytes + 256 * c.addrW := by
  obtain ⟨-, haddr, -⟩ := Config.wf_bounds hc
  have hlf := lenField_bytes_le c.lenField
  simp only [capsWord, BitVec.toNat_append, BitVec.toNat_ofNat, Nat.mod_eq_of_lt (show c.addrW < 2 ^ 8 by omega),
    Nat.mod_eq_of_lt (show c.lenField.bytes < 2 ^ 8 by omega)]
  rw [← Nat.shiftLeft_add_eq_or_of_lt (show c.lenField.bytes < 2 ^ 8 by omega)]
  rw [Nat.zero_mod, Nat.zero_shiftLeft, Nat.zero_or, Nat.shiftLeft_eq]
  omega

theorem msgCapWord_toNat (hc : c.wf = true) : (msgCapWord c).toNat = c.msgCap := by
  obtain ⟨-, -, -, -, hcap, -, hspace⟩ := Config.wf_bounds hc
  rw [msgCapWord, BitVec.toNat_ofNat, Nat.mod_eq_of_lt (by omega)]

/-- Settles O37: each register's row of the map, and the writes that the port ignores. -/
theorem readOnlyRegistersReadAsMapped : Obligations.ReadOnlyRegistersReadAsMapped := by
  intro s d v hc
  have hread : ∀ a, a < 0x1000 → a % 4 = 0 → s.toEngine.memRead d a 4 = .ok (s.toEngine.readWord d a) :=
    fun a ha h4 => Engine.memRead_register hc ha h4 d
  refine ⟨hread _ (by decide) (by decide), hread _ (by decide) (by decide), hread _ (by decide) (by decide),
    ⟨_, hread _ (by decide) (by decide), capsWord_toNat hc⟩, ⟨_, hread _ (by decide) (by decide), msgCapWord_toNat hc⟩,
    fun k => ?_, fun k => ?_, fun a h4 ha => ?_, fun a h4 ha => ?_⟩
  · rw [hread _ (by omega) (by omega), Engine.readWord_digest d (by omega) (by omega), fileWord_eq_get]
    rfl
  · rw [hread _ (by omega) (by omega), Engine.readWord_wv d (by omega) (by omega), fileWord_eq_get]
    rfl
  · exact memWrite_ignored (admitted_register hc (by omega) h4) (by omega) (by omega) (by omega) v
  · rw [Engine.memRead_register (e := .resetWith s.cfg s.epoch) hc (by omega) h4, readWord_reset _ _ _ h4 ha]

/-! ### The HEX window -/

/-- Settles O41: a byte of the window is HEX's or, with BUSY = 1, the draw's low byte; a word is four bytes or the draw. -/
theorem hexWindowReadsTheDigestString : Obligations.HexWindowReadsTheDigestString := by
  intro s d v hc
  refine ⟨fun i hb => ?_, fun j => ?_, fun i hb b => ⟨b.zeroExtend 32, ?_⟩, fun i => ?_, fun j => ?_, fun i => ?_⟩
  · rw [Engine.memRead_byte (admitted_hex_byte hc i.isLt), Engine.windowByte_hex hb d i.isLt]
    rfl
  · rw [Engine.memRead_register hc (by omega) (by omega), Engine.readWord_hex d (by omega) (by omega)]
    cases hb : s.busy with
    | true => simp [Engine.settled, hb]
    | false =>
      have hbyte : ∀ k, (hk : k < 64) → s.toEngine.windowByte d (0x040 + k) = s.hex[k] :=
        fun k hk => Engine.windowByte_hex hb d hk
      rw [Engine.settled_idle hb, Nat.add_assoc, Nat.add_assoc, Nat.add_assoc, hbyte _ (by omega), hbyte _ (by omega),
        hbyte _ (by omega), hbyte _ (by omega)]
      rfl
  · rw [Engine.memRead_byte (admitted_hex_byte hc i.isLt), Engine.windowByte_hex_busy hb _ i.isLt, laneByte_zeroExtend]
  · exact memWrite_ignored (admitted_hex_byte hc i.isLt) (by omega) (by omega) (by omega) v
  · exact memWrite_ignored (admitted_register hc (by omega) (by omega)) (by omega) (by omega) (by omega) v
  · simp [Engine.resetWith]

/-! ### The MSG window -/

/-- A 32-bit read of the MSG window is four bytes of MSG, the lowest index in the lowest lane (20 R62). -/
theorem Engine.memRead_msg_word (hc : e.cfg.wf = true) (hi : i < e.cfg.msgCap) (h4 : i % 4 = 0) (d : Word) :
    e.memRead d (offMsg + i) 4 =
      .ok (laneWord (e.msgByte i) (e.msgByte (i + 1)) (e.msgByte (i + 2)) (e.msgByte (i + 3))) := by
  obtain ⟨-, -, hcap, -⟩ := Config.wf_bounds hc
  have hbyte : ∀ k, k < 4 → e.windowByte d (offMsg + (i + k)) = e.msgByte (i + k) :=
    fun k hk => Engine.windowByte_msg d (by omega)
  rw [Engine.memRead_word (admitted_msg_word hc hi h4), Engine.readWord_window d (Nat.le_add_right _ _), Nat.add_assoc,
    Nat.add_assoc, Nat.add_assoc, Engine.windowByte_msg d hi, hbyte 1 (by decide), hbyte 2 (by decide),
    hbyte 3 (by decide)]

/-- The byte on lane k of a write goes to index i + k (20 R62, R67). -/
theorem Engine.msgByte_write_lane (e : Engine) (i n : Nat) (v : Word) (k : Nat) (hk : k < n) :
    (e.setMsg (Cells.write e.msg i (laneBytes n v))).msgByte (i + k) = laneByte v k := by
  rw [Engine.msgByte_write_in e i _ k (by rwa [laneBytes_length])]
  simp [laneBytes]

/-- A write of n lanes leaves every byte outside its n indices. -/
theorem Engine.msgByte_write_lanes_out (e : Engine) (i n : Nat) (v : Word) (j : Nat) (h : j < i ∨ i + n ≤ j) :
    (e.setMsg (Cells.write e.msg i (laneBytes n v))).msgByte j = e.msgByte j :=
  Engine.msgByte_write_out e i _ j (by rwa [laneBytes_length])

/-- A 32-bit read after a 32-bit write to the MSG window gives the value back. -/
theorem Engine.memRead_msg_write (hc : e.cfg.wf = true) (hi : i < e.cfg.msgCap) (h4 : i % 4 = 0) (v d : Word) :
    (e.setMsg (Cells.write e.msg i (laneBytes 4 v))).memRead d (offMsg + i) 4 = .ok v := by
  have hlane := e.msgByte_write_lane i 4 v
  have h0 := hlane 0 (by decide)
  rw [Nat.add_zero] at h0
  rw [Engine.memRead_msg_word (e := e.setMsg (Cells.write e.msg i (laneBytes 4 v))) hc hi h4, h0, hlane 1 (by decide), hlane 2 (by decide), hlane 3 (by decide),
    laneWord_laneByte]

/-- Settles O42: a write stores its lanes at their indices and nothing else, and a word read puts the lanes together. -/
theorem msgWindowStoresExactlyItsBytes : Obligations.MsgWindowStoresExactlyItsBytes := by
  intro s i v d hc hi
  refine ⟨?_, fun h4 => Engine.memRead_msg_word hc hi h4 d, fun hb => ?_, fun hb h4 => ?_⟩
  · rw [Engine.memRead_byte (admitted_msg_byte hc hi), Engine.windowByte_msg d hi]
  · have hlane := s.toEngine.msgByte_write_lane i 1 v
    exact ⟨_, memWrite_msg hb (admitted_msg_byte hc hi) hi v, rfl, hlane 0 (by decide),
      fun j hj => s.toEngine.msgByte_write_lanes_out i 1 v j (by omega)⟩
  · have hlane := s.toEngine.msgByte_write_lane i 4 v
    exact ⟨_, memWrite_msg hb (admitted_msg_word hc hi h4) hi v, rfl, hlane 0 (by decide), hlane 1 (by decide),
      hlane 2 (by decide), hlane 3 (by decide), s.toEngine.msgByte_write_lanes_out i 4 v,
      Engine.memRead_msg_write hc hi h4 v d⟩

/-! ### STATUS -/

/-- The fields of STATUS (10 R42). -/
theorem Engine.status_fields (e : Engine) :
    e.status.getLsbD 0 = e.busy ∧ e.status.getLsbD 1 = e.done ∧ e.status.extractLsb' 2 2 = 0#2 ∧
      e.status.extractLsb' 4 4 = e.err.code ∧ e.status.extractLsb' 8 24 = 0#24 := by
  unfold Engine.status
  generalize e.err.code = c
  revert c
  cases e.busy <;> cases e.done <;> decide

theorem Engine.status_busy (h : e.Inv) (hb : e.busy = true) : e.status = 0x00000001 := by
  obtain ⟨hdone, herr⟩ := h.busy_flags hb
  simp [Engine.status, hb, hdone, herr, ErrCode.code]

/-- Settles O38: the fields of the STATUS word, the register's row of the map, and the codes' numbers. -/
theorem statusShowsBusyDoneErr : Obligations.StatusShowsBusyDoneErr := by
  refine ⟨fun s d v hc => ?_, by decide, by decide, fun e hb hd => ?_⟩
  · have ha := admitted_register hc (a := 0x008) (by decide) (by decide)
    obtain ⟨hbusy, hdone, hgap, herr, hhigh⟩ := s.toEngine.status_fields
    exact ⟨_, Engine.memRead_word ha d, hbusy, hdone, hgap, herr, hhigh,
      memWrite_ignored ha (by decide) (by decide) (.inl (by decide)) v, Engine.status_busy⟩
  · refine ⟨fun he => ?_, fun he => ?_, fun he => ?_, fun he => ?_⟩ <;>
      simp [Engine.status, hb, hd, he, ErrCode.code]

/-! ### MSG_LEN and CMD -/

/-- Settles O39: MSG_LEN's row of the map, and its write, idle and busy. -/
theorem msgLenReadsBackEveryValue : Obligations.MsgLenReadsBackEveryValue := by
  intro s d v hc
  have ha := admitted_register hc (a := 0x00C) (by decide) (by decide)
  exact ⟨Engine.memRead_word ha d, fun hb => memWrite_msgLen hc hb v, fun hb => memWrite_busy ha hb v, rfl⟩

theorem issueCommand_ok {w : Word} {o : Instr} (h : decode w = .ok o) : issueCommand w s = exec o s := by
  simp [issueCommand, h]

/-- An illegal word accepted sets ERR = 5 and DONE = 1 and nothing else (60 R265). -/
theorem issueCommand_illegal {w : Word} {x : DecodeError} (h : decode w = .error x) (hb : s.busy = false) :
    issueCommand w s = .next (s.setEngine (s.toEngine.setFlags true .illegalCommand)) := by
  simp [issueCommand, h, Engine.issueIllegal_eq, hb]

/-- Settles O40: an idle machine's write to CMD is the command's meaning or the illegal word's error. -/
theorem cmdIssuesAndReadsZero : Obligations.CmdIssuesAndReadsZero := by
  intro s d c hc
  have ha := admitted_register hc (a := 0x004) (by decide) (by decide)
  exact ⟨Engine.memRead_word ha d, fun hb => memWrite_busy ha hb c, fun hb => memWrite_cmd hc hb c,
    fun hb i hi => (memWrite_cmd hc hb c).trans (issueCommand_ok hi),
    fun hb ⟨x, hx⟩ => (memWrite_cmd hc hb c).trans (issueCommand_illegal hx hb)⟩

/-! ### The reserved offsets -/

/-- A word or a byte read above the MSG window is 0 (10 R51). -/
theorem Engine.memRead_above_msg (ha : admitted e.cfg a n = true) (hi : 0x1000 + e.cfg.msgCap ≤ a) (d : Word) :
    e.memRead d a n = .ok 0 := by
  have hbyte : ∀ k, e.windowByte d (a + k) = 0 := fun k => Engine.windowByte_above_msg d (by omega)
  obtain ⟨-, ⟨rfl, -⟩ | ⟨rfl, -⟩⟩ := (admitted_iff _ _ _).1 ha
  · rw [Engine.memRead_word ha, Engine.readWord_window d (by omega), hbyte, hbyte, hbyte, Engine.windowByte_above_msg d hi]
    rfl
  · rw [Engine.memRead_byte ha, Engine.windowByte_above_msg d hi]
    rfl

/-- Settles O43: below MSG only words are admitted there, above it words and bytes, and each reads 0. -/
theorem reservedOffsetsReadZeroIgnoreWrites : Obligations.ReservedOffsetsReadZeroIgnoreWrites := by
  intro s a n v d hc ha hres
  refine ⟨?_, memWrite_ignored ha (by omega) (by omega) (by omega) v⟩
  rcases hres with ⟨lo, hi⟩ | hi
  · obtain ⟨rfl, -⟩ : n = 4 ∧ a % 4 = 0 := by
      have := ((admitted_iff _ _ _).1 ha).2
      omega
    rw [Engine.memRead_word ha, Engine.readWord_reserved d lo (by omega)]
  · exact Engine.memRead_above_msg ha hi d

end Sys2Proof.Machine

/-! SUPPORT. The two sides of the port: the host's read and write statements as their transactions, refused or admitted, which
reads a draw can reach, and what a busy engine and the host can do to each other (20_memory R66 to R71, R75). -/

namespace Sys2Proof.Machine

variable {e : Engine} {s : State} {a n r : Nat} {v d d' : Word}

/-! ### Refused accesses -/

/-- R68's list is the complement of the admitted accesses of R63 to R65. -/
theorem admitted_eq_false_iff (c : Config) (a n : Nat) :
    admitted c a n = false ↔
      (n ≠ 1 ∧ n ≠ 4) ∨ (n = 4 ∧ a % 4 ≠ 0) ∨ (n = 1 ∧ (a ≤ 0x03F ∨ (0x080 ≤ a ∧ a ≤ 0xFFF))) ∨ 2 ^ c.addrW ≤ a := by
  rw [← Bool.not_eq_true, admitted_iff]
  omega

theorem Engine.memRead_error_iff : e.memRead d a n = .error (.busError a n) ↔ admitted e.cfg a n = false := by
  refine ⟨fun h => ?_, fun ha => Engine.memRead_refused ha d⟩
  cases ha : admitted e.cfg a n with
  | false => rfl
  | true =>
    obtain ⟨-, ⟨rfl, -⟩ | ⟨rfl, -⟩⟩ := (admitted_iff _ _ _).1 ha
    · cases (Engine.memRead_word ha d).symm.trans h
    · cases (Engine.memRead_byte ha d).symm.trans h

theorem memWrite_refused_iff : memWrite s a n v = .refused (.busError a n) ↔ admitted s.cfg a n = false := by
  refine ⟨fun h => ?_, fun ha => memWrite_refused ha v⟩
  cases ha : admitted s.cfg a n with
  | false => rfl
  | true =>
    obtain ⟨e, he⟩ := memWrite_next ha v
    cases he.symm.trans h

/-! ### The host's transactions -/

theorem hostStep_write (h : s.host.prog[s.host.pc]? = some (.write a n v)) : hostStep s = s.hostWrite a n v := by
  simp only [hostStep, h]

theorem hostStep_read (h : s.host.prog[s.host.pc]? = some (.read a n r)) : hostStep s = .next (s.hostRead a n r) := by
  simp only [hostStep, h]

/-- An admitted write is its MemWrite, from the host past its statement and acknowledged (20 R67, 30 R97). -/
theorem State.hostWrite_admitted (ha : admitted s.cfg a n = true) (v : Word) :
    s.hostWrite a n v = memWrite s.hostAck a n v := by
  obtain ⟨e, he⟩ := memWrite_next (s := s.hostAck) ha v
  simp only [State.hostWrite, he]

theorem State.hostWrite_refused (ha : admitted s.cfg a n = false) (v : Word) :
    s.hostWrite a n v = .next (s.hostError a n) := by
  simp only [State.hostWrite, memWrite_refused (s := s.hostAck) ha v]

/-- A read changes the host and the counter of draws alone, whatever the port answers (20 R66). -/
theorem State.hostRead_frame (s : State) (a n r : Nat) :
    (s.hostRead a n r).toEngine = s.toEngine ∧ (s.hostRead a n r).turns = s.turns := by
  unfold State.hostRead
  dsimp only
  split
  · exact ⟨rfl, rfl⟩
  · exact ⟨rfl, rfl⟩

theorem State.hostRead_refused_resp (ha : admitted s.cfg a n = false) (r : Nat) :
    (s.hostRead a n r).host.resp = .busError a n := by
  simp only [State.hostRead, Engine.memRead_refused ha]
  rfl

/-- Settles O36: R68's list is what the port does not admit, and the host's step turns either refusal into its error
response. -/
theorem refusedAccessesChangeNothing : Obligations.RefusedAccessesChangeNothing := by
  intro s a n r v d _ refused
  have href : refused ↔ admitted s.cfg a n = false := (admitted_eq_false_iff s.cfg a n).symm
  refine ⟨href.trans Engine.memRead_error_iff.symm, href.trans memWrite_refused_iff.symm, fun h hstmt => ?_,
    fun h hstmt => ?_⟩
  · exact ⟨_, (hostStep_write hstmt).trans (State.hostWrite_refused (href.1 h) v), rfl, rfl⟩
  · obtain ⟨hengine, -⟩ := s.hostRead_frame a n r
    exact ⟨_, hostStep_read hstmt, hengine, State.hostRead_refused_resp (href.1 h) r⟩

/-- Settles O47: an admitted write is its MemWrite, and a MemWrite that is admitted answers next. -/
theorem hostWritesMakeTheirTransactions : Obligations.HostWritesMakeTheirTransactions := by
  intro s a n v hstmt ha
  have hw : hostStep s = memWrite s.hostAck a n v := (hostStep_write hstmt).trans (State.hostWrite_admitted ha v)
  obtain ⟨e, he⟩ := memWrite_next (s := s.hostAck) ha v
  exact ⟨hw, _, hw.trans he⟩

/-! ### Reads that no draw reaches -/

theorem Engine.windowByte_idle_draw (hb : e.busy = false) (d d' : Word) (a : Nat) :
    e.windowByte d a = e.windowByte d' a := by
  simp only [Engine.windowByte, hb, Bool.false_eq_true, if_false]

/-- From the MSG window on a byte is MSG's or 0, with BUSY = 1 too (10 R51, R52). -/
theorem Engine.windowByte_high_draw (e : Engine) (d d' : Word) (lo : 0x1000 ≤ a) :
    e.windowByte d a = e.windowByte d' a := by
  have hlow : ¬ a < offMsg := Nat.not_lt.2 lo
  simp only [Engine.windowByte, if_neg hlow]

theorem Engine.readWord_idle_draw (hb : e.busy = false) (d d' : Word) (a : Nat) :
    e.readWord d a = e.readWord d' a := by
  simp only [Engine.readWord, Engine.settled_idle hb, Engine.windowByte_idle_draw hb d d']

/-- The words of R71's first list: the registers that keep their value with BUSY = 1, the reserved offsets and MSG. -/
theorem Engine.readWord_listed_draw (e : Engine) (d d' : Word) (h4 : a % 4 = 0)
    (ha : a ≤ 0x00C ∨ a = 0x018 ∨ a = 0x01C ∨ 0x0A0 ≤ a) : e.readWord d a = e.readWord d' a := by
  rcases ha with hi | rfl | rfl | lo
  · obtain rfl | rfl | rfl | rfl : a = 0x000 ∨ a = 0x004 ∨ a = 0x008 ∨ a = 0x00C := by omega
    all_goals rfl
  · rfl
  · rfl
  · by_cases hi : a < 0x1000
    · rw [Engine.readWord_reserved d lo hi, Engine.readWord_reserved d' lo hi]
    · have hbyte : ∀ k, e.windowByte d (a + k) = e.windowByte d' (a + k) :=
        fun k => e.windowByte_high_draw d d' (by omega)
      rw [Engine.readWord_window d (Nat.not_lt.1 hi), Engine.readWord_window d' (Nat.not_lt.1 hi), hbyte 1, hbyte 2,
        hbyte 3, e.windowByte_high_draw d d' (Nat.not_lt.1 hi)]

/-- A read does not depend on its draw where neither the byte nor the word that the port admits there does. -/
theorem Engine.memRead_draw (n : Nat) (hbyte : admitted e.cfg a 1 = true → e.windowByte d a = e.windowByte d' a)
    (hword : admitted e.cfg a 4 = true → e.readWord d a = e.readWord d' a) : e.memRead d a n = e.memRead d' a n := by
  cases ha : admitted e.cfg a n with
  | false => rw [Engine.memRead_refused ha, Engine.memRead_refused ha]
  | true =>
    obtain ⟨-, ⟨rfl, -⟩ | ⟨rfl, -⟩⟩ := (admitted_iff _ _ _).1 ha
    · rw [Engine.memRead_word ha, Engine.memRead_word ha, hword ha]
    · rw [Engine.memRead_byte ha, Engine.memRead_byte ha, hbyte ha]

/-- Settles O44: a read writes the host alone; no unsettled value is read idle, nor at an offset of R71's first list, where
a byte is admitted from the MSG window on only. -/
theorem readsHaveNoSideEffect : Obligations.ReadsHaveNoSideEffect := by
  refine ⟨fun s t a n r hstmt h => ?_, fun e a n d d' hb => ?_, fun e a n d d' hlist => ?_⟩
  · obtain rfl := Host.Outcome.next.inj ((hostStep_read hstmt).symm.trans h)
    exact s.hostRead_frame a n r
  · exact Engine.memRead_draw n (fun _ => Engine.windowByte_idle_draw hb d d' a)
      (fun _ => Engine.readWord_idle_draw hb d d' a)
  · refine Engine.memRead_draw n (fun ha => ?_) (fun ha => ?_)
    · have hwin := ((admitted_iff _ _ _).1 ha).2
      exact e.windowByte_high_draw d d' (by omega)
    · have h4 := ((admitted_iff _ _ _).1 ha).2
      exact e.readWord_listed_draw d d' (by omega) hlist

/-! ### A busy engine -/

/-- Only an idle engine changes by a host step (20 R70). -/
theorem Engine.HostEffect.of_busy {e' : Engine} {p : Prop} (h : e.HostEffect p e') (hb : e.busy = true) : e' = e := by
  cases h with
  | unchanged => rfl
  | msgLen idle | msg idle | start idle | raise idle => exact absurd (idle.symm.trans hb) Bool.false_ne_true

/-- A command accepted with BUSY = 1 is ignored, NOP among them (20 R70). -/
theorem exec_busy (hb : s.busy = true) (i : Instr) : exec i s = .next s := by
  rw [exec_eq, Engine.issue_busy hb, State.setEngine_self, ite_self]

/-- Settles O58: a busy engine takes no effect of the host, and the engine's step writes neither the host nor MSG and
MSG_LEN. -/
theorem hostCannotDisturbARunningCommand : Obligations.HostCannotDisturbARunningCommand := by
  refine ⟨fun s t hb h => (hostStep_effect h).of_busy hb, fun s t h => ?_⟩
  obtain ⟨e, he, rfl⟩ := engineStep_next h
  obtain ⟨hmsg, hlen, -⟩ := Engine.step_frame he
  exact ⟨rfl, hmsg, hlen, rfl⟩

/-- Settles O29: with BUSY = 1 no command and no admitted write does anything, those to the locked targets among them. -/
theorem writesWhileBusyAreIgnored : Obligations.WritesWhileBusyAreIgnored :=
  fun _ hb => ⟨exec_busy hb, fun _ _ v ha _ => memWrite_busy ha hb v⟩

end Sys2Proof.Machine

/-! SUPPORT. Command words and host programs: the decoder as the inverse of the encoder and the words it rejects, the host's
read and branch on its own variables, and the bytes that LOADMSG's writes leave in MSG (30_encoding R90 to R100). -/

namespace Sys2Proof.Machine

variable {c : Word} {i : Instr} {e : Engine} {s t : State} {a n r : Nat} {v : Word}

/-! ### The decoder and the encoder -/

/-- A word is its RSVD and its OPC put together (30 R90). -/
theorem rsvd_append_opc (c : Word) : c.extractLsb' 8 24 ++ c.extractLsb' 0 8 = c :=
  (BitVec.extractLsb'_append_extractLsb'_eq_extractLsb' rfl).trans BitVec.extractLsb'_eq_self

theorem encode_rsvd (i : Instr) : (encode i).extractLsb' 8 24 = 0#24 := by
  cases i <;> rfl

theorem encode_opc (i : Instr) : (encode i).extractLsb' 0 8 = i.opc := by
  cases i <;> rfl

theorem opc_lt_six (i : Instr) : i.opc.toNat < 6 := by
  cases i <;> decide

/-- A byte is the OPC of a command or in 0x06 to 0xFF (30 R93, R95). -/
theorem opc_cases (o : Byte) : (∃ i : Instr, i.opc = o) ∨ 6 ≤ o.toNat := by
  obtain h | h | h | h | h | h | h :
      o.toNat = 0 ∨ o.toNat = 1 ∨ o.toNat = 2 ∨ o.toNat = 3 ∨ o.toNat = 4 ∨ o.toNat = 5 ∨ 6 ≤ o.toNat := by omega
  · exact .inl ⟨.nop, BitVec.eq_of_toNat_eq h.symm⟩
  · exact .inl ⟨.hash, BitVec.eq_of_toNat_eq h.symm⟩
  · exact .inl ⟨.init, BitVec.eq_of_toNat_eq h.symm⟩
  · exact .inl ⟨.pad, BitVec.eq_of_toNat_eq h.symm⟩
  · exact .inl ⟨.block, BitVec.eq_of_toNat_eq h.symm⟩
  · exact .inl ⟨.encode, BitVec.eq_of_toNat_eq h.symm⟩
  · exact .inr h

/-- The word with RSVD = 0 and a command's OPC is the command's. -/
theorem eq_encode_of_fields (hr : c.extractLsb' 8 24 = 0#24) (ho : c.extractLsb' 0 8 = i.opc) : c = encode i := by
  rw [← rsvd_append_opc c, hr, ho, encode]

theorem decode_encode (i : Instr) : decode (encode i) = .ok i := by
  cases i with
  | nop | hash | init | pad | block | encode => rfl

/-- The decoder reads a word as the command it encodes, or rejects it for its RSVD or for its OPC (30 R94, R95). -/
theorem decode_cases (c : Word) :
    (∃ i, decode c = .ok i ∧ c = encode i) ∨
      ∃ x, decode c = .error x ∧ (c.extractLsb' 8 24 ≠ 0#24 ∨ 6 ≤ (c.extractLsb' 0 8).toNat) := by
  by_cases hr : c.extractLsb' 8 24 = 0#24
  · rcases opc_cases (c.extractLsb' 0 8) with ⟨i, hi⟩ | hill
    · have hc : c = encode i := eq_encode_of_fields hr hi.symm
      exact .inl ⟨i, hc ▸ decode_encode i, hc⟩
    · have hne : ∀ i : Instr, c.extractLsb' 0 8 ≠ i.opc := fun i hi => by
        have hopc := opc_lt_six i
        rw [← hi] at hopc
        omega
      have hcode : decode c = .error (.unknownCode (c.extractLsb' 0 8)) :=
        (if_neg (not_not_intro hr)).trans <| (if_neg (hne .nop)).trans <| (if_neg (hne .hash)).trans <|
          (if_neg (hne .init)).trans <| (if_neg (hne .pad)).trans <| (if_neg (hne .block)).trans <| if_neg (hne .encode)
      exact .inr ⟨_, hcode, .inr hill⟩
  · exact .inr ⟨_, if_pos hr, .inl hr⟩

theorem decode_eq_ok_iff : decode c = .ok i ↔ c = encode i := by
  refine ⟨fun h => ?_, fun h => h ▸ decode_encode i⟩
  rcases decode_cases c with ⟨j, hj, hc⟩ | ⟨x, hx, -⟩
  · cases hj.symm.trans h
    exact hc
  · cases hx.symm.trans h

theorem decode_error_iff :
    (∃ x, decode c = .error x) ↔ c.extractLsb' 8 24 ≠ 0#24 ∨ 6 ≤ (c.extractLsb' 0 8).toNat := by
  rcases decode_cases c with ⟨i, hi, rfl⟩ | ⟨x, hx, hill⟩
  · have hopc := opc_lt_six i
    simp [hi, encode_rsvd, encode_opc, hopc]
  · exact iff_of_true ⟨x, hx⟩ hill

/-- The table's 32-bit numbering of a word is the word: its four lanes put together again (20 R62, log 21). -/
theorem decodeTableWord_toNat (c : Word) : decodeTableWord 32 c.toNat = (decode c).toOption := by
  have hlanes : decodeBytes (laneBytes 4 c) = (decode c).map (·, []) := by
    change decodeBytes [laneByte c 0, laneByte c 1, laneByte c 2, laneByte c 3] = _
    simp only [decodeBytes, laneWord_laneByte]
    cases decode c with
    | ok | error => rfl
  simp only [decodeTableWord, Nat.mod_eq_of_lt c.isLt, if_pos c.isLt, BitVec.ofNat_toNat, BitVec.setWidth_eq, hlanes]
  cases decode c with
  | ok | error => rfl

theorem decodeTableWord_encode (i : Instr) : decodeTableWord 32 (encode i).toNat = some i := by
  rw [decodeTableWord_toNat, decode_encode]
  rfl

/-- Settles O2: the decoder inverts the encoder, and a word it reads is made of the fields it read. -/
theorem decodeSelectsTheWholeWord : Obligations.DecodeSelectsTheWholeWord :=
  ⟨fun _ _ => decode_eq_ok_iff, decodeTableWord_encode, rfl, rfl, rfl, rfl, rfl, rfl⟩

/-- Settles O1: the first six are the commands' own words; the decoder rejects the other three. -/
theorem tableWordsDecode : Obligations.TableWordsDecode :=
  ⟨decodeTableWord_encode .nop, decodeTableWord_encode .hash, decodeTableWord_encode .init, decodeTableWord_encode .pad,
    decodeTableWord_encode .block, decodeTableWord_encode .encode, decodeTableWord_toNat 0x00000006,
    decodeTableWord_toNat 0x00000100, decodeTableWord_toNat 0x80000001⟩

/-! ### Illegal words -/

theorem issueCommand_illegal_busy {x : DecodeError} (h : decode c = .error x) (hb : s.busy = true) :
    issueCommand c s = .next s := by
  simp [issueCommand, h, Engine.issueIllegal_eq, hb]

/-- Settles O3: the words the decoder rejects, and what such a word does with BUSY = 0 and with BUSY = 1. -/
theorem illegalWordsRaiseIllegalCommand : Obligations.IllegalWordsRaiseIllegalCommand :=
  fun _ => ⟨decode_error_iff, fun _ ⟨_, hx⟩ => ⟨issueCommand_illegal hx, issueCommand_illegal_busy hx⟩⟩

/-! ### The host's variables, reads and branches -/

@[simp] theorem HostAgent.var_assign_self (h : HostAgent) (r : Nat) (v : Word) : (h.assign r v).var r = v := by
  simp [HostAgent.var, Cells.lookup_write]

theorem HostAgent.var_assign_ne (h : HostAgent) {q : Nat} (hq : q ≠ r) (v : Word) : (h.assign r v).var q = h.var q := by
  rw [HostAgent.var, HostAgent.assign_vars, Cells.lookup_write_out, HostAgent.var]
  simp only [List.length_cons, List.length_nil]
  omega

/-- A read that the port answers: the value goes to the variable and the response, and the host goes on (30 R97). -/
theorem State.hostRead_ok (h : s.toEngine.memRead (Config.freeRead s.draws) a n = .ok v) (r : Nat) :
    s.hostRead a n r =
      (s.setHost (((s.host.goto (s.host.pc + 1)).assign r v).answer (.data v))).setDraws (s.draws + 1) := by
  simp only [State.hostRead, h]

theorem hostStep_bnz {mask : Word} {target : Nat} (h : s.host.prog[s.host.pc]? = some (.bnz r mask target)) :
    hostStep s = .next (s.hostBranch r mask target) := by
  simp only [hostStep, h]

/-- A host past its last statement answers the same state (log 3). -/
theorem hostStep_finished (h : s.hostReady = false) : hostStep s = .next s := by
  have hend : s.host.prog[s.host.pc]? = none := by simpa [State.hostReady] using h
  simp only [hostStep, hend]

/-- Settles O46: the read's, the branch's and the finished program's step, each on the host alone. -/
theorem hostStatementsRunOnTheHostAlone : Obligations.HostStatementsRunOnTheHostAlone := by
  refine ⟨fun s a n r v hstmt hread => ?_, fun s r target mask hstmt => hostStep_bnz hstmt, fun s => hostStep_finished⟩
  have hstep := hostStep_read hstmt
  rw [State.hostRead_ok hread r] at hstep
  exact ⟨_, hstep, rfl, HostAgent.var_assign_self _ r v, rfl, rfl, rfl, fun q hq => HostAgent.var_assign_ne _ hq v⟩

/-! ### LOADMSG -/

section
variable {α : Type}

theorem Cells.numbered_append (base : Nat) (xs ys : List α) :
    Cells.numbered base (xs ++ ys) = Cells.numbered base xs ++ Cells.numbered (base + xs.length) ys := by
  induction xs generalizing base with
  | nil => rfl
  | cons x xs ih => simp [Cells.numbered, ih, Nat.add_assoc, Nat.add_comm 1]

/-- A write of nothing at index 0 keeps every cell. -/
theorem Cells.write_zero_nil (m : Cells α) : Cells.write m 0 [] = m := by
  have hbelow : m.filter (fun c => c.1 < 0) = [] := List.filter_eq_nil_iff.2 fun c _ => by simp
  have habove : m.filter (fun c => 0 + ([] : List α).length ≤ c.1) = m := List.filter_eq_self.2 fun c _ => by simp
  rw [Cells.write, Cells.numbered, hbelow, habove]
  rfl

/-- From index 0 on, two writes one after the other are one write of both lists. -/
theorem Cells.write_write_append (m : Cells α) (xs ys : List α) :
    Cells.write (Cells.write m 0 xs) xs.length ys = Cells.write m 0 (xs ++ ys) := by
  have hbelow : (Cells.numbered 0 xs).filter (fun c => c.1 < xs.length) = Cells.numbered 0 xs :=
    List.filter_eq_self.2 fun c hc => by simpa using (Cells.mem_numbered_bounds 0 xs c hc).2
  have habove : (Cells.numbered 0 xs).filter (fun c => xs.length + ys.length ≤ c.1) = [] :=
    List.filter_eq_nil_iff.2 fun c hc => by
      simpa using Nat.lt_add_right ys.length (Cells.mem_numbered_bounds 0 xs c hc).2
  have hgap : m.filter (fun c => c.1 < xs.length && xs.length ≤ c.1) = [] :=
    List.filter_eq_nil_iff.2 fun c _ => by simp
  have htail : m.filter (fun c => xs.length + ys.length ≤ c.1 && xs.length ≤ c.1) =
      m.filter (fun c => xs.length + ys.length ≤ c.1) :=
    List.filter_congr fun c _ => by
      simpa using fun h => Nat.le_of_add_right_le h
  simp [Cells.write, Cells.numbered_append, List.filter_filter, hbelow, habove, hgap, htail]

end

/-- The machine with `bytes` written to MSG from index 0 on. -/
def State.storeMsg (s : State) (bytes : List Byte) : State :=
  s.setEngine (s.toEngine.setMsg (Cells.write s.msg 0 bytes))

@[simp] theorem State.storeMsg_nil (s : State) : s.storeMsg [] = s := by
  rw [State.storeMsg, Cells.write_zero_nil]
  rfl

/-- A write to the MSG window just past the stored bytes stores its lanes after them. -/
theorem memWrite_storeMsg (hb : s.busy = false) {bytes : List Byte}
    (ha : admitted s.cfg (offMsg + bytes.length) n = true) (hi : bytes.length < s.cfg.msgCap) (v : Word) :
    memWrite (s.storeMsg bytes) (offMsg + bytes.length) n v = .next (s.storeMsg (bytes ++ laneBytes n v)) := by
  rw [memWrite_msg (s := s.storeMsg bytes) hb ha hi, State.storeMsg, State.storeMsg, ← Cells.write_write_append]
  rfl

theorem writeAll_write (h : memWrite s a n v = .next t) (rest : List CoreLine) :
    writeAll (.write a n v :: rest) s = writeAll rest t := by
  simp only [writeAll, h]

/-- LOADMSG's writes from index i on, with MSG's first i bytes stored, store the other bytes after them (30 R100). A group of
four bytes is written at an aligned index. -/
theorem writeAll_loadMsgLines (hc : s.cfg.wf = true) (hb : s.busy = false) (rest : List CoreLine) (i : Nat)
    (bytes stored : List Byte) (hi : i = stored.length) (h4 : 4 ≤ bytes.length → i % 4 = 0)
    (hcap : i + bytes.length ≤ s.cfg.msgCap) :
    writeAll (loadMsgLines i bytes ++ rest) (s.storeMsg stored) = writeAll rest (s.storeMsg (stored ++ bytes)) := by
  induction i, bytes using loadMsgLines.induct generalizing stored with
  | case1 i b0 b1 b2 b3 bytes ih =>
    subst hi
    simp only [List.length_cons] at h4 hcap
    have haligned : stored.length % 4 = 0 := h4 (by omega)
    have hlt : stored.length < s.cfg.msgCap := by omega
    have hw := memWrite_storeMsg hb (admitted_msg_word hc hlt haligned) hlt (laneWord b0 b1 b2 b3)
    rw [laneBytes_laneWord] at hw
    rw [loadMsgLines, List.cons_append, writeAll_write hw, ih (stored ++ [b0, b1, b2, b3]) (by simp) (by omega)
      (by omega), List.append_assoc]
    rfl
  | case2 i b0 bytes hfew ih =>
    subst hi
    have hlen : bytes.length < 3 := by
      match bytes, hfew with
      | [], _ | [_], _ | [_, _], _ => simp
      | b1 :: b2 :: b3 :: more, hfew => exact absurd rfl (hfew b1 b2 b3 more)
    simp only [List.length_cons] at hcap
    have hlt : stored.length < s.cfg.msgCap := by omega
    have hw := memWrite_storeMsg hb (admitted_msg_byte hc hlt) hlt (b0.zeroExtend 32)
    rw [laneBytes_byte] at hw
    rw [loadMsgLines.eq_2 _ _ _ hfew, List.cons_append, writeAll_write hw, ih (stored ++ [b0]) (by simp) (by omega)
      (by omega), List.append_assoc, List.singleton_append]
  | case3 i => rw [loadMsgLines, List.nil_append, List.append_nil]

/-- Settles O48: LOADMSG's writes to MSG store the bytes, and its last write stores their number in MSG_LEN. -/
theorem loadMsgWritesTheMessage : Obligations.LoadMsgWritesTheMessage := by
  intro s k bytes hc hb hcap
  obtain ⟨-, -, -, -, hspace, -, haddr⟩ := Config.wf_bounds hc
  have hstore := writeAll_loadMsgLines hc hb [.write offMsgLen 4 (BitVec.ofNat 32 bytes.length)] 0 bytes [] rfl
    (fun _ => rfl) (by omega)
  have hwrite := memWrite_msgLen (s := s.storeMsg bytes) hc hb (BitVec.ofNat 32 bytes.length)
  rw [State.storeMsg_nil, List.nil_append, writeAll_write hwrite] at hstore
  have hlen : (BitVec.ofNat 32 bytes.length).toNat = bytes.length := by
    rw [BitVec.toNat_ofNat, Nat.mod_eq_of_lt (by omega)]
  refine ⟨_, hstore, List.ext_getElem ((Engine.message_length _).trans hlen) fun j _ hj => ?_, hlen, fun j hj => ?_, rfl⟩
  · rw [Engine.message_getElem]
    have hbyte := s.toEngine.msgByte_write_in 0 bytes j hj
    rwa [Nat.zero_add] at hbyte
  · exact s.toEngine.msgByte_write_out 0 bytes j (.inr (by omega))

end Sys2Proof.Machine

/-! SUPPORT. The word functions: sums of Words, the rotations' and shifts' source bits, MAJ's count and symmetry, and the two
shapes of the sigmas (40_bitops R110 to R118). -/

namespace Sys2Proof.Machine

/-! ### ADD32 -/

/-- A sum of Words from the left, started at any Word: each addition's reduction mod 2^32 is absorbed by the last one. -/
theorem foldl_add32_toNat (l : List Word) (a : Word) :
    (l.foldl add32 a).toNat = (a.toNat + (l.map BitVec.toNat).sum) % 2 ^ 32 := by
  induction l generalizing a with
  | nil => exact (Nat.mod_eq_of_lt a.isLt).symm
  | cons b l ih => rw [List.foldl_cons, ih, add32_toNat, Nat.mod_add_mod, List.map_cons, List.sum_cons, Nat.add_assoc]

theorem sum_add32_toNat (l : List Word) : (l.foldl add32 0).toNat = (l.map BitVec.toNat).sum % 2 ^ 32 :=
  (foldl_add32_toNat l 0).trans (congrArg (· % 2 ^ 32) (Nat.zero_add _))

/-- The order does not matter, because the value is that of the sum of the numbers, whose order does not matter. -/
theorem sum_add32_perm {l l' : List Word} (h : l.Perm l') : l'.foldl add32 0 = l.foldl add32 0 :=
  BitVec.eq_of_toNat_eq <| by rw [sum_add32_toNat, sum_add32_toNat, (h.map BitVec.toNat).sum_nat]

/-- Settles O4: a sum of Words has the value of the sum of its numbers, and so no order. -/
theorem additionWrapsInAnyOrder : Obligations.AdditionWrapsInAnyOrder :=
  ⟨add32_toNat, add32_assoc, fun l => ⟨sum_add32_toNat l, fun _ => sum_add32_perm⟩⟩

/-! ### ROTR and SHR -/

/-- Settles O5: this is the law of ROTR, where the right shift brings the bits up to 31 and the left shift those that wrap. -/
theorem rotateMovesEveryBit : Obligations.RotateMovesEveryBit := rotr_getLsbD

/-- The zero fill of R112: a Word has no bit past bit 31. -/
theorem shr_getLsbD_zeroFill (x : Word) (n i : Nat) :
    (shr x n).getLsbD i = (decide (i + n % 32 ≤ 31) && x.getLsbD (i + n % 32)) := by
  rw [shr_getLsbD]
  by_cases hin : i + n % 32 ≤ 31
  · rw [decide_eq_true hin, Bool.true_and]
  · rw [decide_eq_false hin, Bool.false_and, BitVec.getLsbD_of_ge x _ (by omega)]

theorem shr_32 (x : Word) : shr x 32 = x := BitVec.ushiftRight_zero x

/-- Settles O6: the shifted bit or the zero fill; an amount of 32 is reduced to 0. -/
theorem shiftFillsWithZeros : Obligations.ShiftFillsWithZeros :=
  fun x n i _ => ⟨by rw [shr_getLsbD_zeroFill, Bool.if_false_right], shr_32 x⟩

/-! ### CH and MAJ -/

theorem maj_getLsbD_iff (x y z : Word) (i : Nat) :
    (maj x y z).getLsbD i = true ↔ 2 ≤ (x.getLsbD i).toNat + (y.getLsbD i).toNat + (z.getLsbD i).toNat := by
  rw [maj_getLsbD]
  generalize x.getLsbD i = a, y.getLsbD i = b, z.getLsbD i = c
  revert a b c
  decide

/-- Swapping the first two operands swaps the two products with z. -/
theorem maj_swap_left (x y z : Word) : maj y x z = maj x y z := by
  rw [maj, maj, BitVec.and_comm y x, BitVec.xor_assoc, BitVec.xor_comm (y &&& z), ← BitVec.xor_assoc]

/-- Swapping the last two operands swaps the two products with x. -/
theorem maj_swap_right (x y z : Word) : maj x z y = maj x y z := by
  rw [maj, maj, BitVec.and_comm z y, BitVec.xor_comm (x &&& z)]

/-- Settles O7: CH's selection and MAJ's count at one bit, and MAJ's two swaps. -/
theorem chooseAndMajorityPerBit : Obligations.ChooseAndMajorityPerBit :=
  fun x y z i hi => ⟨ch_getLsbD x y z i hi, maj_getLsbD_iff x y z i, maj_swap_left x y z, maj_swap_right x y z⟩

/-! ### The sigmas -/

/-- The shape of SSIG0 and SSIG1 (R115, R116). -/
theorem rotr_rotr_shr_getLsbD (x : Word) (p q r : Nat) {i : Nat} (hi : i < 32) :
    (rotr x p ^^^ rotr x q ^^^ shr x r).getLsbD i =
      ((x.getLsbD ((i + p % 32) % 32) ^^ x.getLsbD ((i + q % 32) % 32)) ^^
        (decide (i + r % 32 ≤ 31) && x.getLsbD (i + r % 32))) := by
  rw [BitVec.getLsbD_xor, BitVec.getLsbD_xor, rotr_getLsbD x p i hi, rotr_getLsbD x q i hi, shr_getLsbD_zeroFill]

/-- The shape of BSIG0 and BSIG1 (R117, R118). -/
theorem rotr_rotr_rotr_getLsbD (x : Word) (p q r : Nat) {i : Nat} (hi : i < 32) :
    (rotr x p ^^^ rotr x q ^^^ rotr x r).getLsbD i =
      ((x.getLsbD ((i + p % 32) % 32) ^^ x.getLsbD ((i + q % 32) % 32)) ^^ x.getLsbD ((i + r % 32) % 32)) := by
  rw [BitVec.getLsbD_xor, BitVec.getLsbD_xor, rotr_getLsbD x p i hi, rotr_getLsbD x q i hi, rotr_getLsbD x r i hi]

/-- Settles O8: the two shapes at the amounts of R115 to R118, each below 32. -/
theorem sigmasXorTheirSourceBits : Obligations.SigmasXorTheirSourceBits :=
  fun x _ hi => ⟨rotr_rotr_shr_getLsbD x 7 18 3 hi, rotr_rotr_shr_getLsbD x 17 19 10 hi,
    rotr_rotr_rotr_getLsbD x 2 13 22 hi, rotr_rotr_rotr_getLsbD x 6 11 25 hi⟩

end Sys2Proof.Machine

/-! SUPPORT. The Padder's bytes: the big-endian trailer, the four parts of a padded message, its length, and when the two
trailer widths give one message. -/

namespace Sys2Proof.Machine

variable {lf : LenField} {m p q : List Byte}

/-! ### The trailer's bytes -/

theorem beBytes_succ (n v : Nat) : beBytes (n + 1) v = BitVec.ofNat 8 (v / 256 ^ n) :: beBytes n v := by
  rw [beBytes, List.range_succ_eq_map, List.map_cons, List.map_map]
  refine congrArg (_ :: ·) (List.map_congr_left fun i _ => ?_)
  rw [Function.comp_apply, Nat.succ_eq_add_one, show n + 1 - 1 - (i + 1) = n - 1 - i by omega]

/-- Read big-endian, the n bytes are the value's residue (R13). The accumulator stands for the bytes read before. -/
theorem beBytes_foldl (n v a : Nat) :
    (beBytes n v).foldl (fun x b => 256 * x + b.toNat) a = a * 256 ^ n + v % 256 ^ n := by
  induction n generalizing a with
  | zero => simp [beBytes, Nat.mod_one]
  | succ n ih =>
    have hshift : 256 * a * 256 ^ n = a * 256 ^ (n + 1) := by
      rw [Nat.pow_succ', Nat.mul_comm 256 a, Nat.mul_assoc]
    rw [beBytes_succ, List.foldl_cons, ih, BitVec.toNat_ofNat, Nat.mod_pow_succ (b := 256), Nat.add_mul, hshift,
      Nat.add_assoc, Nat.add_comm (v % 256 ^ n), Nat.mul_comm (256 ^ n)]

/-- A wider trailer puts zero bytes before a value that the narrower one holds. -/
theorem beBytes_add_of_lt {n v : Nat} (h : v < 256 ^ n) (k : Nat) :
    beBytes (k + n) v = List.replicate k 0 ++ beBytes n v := by
  induction k with
  | zero => simp
  | succ k ih =>
    have hlt : v < 256 ^ (k + n) := Nat.lt_of_lt_of_le h (Nat.pow_le_pow_right (by decide) (Nat.le_add_left n k))
    rw [Nat.add_right_comm, beBytes_succ, Nat.div_eq_of_lt hlt, ih, List.replicate_succ, List.cons_append]
    rfl

/-! ### When pad answers, and the parts of its answer -/

theorem lengthUnfit_iff (lf : LenField) (n : Nat) : lengthUnfit lf n = true ↔ lf = .two ∧ 65535 < 8 * n := by
  rw [lengthUnfit, Bool.and_eq_true, beq_iff_eq, decide_eq_true_iff]

theorem pad_eq_error_iff (lf : LenField) (m : List Byte) (c : ErrCode) :
    pad lf m = .error c ↔ c = .invalidInput ∧ lengthUnfit lf m.length = true := by
  rcases pad_cases lf m with ⟨hu, he⟩ | ⟨hu, p, hp, _⟩
  · rw [he, hu, Except.error.injEq, eq_comm, and_iff_left rfl]
  · rw [hp, hu]
    constructor
    · intro h
      cases h
    · rintro ⟨-, h⟩
      cases h

theorem lengthUnfit_of_pad_ok (h : pad lf m = .ok p) : lengthUnfit lf m.length = false := by
  rcases pad_cases lf m with ⟨_, he⟩ | ⟨hu, _⟩
  · rw [he] at h
    cases h
  · exact hu

/-- The length in closed form (R136); R131's bounds are arithmetic on it. -/
theorem pad_length_eq (h : pad lf m = .ok p) : p.length = 64 * ((m.length + lf.bytes) / 64 + 1) :=
  (pad_length h).trans (padLen_eq lf m.length)

/-- The layout of R132, with z zero bytes. -/
theorem pad_parts (h : pad lf m = .ok p) : ∃ z ≤ 63, p.length = m.length + 1 + z + lf.bytes ∧
    p = m ++ 0x80 :: (List.replicate z 0 ++ beBytes lf.bytes (8 * m.length)) := by
  have hlen := pad_length_eq h
  rw [pad_ok (lengthUnfit_of_pad_ok h), Except.ok.injEq] at h
  refine ⟨padLen lf m.length - lf.bytes - (m.length + 1), ?_, ?_, ?_⟩
  · rw [padLen_eq]
    omega
  · rw [padLen_eq]
    omega
  · rw [← h, List.append_assoc, List.append_assoc, List.singleton_append]

/-- A message that pads has a bit length that its trailer holds: 65535 bounds the 2-byte trailer's (R133). -/
theorem pad_bitLength_lt (h8 : 8 * m.length < 2 ^ 64) (h : pad lf m = .ok p) : 8 * m.length < 256 ^ lf.bytes := by
  cases lf with
  | eight => exact h8
  | two =>
    have hfit : ¬ 65535 < 8 * m.length := fun hbig =>
      Bool.false_ne_true ((lengthUnfit_of_pad_ok h).symm.trans ((lengthUnfit_iff .two _).2 ⟨rfl, hbig⟩))
    rw [LenField.bytes]
    omega

/-! ### The statements for one trailer width -/

/-- Settles O9: arithmetic on the closed form of the length. -/
theorem paddedLengthIsTheSmallestThatFits : Obligations.PaddedLengthIsTheSmallestThatFits := by
  intro lf m p h
  rw [pad_length_eq h]
  refine ⟨?_, ?_, ?_, ?_, fun k hk hfit => ?_⟩ <;> omega

/-- Settles O10: each clause reads one of the parts, and the last the trailer's value, which its bytes hold. -/
theorem paddedBytesAreLaidOut : Obligations.PaddedBytesAreLaidOut := by
  intro lf m p h8 h
  have hv := pad_bitLength_lt h8 h
  obtain ⟨z, hz, hlen, rfl⟩ := pad_parts h
  have hcut : (m ++ (0x80 : Byte) :: List.replicate z 0).length = m.length + 1 + z := by
    rw [List.length_append, List.length_cons, List.length_replicate, Nat.add_assoc, Nat.add_comm z]
  have htail : (m ++ 0x80 :: (List.replicate z 0 ++ beBytes lf.bytes (8 * m.length))).drop (m.length + 1 + z) =
      beBytes lf.bytes (8 * m.length) := by
    rw [← List.cons_append, ← List.append_assoc, List.drop_left' hcut]
  rw [hlen, Nat.add_sub_cancel, htail]
  refine ⟨List.take_left, ?_, fun i hlo hhi => ?_, by omega, beBytes_length _ _, ?_⟩
  · rw [List.getElem?_append_right (Nat.le_refl _), Nat.sub_self, List.getElem?_cons_zero]
  · obtain ⟨j, rfl⟩ : ∃ j, i = m.length + (j + 1) := ⟨i - m.length - 1, by omega⟩
    rw [List.getElem?_append_right (by omega), Nat.add_sub_cancel_left, List.getElem?_cons_succ,
      List.getElem?_append_left (by rw [List.length_replicate]; omega), List.getElem?_replicate_of_lt (by omega)]
  · rw [beBytes_foldl, Nat.zero_mul, Nat.zero_add, Nat.mod_eq_of_lt hv]

/-- Settles O11: the acceptance check decides, and 8 * 8191 passes it where 8 * 8192 does not. -/
theorem padRefusesExactlyTheUnfitLengths : Obligations.PadRefusesExactlyTheUnfitLengths := by
  refine ⟨fun lf m c => ?_, fun m hm => ?_, fun m hm => ?_⟩
  · rw [pad_eq_error_iff, lengthUnfit_iff]
  · exact ⟨_, pad_ok (by rw [hm]; decide)⟩
  · exact pad_error (by rw [hm]; decide)

/-- Settles O12: the closed form of the length at the two trailer widths, and the empty Message's block. -/
theorem blockCountFollowsTheClosedForm : Obligations.BlockCountFollowsTheClosedForm := by
  refine ⟨fun lf m p h => ?_, fun lf => ?_⟩
  · have hlen := pad_length_eq h
    refine ⟨hlen, ?_, ?_⟩
    · rintro rfl
      simp only [LenField.bytes] at hlen
      split <;> omega
    · rintro rfl
      simp only [LenField.bytes] at hlen
      split <;> omega
  · cases lf with
    | eight => rfl
    | two => rfl

/-! ### The two trailer widths -/

/-- Up to 8191 bytes the first six bytes of the 8-byte trailer are zero bytes, so the two messages differ in length or not
at all. -/
theorem pad_eight_eq_two_iff (hm : m.length ≤ 8191) (hp : pad .eight m = .ok p) (hq : pad .two m = .ok q) :
    p = q ↔ p.length = q.length := by
  refine ⟨congrArg _, fun hlen => ?_⟩
  obtain ⟨z, -, hpl, rfl⟩ := pad_parts hp
  obtain ⟨y, -, hql, rfl⟩ := pad_parts hq
  have hy : y = z + 6 := by
    rw [hpl, hql, LenField.bytes, LenField.bytes] at hlen
    omega
  have htrailer : beBytes 8 (8 * m.length) = List.replicate 6 0 ++ beBytes 2 (8 * m.length) :=
    beBytes_add_of_lt (n := 2) (by omega) 6
  rw [hy, LenField.bytes, LenField.bytes, htrailer, ← List.replicate_append_replicate, List.append_assoc]

/-- Settles O13: the two messages agree where their lengths do, and the two closed forms of the length differ at the
residues 56 to 61 alone. -/
theorem trailerWidthsAgreeExactly : Obligations.TrailerWidthsAgreeExactly := by
  intro m p q hm hp hq
  have hpl : p.length = 64 * ((m.length + 8) / 64 + 1) := pad_length_eq hp
  have hql : q.length = 64 * ((m.length + 2) / 64 + 1) := pad_length_eq hq
  refine ⟨?_, fun hlo hhi => ?_⟩
  · rw [pad_eight_eq_two_iff hm hp hq]
    omega
  · omega

end Sys2Proof.Machine

/-! SUPPORT. The message schedule: the recurrence on expand(B), and what the LOAD and EXP micro-steps write (42_schedule R150
to R154). -/

namespace Sys2Proof.Machine

/-! ### Words of a Block and of a schedule -/

/-- The model adds in two halves and R153 from the left. -/
theorem Schedule.expWord_eq (w : Schedule) (t : Nat) (lo : 16 ≤ t) (hi : t < 64) :
    w.expWord t lo hi = ssig1 w[t - 2] + w[t - 7] + ssig0 w[t - 15] + w[t - 16] :=
  (BitVec.add_assoc _ _ _).symm

theorem Engine.block_getElem (e : Engine) (i : Nat) (hi : i < 64) :
    e.block[i] = e.padByte (64 * e.blkidx.toNat + i) := by
  rw [Engine.block, Vector.getElem_ofFn]

/-- R152's words: the bytes of PADBUF from 64 * BLKIDX + 4j on, the first one in bits 31:24. -/
theorem Engine.block_word (e : Engine) (j : Fin 16) :
    e.block.word j =
      e.padByte (64 * e.blkidx.toNat + 4 * j.val) ++ e.padByte (64 * e.blkidx.toNat + 4 * j.val + 1) ++
        e.padByte (64 * e.blkidx.toNat + 4 * j.val + 2) ++ e.padByte (64 * e.blkidx.toNat + 4 * j.val + 3) := by
  simp only [Block.word, beWord, Engine.block_getElem, Nat.add_assoc]

/-! ### The functional expansion -/

theorem expand_low (b : Block) (j : Fin 16) : (expand b)[j.val] = b.word j := by
  rw [expand_eq b 48 rfl, Schedule.expandTo_low _ _ _ j.isLt, Schedule.load_lt _ _ _ j.isLt]

theorem expand_high (b : Block) (t : Nat) (lo : 16 ≤ t) (hi : t < 64) :
    (expand b)[t] = (expand b).expWord t lo hi := by
  obtain ⟨n, rfl⟩ := Nat.exists_eq_add_of_le lo
  rw [expand_eq b 48 rfl]
  exact Schedule.expandTo_word _ n 48 (by omega) (by omega)

/-- Settles O14: LOAD's words stay through the expansion, and the words an expansion reads stay after it. -/
theorem scheduleWordsFollowTheRecurrence : Obligations.ScheduleWordsFollowTheRecurrence :=
  fun b => ⟨expand_low b, fun t lo hi => (expand_high b t lo hi).trans (Schedule.expWord_eq _ t lo hi)⟩

/-! ### The micro-steps -/

/-- Settles O15: LOAD answers the loaded schedule, whose first sixteen words are those of the block at BLKIDX. -/
theorem loadReadsTheBlockAndTheChainingValue : Obligations.LoadReadsTheBlockAndTheChainingValue := by
  intro e hs
  refine ⟨e.w.load e.block, Engine.step_load hs, fun j => ?_, Schedule.load_ge e.w e.block⟩
  rw [Schedule.load_lt _ _ _ j.isLt, Engine.block_word]

/-- An EXP step answers at the last index too, where seq moves to the rounds. -/
theorem Engine.step_exp_writes {e : Engine} {t : Fin 64} (lo : 16 ≤ t.val) (hs : e.seq = ⟨.exp, t⟩) :
    ∃ q, e.step = .next ((e.setW (e.w.expAt t.val)).setSeq q) := by
  obtain ⟨t, hi⟩ := t
  obtain ⟨n, rfl⟩ := Nat.exists_eq_add_of_le lo
  rcases (show n < 47 ∨ n = 47 by omega) with hn | hn
  · exact ⟨_, Engine.step_exp n hn hs⟩
  · exact ⟨_, Engine.step_exp_last n hn hs⟩

/-- Settles O16: EXP(t) answers W with its entry t set. -/
theorem expandStepWritesOneWord : Obligations.ExpandStepWritesOneWord := by
  intro e t lo hs
  obtain ⟨q, hstep⟩ := Engine.step_exp_writes lo hs
  refine ⟨e.w.expAt t.val, q, hstep, ?_, fun i hne => ?_⟩
  · exact (Schedule.expAt_self e.w t.val lo t.isLt).trans (Schedule.expWord_eq e.w t.val lo t.isLt)
  · exact Schedule.expAt_ne e.w t.val i.val i.isLt (Fin.val_ne_of_ne hne)

end Sys2Proof.Machine

/-! SUPPORT. The Compressor: the round's two sums, what the RND and CHAIN micro-steps write, the 114 steps of one block, and
the round constants (43_compressor R170 to R177). -/

namespace Sys2Proof.Machine

/-! ### The round -/

/-- R172's new E: the model pairs the terms of T1 and R174 adds them from the left. -/
theorem HashState.round_e (v : HashState) (k x : Word) :
    (v.round k x).e = v.d + (bsig1 v.e + ch v.e v.f v.g + v.h + k + x) := by
  simp only [HashState.round, add32, BitVec.add_assoc]

theorem HashState.round_a (v : HashState) (k x : Word) :
    (v.round k x).a = (bsig1 v.e + ch v.e v.f v.g + v.h + k + x) + (bsig0 v.a + maj v.a v.b v.c) := by
  simp only [HashState.round, add32, BitVec.add_assoc]

/-! ### The micro-steps -/

/-- An RND step answers at the last index too, where seq moves to CHAIN. -/
theorem Engine.step_rnd_writes {e : Engine} {t : Fin 64} (hs : e.seq = ⟨.rnd, t⟩) :
    ∃ q, e.step = .next ((e.rndStep t).setSeq q) := by
  obtain ⟨n, hi⟩ := t
  rcases (show n < 63 ∨ n = 63 by omega) with hn | hn
  · exact ⟨_, Engine.step_rnd n hn hs⟩
  · exact ⟨_, Engine.step_rnd_last n hn hs⟩

/-- Settles O17: RND(t) answers one round on WV, whose sums read the old variables alone. -/
theorem roundReadsEverythingBeforeItWrites : Obligations.RoundReadsEverythingBeforeItWrites := by
  intro e t hs
  obtain ⟨q, hstep⟩ := Engine.step_rnd_writes hs
  exact ⟨e.wv.round K[t] e.w[t], q, hstep, rfl, rfl, rfl, rfl, rfl, rfl, HashState.round_e _ _ _, HashState.round_a _ _ _⟩

/-- A step in phase CHAIN leaves every register but DONE, seq and CUR as the CHAIN micro-step left it. -/
theorem Engine.step_chain_registers {e e' : Engine} (hp : e.seq.phase = .chain) (h : e.step = .next e') :
    e' = { e.chainStep with done := e'.done, seq := e'.seq, cur := e'.cur } := by
  obtain ⟨d, hm, he⟩ := Engine.step_registers h
  have hchain : e.microStep = .next e.chainStep := by simp [Engine.microStep, hp]
  obtain rfl : e.chainStep = d := Host.Outcome.next.inj (hchain.symm.trans hm)
  exact he

/-- Settles O18: the registers that the move of seq leaves are those of the CHAIN micro-step. -/
theorem chainAddsThePreBlockState : Obligations.ChainAddsThePreBlockState := by
  intro e e' hp h
  rw [Engine.step_chain_registers hp h]
  exact ⟨HashState.add_get e.h e.wv, rfl, rfl, rfl, rfl, rfl, rfl, rfl, rfl, rfl⟩

/-! ### The 114 steps of one block -/

@[simp] theorem Engine.blockDone_h (e : Engine) : e.blockDone.h = compress (expand e.block) e.h := rfl
@[simp] theorem Engine.blockDone_wv (e : Engine) : e.blockDone.wv = e.h.roundsTo (expand e.block) 64 := rfl
@[simp] theorem Engine.blockDone_w (e : Engine) : e.blockDone.w = expand e.block := rfl
@[simp] theorem Engine.blockDone_blkidx (e : Engine) : e.blockDone.blkidx = e.blkidx + 1 := rfl

/-- A finish writes DONE, seq and CUR alone: ERR, which it writes too, it keeps. -/
theorem Engine.finish_eq (d : Engine) : d.finish = { d with done := true, seq := .idle, cur := .none } := rfl

/-- BLOCK finishes after its block, HASH goes on to the next block or, after its last one, to ENC; R221 tells the three
apart by BLKIDX after its increment. Each leaves every register but DONE, seq and CUR as CHAIN left it. -/
theorem Engine.run_block_registers {e : Engine} (hs : e.seq = ⟨.load, 0⟩)
    (hc : e.cur = .block ∨ (e.cur = .hash ∧ e.blkidx.toNat < e.nblk.toNat)) :
    ∃ b q c, e.run (113 + 1) = .next { e.blockDone with done := b, seq := q, cur := c } := by
  rcases hc with hc | ⟨hc, hlt⟩
  · exact ⟨_, _, _, e.blockDone.finish_eq ▸ Engine.run_block_last hs hc⟩
  · rcases (show (e.blkidx + 1).toNat < e.nblk.toNat ∨ e.blkidx + 1 = e.nblk by bv_omega) with hmore | hlast
    · exact ⟨e.blockDone.done, _, e.blockDone.cur, Engine.run_block_more hs hc hmore⟩
    · exact ⟨e.blockDone.done, _, e.blockDone.cur, Engine.run_block_to_enc hs hc hlast⟩

/-- The feed-forward of R176 in `blockDone`: word by word, H plus the variables after round 63. -/
theorem Engine.blockDone_get (e : Engine) (k : Fin 8) :
    e.blockDone.h.get k = e.h.get k + e.blockDone.wv.get k := by
  rw [Engine.blockDone_h, Engine.blockDone_wv, compress_eq _ _ 64 rfl, HashState.add_get]

/-- Stated over arbitrary values, so that no check compares a computed schedule or hash state with the old one. -/
theorem Engine.block_updates_frame (e : Engine) (x : Schedule) (v h : HashState) (i : Word) :
    let d := (((e.setW x).setWv v).setH h).setBlocks e.nblk i
    d.padbuf = e.padbuf ∧ d.nblk = e.nblk ∧ d.hex = e.hex ∧ d.msg = e.msg ∧ d.msgLen = e.msgLen ∧ d.err = e.err :=
  ⟨rfl, rfl, rfl, rfl, rfl, rfl⟩

theorem Engine.blockDone_frame (e : Engine) :
    e.blockDone.padbuf = e.padbuf ∧ e.blockDone.nblk = e.nblk ∧ e.blockDone.hex = e.hex ∧ e.blockDone.msg = e.msg ∧
      e.blockDone.msgLen = e.msgLen ∧ e.blockDone.err = e.err :=
  Engine.block_updates_frame _ _ _ _ _

/-- Settles O19: the block's run answers `blockDone` but for DONE, seq and CUR. -/
theorem blockStepsRefineCompress : Obligations.BlockStepsRefineCompress := by
  intro e hs hc
  obtain ⟨b, q, c, hrun⟩ := Engine.run_block_registers hs hc
  exact ⟨_, hrun, e.blockDone_h, e.blockDone_blkidx, e.blockDone_w, e.blockDone_wv, e.blockDone_get, e.blockDone_frame⟩

/-! ### The round constants -/

/-- The primes below 312 by trial division, in order. -/
def primesBelow312 : List Nat :=
  (List.range 312).filter fun p => 2 ≤ p && (List.range p).all fun d => d ≤ 1 || p % d != 0

/-- r is the integer part of the cube root of n. -/
def isCubeRootFloor (n r : Nat) : Bool := r ^ 3 ≤ n && n < (r + 1) ^ 3

/-- The integer part of the cube root of a prime below 312 is below 8, so 8 candidates for it suffice. -/
theorem K_cubeRoots : ((List.finRange 64).all fun t => primesBelow312[t.val]?.all fun p =>
    (List.range 8).any fun q => isCubeRootFloor (p * 2 ^ 96) (q * 2 ^ 32 + K[t].toNat)) = true := by decide +kernel

/-- R170's recomputation rule: K[t] is the fraction of the cube root of the t-th prime, in 32 bits. -/
theorem K_eq_cubeRoot_fraction {t : Fin 64} {p : Nat} (hp : primesBelow312[t.val]? = some p) :
    ∃ q, (q * 2 ^ 32 + K[t].toNat) ^ 3 ≤ p * 2 ^ 96 ∧ p * 2 ^ 96 < (q * 2 ^ 32 + K[t].toNat + 1) ^ 3 := by
  have hroot := List.all_eq_true.1 K_cubeRoots t (List.mem_finRange t)
  rw [hp, Option.all_some, List.any_eq_true] at hroot
  obtain ⟨q, -, hq⟩ := hroot
  simp only [isCubeRootFloor, Bool.and_eq_true, decide_eq_true_eq] at hq
  exact ⟨q, hq⟩

/-- Settles O59: the table and the number of primes by evaluation, and the cube roots prime by prime. -/
theorem roundConstantsAreTheTable : Obligations.RoundConstantsAreTheTable :=
  ⟨by decide +kernel, by decide +kernel, fun _ _ => K_eq_cubeRoot_fraction⟩

end Sys2Proof.Machine

/-! SUPPORT. The sequencer's move and the end of every busy engine (44_digest_commands R221, R223): the row of the table
that a step takes, and the measure of the steps left as the length of a run. -/

namespace Sys2Proof.Machine

variable {e e' : Engine} {q : Seq}

/-! ### The row of R221 that a step takes -/

/-- A busy engine's step takes the row of its seq and CUR, with NBLK and BLKIDX as its micro-step left them. -/
theorem Engine.step_move (h : e.step = .next e') (hb : e.busy = true) :
    (∃ q, nextSeq e.seq e.cur e'.blkidx e'.nblk = .goto q ∧ e'.seq = q ∧ e'.cur = e.cur ∧ e'.done = e.done ∧
      e'.err = e.err) ∨
    (nextSeq e.seq e.cur e'.blkidx e'.nblk = .finish ∧ e'.seq = .idle ∧ e'.cur = .none ∧ e'.done = true ∧
      e'.err = e.err) := by
  rcases Engine.step_cases h with ⟨hidle, -⟩ | ⟨-, d, hm, hmove⟩
  · exact absurd (hidle.symm.trans hb) Bool.false_ne_true
  · obtain ⟨hseq, hcur, -, -, hdone, herr, -⟩ := Engine.microStep_frame hm
    rw [hseq, hcur] at hmove
    rcases hmove with ⟨q, hq, rfl⟩ | ⟨hq, rfl⟩
    · exact .inl ⟨q, hq, rfl, hcur, hdone, herr⟩
    · exact .inr ⟨hq, rfl, rfl, rfl, herr⟩

/-- No row of R221 starts in phase IDLE. -/
theorem nextSeq_idle (hp : q.phase = .idle) (c : Cur) (i n : Word) : nextSeq q c i n = .undefined := by
  simp only [nextSeq, hp]

theorem Engine.busy_of_row {i n : Word} {m : SeqMove} (h : nextSeq e.seq e.cur i n = m) (hm : m ≠ .undefined) :
    e.busy = true :=
  (Engine.busy_eq_true e).2 fun hp => hm (h.symm.trans (nextSeq_idle hp e.cur i n))

theorem Engine.step_goes (h : e.step = .next e') (hq : nextSeq e.seq e.cur e'.blkidx e'.nblk = .goto q) :
    e'.seq = q ∧ e'.cur = e.cur ∧ e'.done = e.done ∧ e'.err = e.err := by
  rcases Engine.step_move h (Engine.busy_of_row hq nofun) with ⟨r, hr, hgoes⟩ | ⟨hr, -⟩
  · obtain rfl : q = r := SeqMove.goto.inj (hq.symm.trans hr)
    exact hgoes
  · cases hq.symm.trans hr

theorem Engine.step_finishes (h : e.step = .next e') (hq : nextSeq e.seq e.cur e'.blkidx e'.nblk = .finish) :
    e'.seq = .idle ∧ e'.cur = .none ∧ e'.done = true ∧ e'.err = e.err := by
  rcases Engine.step_move h (Engine.busy_of_row hq nofun) with ⟨r, hr, -⟩ | ⟨-, hfin⟩
  · cases hq.symm.trans hr
  · exact hfin

/-- A row that keeps the phase counts t up by one, which below 63 does not wrap. -/
theorem Engine.step_counts {p : Phase} (h : e.step = .next e') (ht : e.seq.t.val < 63)
    (hq : nextSeq e.seq e.cur e'.blkidx e'.nblk = .goto ⟨p, e.seq.t + 1⟩) :
    e'.seq.t.val = e.seq.t.val + 1 ∧ e'.seq = ⟨p, e'.seq.t⟩ ∧ e'.cur = e.cur ∧ e'.done = e.done ∧ e'.err = e.err := by
  obtain ⟨hseq, hrest⟩ := Engine.step_goes h hq
  rw [hseq]
  exact ⟨Fin.val_add_one_of_lt ht, rfl, hrest⟩

/-- Settles O20: each condition picks its row of `nextSeq`, and the step takes that row. -/
theorem sequencerFollowsTheTable : Obligations.SequencerFollowsTheTable := by
  intro e e' h
  refine ⟨fun hp hc => ?_, fun hp hc => ?_, fun hp hc => ?_, fun hp hc => ?_, fun hp => ?_, fun hp ht => ?_,
    fun hp ht => ?_, fun hp ht => ?_, fun hp ht => ?_, fun hp hc hlt => ?_, fun hp hc heq => ?_, fun hp hc => ?_,
    fun hp => ?_⟩
  · exact Engine.step_goes h (by simp [nextSeq, hp, hc])
  · exact Engine.step_finishes h (by simp [nextSeq, hp, hc])
  · exact Engine.step_goes h (by simp [nextSeq, hp, hc])
  · exact Engine.step_finishes h (by simp [nextSeq, hp, hc])
  · exact Engine.step_goes h (by simp [nextSeq, hp])
  · exact Engine.step_counts h ht (by simp [nextSeq, hp, ht])
  · exact Engine.step_goes h (by simp [nextSeq, hp, ht])
  · exact Engine.step_counts h ht (by simp [nextSeq, hp, ht])
  · exact Engine.step_goes h (by simp [nextSeq, hp, ht])
  · exact Engine.step_goes h (by simp [nextSeq, hp, hc, hlt])
  · exact Engine.step_goes h (by simp [nextSeq, hp, hc, heq])
  · exact Engine.step_finishes h (by simp [nextSeq, hp, hc])
  · exact Engine.step_finishes h (by simp [nextSeq, hp])

/-! ### The steps left -/

theorem nextSeq_goto_phase {r : Seq} {c : Cur} {i n : Word} (h : nextSeq q c i n = .goto r) : r.phase ≠ .idle := by
  unfold nextSeq at h
  grind

/-- An engine turns idle by a finish alone, which sets DONE; ERR is as it was. -/
theorem Engine.step_to_idle (h : e.step = .next e') (hb : e.busy = true) (hidle : e'.busy = false) :
    e'.done = true ∧ e'.err = e.err := by
  rcases Engine.step_move h hb with ⟨q, hq, rfl, -⟩ | ⟨-, -, -, hdone, herr⟩
  · exact absurd ((Engine.busy_eq_false e').1 hidle) (nextSeq_goto_phase hq)
  · exact ⟨hdone, herr⟩

/-- The blocks that PAD makes of a Message that its check lets through fit PADBUF (10 R25, 60 R261). -/
theorem Engine.messageBlocks_le (hi : e.inputInvalid = false) : e.messageBlocks ≤ padCap e.cfg / 64 := by
  obtain ⟨-, -, -, hle⟩ := Engine.pad_message hi
  simp only [Engine.messageBlocks, padLen, padCap, ceil64]
  omega

/-- R223's bound: HASH's three steps beside its blocks, and 114 steps for each block that fits PADBUF. -/
theorem Engine.Inv.stepsLeft_le (h : e.Inv) : e.stepsLeft ≤ 3 + 114 * (padCap e.cfg / 64) := by
  have hfits := h.nblk_fits
  have hheld : e.inBlock → e.blkidx.toNat < e.nblk.toNat := h.block_held
  have hlegal := h.seq_legal
  unfold Engine.stepsLeft
  cases hp : e.seq.phase with
  | idle | enc => dsimp only; omega
  | pad =>
    have hblocks := Engine.messageBlocks_le (h.input_held hp)
    dsimp only
    split <;> omega
  | init => dsimp only; split <;> omega
  | exp =>
    have hlt := hheld (by simp [Engine.inBlock, hp])
    obtain ⟨-, lo⟩ : _ ∧ 16 ≤ e.seq.t.val := by simpa only [Engine.seqLegal, hp] using hlegal
    dsimp only
    split <;> omega
  | load | rnd | chain =>
    have hlt := hheld (by simp [Engine.inBlock, hp])
    dsimp only
    split <;> omega

/-- From the invariant a busy engine is idle after exactly its steps left. -/
theorem Engine.Inv.run_stepsLeft (h : e.Inv) (hb : e.busy = true) :
    ∃ e', e.run e.stepsLeft = .next e' ∧ e'.busy = false ∧ e'.done = true ∧ e'.err = .none := by
  obtain ⟨k, hk⟩ : ∃ k, e.stepsLeft = k := ⟨_, rfl⟩
  induction k generalizing e with
  | zero =>
    obtain ⟨d, -, -, hless⟩ := h.step_next hb
    omega
  | succ k ih =>
    obtain ⟨d, hd, hinv, hless⟩ := h.step_next hb
    have hdk : d.stepsLeft = k := by omega
    rw [hk, Engine.run_succ k hd, ← hdk]
    cases hdb : d.busy with
    | true => exact ih hinv hdb hdk
    | false =>
      obtain ⟨hdone, herr⟩ := Engine.step_to_idle hd hb hdb
      exact ⟨d, Engine.run_idle hdb _, hdb, hdone, herr.trans (h.busy_flags hb).2⟩

/-- Settles O22: the steps left are the number of steps. -/
theorem everyBusyEngineFinishes : Obligations.EveryBusyEngineFinishes := by
  intro e h hb
  obtain ⟨e', hrun, hfinal⟩ := h.run_stepsLeft hb
  exact ⟨e.stepsLeft, e', h.stepsLeft_le, hrun, hfinal⟩

end Sys2Proof.Machine

/-! SUPPORT. Whole commands: what a command's acceptance answers, what its run leaves, and a run interleaved with the host
(44_digest_commands R200 to R224). -/

namespace Sys2Proof.Machine

variable {s t u : State} {e a b : Engine} {i : Instr} {c : Word} {p : List Byte} {n k : Nat}

/-! ### Acceptance -/

/-- A command that passes its check starts its sequence with DONE = ERR = 0 and changes nothing else (R200). -/
theorem exec_start (hb : s.busy = false) (hi : i ≠ .nop) (hc : s.check (some i) = .none) :
    exec i s = .next (s.setEngine (s.clearFlags.start (Instr.cur i) (firstPhase i))) := by
  rw [exec_eq, if_neg hi, Engine.issue_start hb hc]

/-- A command that fails its check raises the error (R200). -/
theorem exec_raise {x : ErrCode} (hb : s.busy = false) (hi : i ≠ .nop) (hx : x ≠ .none) (hc : s.check (some i) = x) :
    exec i s = .next (s.setEngine (s.clearFlags.raise (some i) x)) := by
  rw [exec_eq, if_neg hi, Engine.issue_raise hb hx hc]

/-- An accepted command performed is its start, run by the engine alone. -/
theorem performFor_start (hb : s.busy = false) (hi : i ≠ .nop) (hc : s.check (some i) = .none) (n : Nat) :
    performFor n i s = (s.clearFlags.start (Instr.cur i) (firstPhase i)).run n := by
  simp only [performFor, exec_start hb hi hc, State.setEngine_toEngine]

theorem perform_start (hb : s.busy = false) (hi : i ≠ .nop) (hc : s.check (some i) = .none) (hn : s.stepCount i = n) :
    perform i s = (s.clearFlags.start (Instr.cur i) (firstPhase i)).run n := by
  rw [perform, hn, performFor_start hb hi hc]

/-- A command whose run of n steps ends busy is busy at every k up to n. -/
theorem performFor_busy (hb : s.busy = false) (hi : i ≠ .nop) (hc : s.check (some i) = .none)
    (hr : (s.clearFlags.start (Instr.cur i) (firstPhase i)).run n = .next e) (he : e.busy = true) (hk : k ≤ n) :
    ∃ u, performFor k i s = .next u ∧ u.busy = true := by
  rw [performFor_start hb hi hc]
  exact Engine.run_busy_before hk hr he

/-! ### NOP, INIT, ENCODE -/

/-- A command's word written to CMD is the command, with BUSY = 1 too, where both are ignored (R200, 20 R70). -/
theorem memWrite_cmd_decoded (hc : s.cfg.wf = true) (hd : decode c = .ok i) : memWrite s 0x004 4 c = exec i s := by
  cases hb : s.busy with
  | false => rw [memWrite_cmd hc hb, issueCommand_ok hd]
  | true => rw [memWrite_busy (admitted_register hc (by decide) (by decide)) hb, exec_busy hb]

/-- Settles O23: the word 0 is NOP's, and with OPC 0 it is the one word whose RSVD is 0. -/
theorem nopChangesNothing : Obligations.NopChangesNothing := by
  refine ⟨fun s => rfl, fun s hc => memWrite_cmd_decoded (i := .nop) hc rfl, fun c hopc hne => ?_⟩
  exact decode_error_iff.2 (.inl fun hrsvd => hne (eq_encode_of_fields (i := .nop) hrsvd hopc))

/-- Settles O25: INIT has no check, and its one step is the INIT micro-step and a finish. -/
theorem initLoadsTheInitialValues : Obligations.InitLoadsTheInitialValues := by
  intro s hb
  refine ⟨exec_start hb (i := .init) (by decide) rfl, rfl, ?_⟩
  rw [perform_start (n := 1) hb (by decide) rfl rfl, Engine.run_one (Engine.step_init_init rfl rfl), Engine.init_record]
  rfl

/-- Settles O28: ENCODE has no check, and its one step is the ENC micro-step and a finish. -/
theorem encodeRendersTheChainingValue : Obligations.EncodeRendersTheChainingValue := by
  intro s hb
  refine ⟨exec_start hb (i := .encode) (by decide) rfl, rfl, ?_⟩
  rw [perform_start (n := 1) hb (by decide) rfl rfl, Engine.run_one (Engine.step_enc rfl), Engine.enc_record]

/-! ### PAD -/

theorem Engine.padByte_numbered (hp : e.padbuf = Cells.numbered 0 p) (k : Nat) (hk : k < p.length) :
    e.padByte k = p[k] := by
  rw [Engine.padByte, hp, Cells.lookup_numbered_in p k hk, Option.getD_some]

/-- Settles O26: the one step of PAD is the PAD micro-step of a Message that can be padded, and a finish. -/
theorem padBuildsThePaddedMessage : Obligations.PadBuildsThePaddedMessage := by
  intro s hb
  refine ⟨fun hi => ?_, fun hi => ?_⟩
  · have hfail : s.check (some .pad) = .invalidInput := by simp [Engine.check_pad, hi]
    exact exec_raise hb (by decide) (by decide) hfail
  · have hpass : s.check (some .pad) = .none := by simp [Engine.check_pad, hi]
    obtain ⟨p, hp, hlen, -⟩ := Engine.pad_message hi
    have hstep : (s.clearFlags.start .pad ⟨.pad, 0⟩).step = .next _ := Engine.step_pad_pad rfl rfl
    rw [Engine.padStep_ok (e := s.clearFlags.start .pad ⟨.pad, 0⟩) hp, Engine.pad_record] at hstep
    refine ⟨exec_start hb (by decide) hpass, p, _, hp, rfl,
      (perform_start hb (by decide) hpass rfl).trans (Engine.run_one hstep), Engine.padByte_numbered rfl, ?_, rfl⟩
    have hblocks := padLen_blocks_lt s.cfg.lenField s.msgLen
    rw [BitVec.toNat_ofNat, hlen, Nat.mod_eq_of_lt hblocks, padLen_eq]
    omega

/-! ### BLOCK -/

/-- BLOCK's start works through the block that PADBUF held at BLKIDX before it. -/
theorem Engine.blockDone_start_record (e : Engine) (c : Cur) (q : Seq) :
    (e.clearFlags.start c q).blockDone.finish =
      { e with h := compress (expand e.block) e.h, w := expand e.block, wv := e.h.roundsTo (expand e.block) 64,
               blkidx := e.blkidx + 1, done := true, err := .none, cur := .none, seq := ⟨.idle, 0⟩ } := by
  have hblk : (e.clearFlags.start c q).block = e.block := Engine.block_congr rfl rfl rfl
  rw [Engine.blockDone, hblk, Engine.block_record]
  rfl

/-- Settles O27: 113 steps lead to CHAIN, where the engine is still busy, and CHAIN finishes. -/
theorem blockCompressesOneBlock : Obligations.BlockCompressesOneBlock := by
  intro s hb
  refine ⟨fun hle => ?_, fun hlt => ?_⟩
  · have hfail : s.check (some .block) = .noBlock := by simp [Engine.check_block, Engine.noBlockLeft, hle]
    exact exec_raise hb (by decide) (by decide) hfail
  · have hpass : s.check (some .block) = .none := by simp [Engine.check_block, Engine.noBlockLeft, hlt]
    refine ⟨exec_start hb (by decide) hpass, rfl, fun k hk => ?_, ?_⟩
    · exact performFor_busy hb (by decide) hpass (Engine.run_to_chain rfl) rfl (Nat.le_of_lt_succ hk)
    · have hrun := Engine.run_block_last (e := s.clearFlags.start .block ⟨.load, 0⟩) rfl rfl
      rw [Engine.blockDone_start_record] at hrun
      exact (perform_start hb (by decide) hpass rfl).trans hrun

/-! ### HASH -/

/-- The engine after HASH of a Message that pads to the n + 1 blocks of p (R211). -/
def Engine.hashDone (e : Engine) (p : List Byte) (n : Nat) : Engine :=
  { e with
    padbuf := Cells.numbered 0 p, nblk := BitVec.ofNat 32 (n + 1), blkidx := BitVec.ofNat 32 (n + 1),
    h := compressTo p IV (n + 1), hex := encodeHex (compressTo p IV (n + 1)),
    w := expand (blockOf p n), wv := (compressTo p IV n).roundsTo (expand (blockOf p n)) 64,
    done := true, err := .none, cur := .none, seq := ⟨.idle, 0⟩ }

/-- HASH's start is busy for 3 + 114·(n + 1) steps and then stands at `hashDone` (R211, R223). -/
theorem Engine.run_hashDone (hi : e.inputInvalid = false) : ∃ (p : List Byte) (n : Nat),
    pad e.cfg.lenField e.message = .ok p ∧ p.length = 64 * (n + 1) ∧ e.messageBlocks = n + 1 ∧
      (∃ u, (e.clearFlags.start .hash ⟨.pad, 0⟩).run (2 + 114 * (n + 1)) = .next u ∧ u.busy = true) ∧
      (e.clearFlags.start .hash ⟨.pad, 0⟩).run (3 + 114 * (n + 1)) = .next (e.hashDone p n) := by
  obtain ⟨p, n, hp, hl, hblocks, -, hbusy, hrun⟩ := e.run_hash hi
  refine ⟨p, n, hp, hl, hblocks, ?_, ?_⟩
  · rwa [show 2 + 114 * (n + 1) = 1 + (1 + (n + 1) * (113 + 1)) by omega]
  · rw [show 3 + 114 * (n + 1) = 1 + (1 + ((n + 1) * (113 + 1) + 1)) by omega, hrun]
    rfl

theorem perform_hash_hashDone (hb : s.busy = false) (hi : s.inputInvalid = false)
    (hp : pad s.cfg.lenField s.message = .ok p) (hl : p.length = 64 * (n + 1)) :
    perform .hash s = .next (s.hashDone p n) := by
  obtain ⟨q, m, hq, hm, hblocks, -, hrun⟩ := Engine.run_hashDone hi
  obtain rfl : q = p := Except.ok.inj (hq.symm.trans hp)
  obtain rfl : m = n := by omega
  rw [perform_hash hb hi, hblocks, hrun]

/-- Settles O24: `hashDone` is the final engine, and the run that leads to it is busy one step before. -/
theorem hashComputesTheDigest : Obligations.HashComputesTheDigest := by
  intro s hb
  refine ⟨fun hi => ?_, fun hi => ?_⟩
  · have hfail : s.check (some .hash) = .invalidInput := by simp [Engine.check_hash, hi]
    exact exec_raise hb (by decide) (by decide) hfail
  · have hpass : s.check (some .hash) = .none := by simp [Engine.check_hash, hi]
    obtain ⟨p, n, hp, hl, hblocks, ⟨u, hu, hub⟩, -⟩ := Engine.run_hashDone hi
    obtain ⟨hhash, -⟩ := hash_of_pad hp hl
    refine ⟨exec_start hb (by decide) hpass, p, n, s.hashDone p n, hp, hl, ?_, perform_hash_hashDone hb hi hp hl,
      fun k hk => ?_, hhash, Engine.padByte_numbered rfl, rfl⟩
    · rw [Engine.stepCount, hblocks]
    · exact performFor_busy hb (by decide) hpass hu hub (by omega)

/-- Settles O33: `hashDone` takes each of these registers from the padded Message alone. -/
theorem hashDependsOnTheMessageAlone : Obligations.HashDependsOnTheMessageAlone := by
  intro s t a b hsb htb hsi hti hlf hmsg ha hb
  obtain ⟨p, n, hp, hl, -⟩ := Engine.run_hashDone hsi
  have hp' : pad t.cfg.lenField t.message = .ok p := by rw [← hlf, ← hmsg, hp]
  obtain rfl := Host.Outcome.next.inj (ha.symm.trans (perform_hash_hashDone hsb hsi hp hl))
  obtain rfl := Host.Outcome.next.inj (hb.symm.trans (perform_hash_hashDone htb hti hp' hl))
  exact ⟨rfl, rfl, rfl, rfl, rfl⟩

/-! ### HASH beside a running host -/

/-- A step of a busy machine without a reset listed leaves its engine or makes the engine's own step (R9, 20 R70). -/
theorem step_busy_cases (hb : s.busy = true) (hr : s.noResetListed) (h : step s = .next t) :
    t.noResetListed ∧ (t.toEngine = s.toEngine ∨ s.toEngine.step = .next t.toEngine) := by
  obtain ⟨m, v, hm⟩ : ∃ m v, s.nextMove = (m, v) := ⟨_, _, rfl⟩
  obtain ⟨he, -, -, hreset, -, hturns⟩ := State.nextMove_frame hm
  have hv : v.noResetListed := fun hmem => hr (hturns _ hmem)
  have hvb : v.toEngine.busy = true := he ▸ hb
  simp only [step, machineStep, hm] at h
  cases m with
  | host =>
    obtain ⟨t', ht', hturns', -⟩ := hostStep_cases v
    obtain rfl : t' = t := Host.Outcome.next.inj (ht'.symm.trans h)
    exact ⟨by rwa [State.noResetListed, hturns'], .inl (((hostStep_effect h).of_busy hvb).trans he)⟩
  | engine =>
    obtain ⟨d, hd, rfl⟩ := engineStep_next h
    exact ⟨hv, .inr (he ▸ hd)⟩
  | reset => exact absurd (hreset rfl) hr
  | quiet =>
    obtain rfl := Host.Outcome.next.inj h
    exact ⟨hv, .inl he⟩

/-- Along a busy run of the machine the engine has made some steps of its own and nothing else has happened to it. -/
theorem Runs.engine_run (h : Runs (fun x => x.busy = true) k t u) (hr : t.noResetListed) :
    ∃ j, t.toEngine.run j = .next u.toEngine := by
  induction h with
  | refl s => exact ⟨0, rfl⟩
  | @step k s m t hb hs _ ih =>
    obtain ⟨hmr, heng | heng⟩ := step_busy_cases hb hr hs
    · exact heng ▸ ih hmr
    · obtain ⟨j, hj⟩ := ih hmr
      exact ⟨j + 1, (Engine.run_succ j heng).trans hj⟩

theorem Engine.run_succ_next (h : e.run (k + 1) = .next a) : ∃ d, e.step = .next d ∧ d.run k = .next a := by
  cases hs : e.step with
  | next d => exact ⟨d, rfl, Engine.run_succ k hs ▸ h⟩
  | fault f => simp [Engine.run, hs] at h
  | refused r => simp [Engine.run, hs] at h

/-- No run of the engine writes MSG or MSG_LEN (20 R75). -/
theorem Engine.run_msg (h : e.run k = .next a) : a.msg = e.msg ∧ a.msgLen = e.msgLen := by
  induction k generalizing e with
  | zero =>
    obtain rfl := Host.Outcome.next.inj h
    exact ⟨rfl, rfl⟩
  | succ k ih =>
    obtain ⟨d, hd, hrun⟩ := Engine.run_succ_next h
    obtain ⟨hmsg, hlen, -⟩ := Engine.step_frame hd
    exact hmsg ▸ hlen ▸ ih hrun

/-- A run has one idle end, however long it is. -/
theorem Engine.run_idle_unique {m : Nat} (ha : e.run m = .next a) (hab : a.busy = false) (hb : e.run n = .next b)
    (hbb : b.busy = false) : a = b := by
  have h1 := (Engine.run_add m n ha).trans (Engine.run_idle hab n)
  have h2 := (Engine.run_add n m hb).trans (Engine.run_idle hbb m)
  rw [Nat.add_comm] at h2
  exact Host.Outcome.next.inj (h1.symm.trans h2)

/-- Settles O32: the engine's part of the run is a run of the engine alone, whose one idle end is `hashDone`. -/
theorem hashIsRightUnderEveryInterleaving : Obligations.HashIsRightUnderEveryInterleaving := by
  intro s t u k hb hi ht hr hruns
  obtain ⟨j, hj⟩ := hruns.engine_run hr
  rw [ht] at hj
  obtain ⟨hmsg, hlen⟩ := Engine.run_msg hj
  refine ⟨hmsg, hlen, fun hub => ?_⟩
  obtain ⟨p, n, hp, hl, -, -, hrun⟩ := Engine.run_hashDone hi
  obtain ⟨hhash, hdigest⟩ := hash_of_pad hp hl
  rw [Engine.run_idle_unique hj hub hrun rfl]
  exact ⟨hhash, rfl, rfl, hdigest⟩

/-! ### A command on the host's bus -/

/-- A placed command word is the host's next statement (log 15). -/
theorem State.withFetchWord_stmt (s : State) (c : Word) :
    (s.withFetchWord 32 c.toNat).host.prog[(s.withFetchWord 32 c.toNat).host.pc]? = some (.write 0x004 4 c) := by
  have hword : BitVec.ofNat 32 (c.toNat % 2 ^ 32) = c := by
    rw [Nat.mod_eq_of_lt c.isLt, BitVec.ofNat_toNat, BitVec.setWidth_eq]
  exact congrArg (fun w => some (HostStmt.write 0x004 4 w)) hword

/-- Settles O49: an admitted write to CMD is its MemWrite, which is the decoded command. -/
theorem stepRunsTheDecodedCommand : Obligations.StepRunsTheDecodedCommand := by
  have hmove : ∀ (s t : State) (c : Word) (i : Instr), t.cfg.wf = true → s.nextMove = (.host, t) →
      t.host.prog[t.host.pc]? = some (.write 0x004 4 c) → decode c = .ok i → step s = exec i t.hostAck := by
    intro s t c i hc hm hstmt hd
    have ha : admitted t.cfg 0x004 4 = true := admitted_register hc (by decide) (by decide)
    rw [step_of_nextMove_host hm, hostStep_write hstmt, State.hostWrite_admitted ha,
      memWrite_cmd_decoded (s := t.hostAck) hc hd]
  refine ⟨hmove, fun s c i hc hd => ?_⟩
  exact ⟨_, hmove _ ((s.withFetchWord 32 c.toNat).setTurns s.turns) c i hc rfl (s.withFetchWord_stmt c) hd, rfl, rfl⟩

end Sys2Proof.Machine

/-! SUPPORT. The HexEncoder: the value of a digit and of a nibble, and what they determine (45_hex_encoder R240 to R243). -/

namespace Sys2Proof.Machine

/-! ### A digit -/

theorem hexchar_toNat (v : BitVec 4) :
    (hexchar v).toNat = if v.toNat ≤ 9 then 0x30 + v.toNat else 0x61 + (v.toNat - 10) := by
  unfold hexchar
  split <;> rw [BitVec.toNat_ofNat] <;> split <;> omega

/-- The digits '0'..'9' lie below 'a'..'f', so the code determines the nibble (R243). -/
theorem hexchar_injective : Function.Injective hexchar := by
  intro u v h
  have hcode : (hexchar u).toNat = (hexchar v).toNat := congrArg BitVec.toNat h
  rw [hexchar_toNat, hexchar_toNat] at hcode
  apply BitVec.eq_of_toNat_eq
  split at hcode <;> split at hcode <;> omega

/-- A digit is in '0'..'9' or in 'a'..'f' (R242). -/
theorem hexchar_range (v : BitVec 4) :
    (0x30 ≤ (hexchar v).toNat ∧ (hexchar v).toNat ≤ 0x39) ∨ (0x61 ≤ (hexchar v).toNat ∧ (hexchar v).toNat ≤ 0x66) := by
  rw [hexchar_toNat]
  split
  · left; omega
  · right; omega

/-! ### The nibbles of a Word -/

theorem nibble_toNat (x : Word) (d : Fin 8) : (nibble x d).toNat = x.toNat / 16 ^ (7 - d.val) % 16 := by
  have hweight : 2 ^ (28 - 4 * d.val) = 16 ^ (7 - d.val) := by
    rw [show 28 - 4 * d.val = 4 * (7 - d.val) by omega, Nat.pow_mul]
  rw [nibble, BitVec.extractLsb'_toNat, Nat.shiftRight_eq_div_pow, hweight]

/-- Bit i of a Word is bit i % 4 of its nibble 7 - i/4. -/
theorem getLsbD_eq_nibble (x : Word) {i : Nat} (hi : i < 32) :
    x.getLsbD i = (nibble x ⟨7 - i / 4, by omega⟩).getLsbD (i % 4) := by
  have hpos : 28 - 4 * (7 - i / 4) + i % 4 = i := by omega
  rw [nibble, BitVec.getLsbD_extractLsb', hpos, decide_eq_true (Nat.mod_lt i (by decide)), Bool.true_and]

theorem eq_of_nibble_eq {x y : Word} (h : ∀ d, nibble x d = nibble y d) : x = y := by
  apply BitVec.eq_of_getLsbD_eq
  intro i hi
  rw [getLsbD_eq_nibble x hi, getLsbD_eq_nibble y hi, h]

/-! ### The string of a HashState -/

theorem HashState.eq_of_get_eq {s t : HashState} (h : ∀ k, s.get k = t.get k) : s = t := by
  obtain ⟨⟩ := s
  obtain ⟨⟩ := t
  rw [HashState.mk.injEq]
  exact ⟨h 0, h 1, h 2, h 3, h 4, h 5, h 6, h 7⟩

theorem encodeHex_getElem (s : HashState) (i : Nat) (hi : i < 64) :
    (encodeHex s)[i] = hexchar (nibble (s.get ⟨i / 8, by omega⟩) ⟨i % 8, by omega⟩) := by
  unfold encodeHex
  exact Vector.getElem_ofFn hi

/-- Character 8k + d is the digit of nibble d of Word k (R240, R241). -/
theorem encodeHex_digit (s : HashState) (k d : Fin 8) :
    (encodeHex s)[8 * k.val + d.val] = hexchar (nibble (s.get k) d) := by
  have hk : (8 * k.val + d.val) / 8 = k.val := by omega
  have hd : (8 * k.val + d.val) % 8 = d.val := by omega
  simp only [encodeHex_getElem, hk, hd]

theorem encodeHex_injective : Function.Injective encodeHex := by
  intro s t h
  refine HashState.eq_of_get_eq fun k => eq_of_nibble_eq fun d => hexchar_injective ?_
  rw [← encodeHex_digit, ← encodeHex_digit, h]

/-- Settles O34: the character is the digit of the nibble, and both have their values. -/
theorem hexCharactersAreTheNibbles : Obligations.HexCharactersAreTheNibbles := by
  intro s k d
  rw [encodeHex_digit, hexchar_toNat, nibble_toNat]

/-- Settles O35: the digits determine the nibbles, these the Words and these the state; every character is a digit. -/
theorem hexEncodingIsOneToOne : Obligations.HexEncodingIsOneToOne := by
  refine ⟨fun s t h => encodeHex_injective h, fun s i => ?_⟩
  rw [Fin.getElem_fin, encodeHex_getElem]
  exact hexchar_range _

end Sys2Proof.Machine

/-! SUPPORT. Errors and progress: the acceptance checks as the spec's conditions, the codes that a step can leave in ERR, and
that every state of the invariant has a next one (60_exceptions R260 to R269). -/

namespace Sys2Proof.Machine

variable {e e' : Engine} {s : State}

/-! ### The acceptance checks -/

theorem Engine.inputInvalid_iff (e : Engine) :
    e.inputInvalid = true ↔
      e.cfg.msgCap < e.msgLen.toNat ∨ (e.cfg.lenField = .two ∧ 65535 < 8 * e.msgLen.toNat) := by
  simp only [Engine.inputInvalid, Bool.or_eq_true, Bool.and_eq_true, decide_eq_true_iff, beq_iff_eq]

theorem Engine.noBlockLeft_iff (e : Engine) : e.noBlockLeft = true ↔ e.nblk.toNat ≤ e.blkidx.toNat :=
  decide_eq_true_iff

/-- Settles O30: HASH and PAD answer by R261's condition and BLOCK by R266's; NOP, INIT and ENCODE have no error. -/
theorem checkFollowsThePriorityOrder : Obligations.CheckFollowsThePriorityOrder := by
  intro e tooLong
  have hinput : e.inputInvalid = true ↔ tooLong := e.inputInvalid_iff
  have hblock := e.noBlockLeft_iff
  refine ⟨rfl, fun i hi => ?_, fun h => ?_, fun h => ?_, fun i hi => ?_⟩
  · rw [← hinput]
    rcases hi with rfl | rfl <;> exact ⟨fun h => if_pos h, fun h => if_neg h⟩
  · exact if_pos (hblock.2 h)
  · exact if_neg fun hle => Nat.not_le_of_lt h (hblock.1 hle)
  · rcases hi with rfl | rfl | rfl <;> rfl

/-! ### The codes that ERR can take -/

/-- A host step keeps ERR, clears it, or sets it to what a check answers (44 R200, 60 R270). -/
theorem Engine.HostEffect.err_raised {p : Prop} (h : e.HostEffect p e') (he : e.err.raised) : e'.err.raised := by
  cases h with
  | unchanged | msgLen | msg => exact he
  | start => exact .inl rfl
  | raise _ _ o _ => exact e.check_raised o

/-- Settles O56: a host step raises only what a check answers, the engine's step leaves ERR, and the reset clears it. -/
theorem unreachableCodesAreNeverRaised : Obligations.UnreachableCodesAreNeverRaised := by
  intro s t h hs
  obtain ⟨u, hu, -, hstep⟩ := step_next_cases h
  rw [← hu] at hs
  rcases hstep with h | h | rfl | rfl
  · exact (hostStep_effect h).err_raised hs
  · obtain ⟨e, he, rfl⟩ := engineStep_next h
    obtain ⟨-, -, herr, -⟩ := Engine.step_frame he
    exact herr.symm ▸ hs
  · exact .inl rfl
  · exact hs

/-! ### Progress -/

/-- No micro-step fails from the invariant, and an idle engine keeps its state (44 R223, 60 R281). -/
theorem engineStep_answers (h : s.toEngine.Inv) : ∃ t, engineStep s = .next t := by
  cases hb : s.busy with
  | false => exact ⟨s, engineStep_idle hb⟩
  | true =>
    obtain ⟨e, he, -⟩ := h.step_next hb
    exact ⟨s.setEngine e, by rw [engineStep, he]⟩

/-- No statement stops the host: a refused access is answered with an error response (20 R68, 60 R268). -/
theorem hostStep_answers (s : State) : ∃ t, hostStep s = .next t :=
  (hostStep_cases s).imp fun _ h => h.1

/-- Settles O55: whichever move the environment chooses, its agent's step answers next. -/
theorem stepNeverStops : Obligations.StepNeverStops := by
  intro s hs
  obtain ⟨m, u, hm⟩ : ∃ m u, s.nextMove = (m, u) := ⟨_, _, rfl⟩
  obtain ⟨hu, -⟩ := State.nextMove_frame hm
  cases m with
  | host => exact step_of_nextMove_host hm ▸ hostStep_answers u
  | engine => exact step_of_nextMove_engine hm ▸ engineStep_answers (hu ▸ hs.engine)
  | reset => exact ⟨u.resetInput, by simp only [step, machineStep, hm]⟩
  | quiet => exact ⟨u, step_of_nextMove_quiet hm⟩

end Sys2Proof.Machine

/-! SUPPORT. The reset input and the reset state, register by register (70_reset_and_hazards R290 to R292). -/

namespace Sys2Proof.Machine

variable {s : State} {e : Engine} {rest : List Turn}

/-! ### The reset values -/

/-- The register files H and WV hold 0 after reset (R290). -/
theorem Engine.resetWith_get (c : Config) (n : Nat) (k : Fin 8) :
    (Engine.resetWith c n).h.get k = 0 ∧ (Engine.resetWith c n).wv.get k = 0 :=
  ⟨HashState.get_zero k, HashState.get_zero k⟩

/-- W and HEX hold 0 after reset (R290). -/
theorem Engine.resetWith_getElem (c : Config) (n : Nat) (i : Fin 64) :
    (Engine.resetWith c n).w[i] = 0 ∧ (Engine.resetWith c n).hex[i] = 0 :=
  ⟨Vector.getElem_replicate i.isLt, Vector.getElem_replicate i.isLt⟩

/-- After reset every MSG byte is its epoch's free value (R291). -/
theorem Engine.resetWith_msgByte (c : Config) (n i : Nat) :
    (Engine.resetWith c n).msgByte i = Config.freeMsg n i := rfl

/-- An idle engine that has completed nothing since its flags were cleared reads STATUS as 0 (10 R42). -/
theorem Engine.status_eq_zero (hb : e.busy = false) (hd : e.done = false) (he : e.err = .none) : e.status = 0 := by
  rw [Engine.status, hb, hd, he]
  decide

/-! ### The reset turn -/

theorem State.nextMove_reset_turn (h : s.turns = .reset :: rest) : s.nextMove = (.reset, s.setTurns rest) := by
  simp only [State.nextMove, h]

theorem step_reset_turn (h : s.turns = .reset :: rest) : step s = .next (s.setTurns rest).resetInput := by
  simp only [step, machineStep, State.nextMove_reset_turn h]

/-! ### The statements -/

/-- Settles O51: a listed reset turn is the next move, and it leaves the engine at the reset values of a new epoch. -/
theorem resetInputSetsEveryRegister : Obligations.ResetInputSetsEveryRegister := by
  intro s rest hturn
  exact ⟨_, step_reset_turn hturn, Engine.resetWith_get s.cfg (s.epoch + 1),
    Engine.resetWith_getElem s.cfg (s.epoch + 1), rfl, rfl, rfl, rfl, rfl, rfl, rfl, rfl,
    Engine.status_eq_zero rfl rfl rfl, rfl, rfl, Engine.resetWith_msgByte s.cfg (s.epoch + 1)⟩

/-- Settles O52: State.reset's engine stands at the reset values of the default build and of epoch 0. -/
theorem resetStateIsIdleAndZero : Obligations.ResetStateIsIdleAndZero :=
  ⟨Engine.resetWith_get .defaultBuild 0, Engine.resetWith_getElem .defaultBuild 0, rfl, rfl, rfl, rfl, rfl, rfl,
    rfl, rfl, rfl, rfl, rfl⟩

/-- The default build is one that the spec admits (00_scope R6 to R8). -/
theorem Config.defaultBuild_wf : Config.defaultBuild.wf = true := by decide

/-- Settles O53: the reset values meet the engine's invariant in the default build, and no host variable is assigned. -/
theorem invariantHoldsAtReset : Obligations.InvariantHoldsAtReset where
  engine := Engine.inv_resetWith Config.defaultBuild_wf 0
  vars_wf := Cells.wf_nil

end Sys2Proof.Machine

/-! SUPPORT. HASH step by step: what PAD, INIT, BLOCK and ENCODE make of one engine in turn (44_digest_commands R214,
70_reset_and_hazards R294). -/

namespace Sys2Proof.Machine

variable {s : State} {e : Engine} {i : Instr} {p : List Byte} {n k : Nat} {w : Schedule} {v : HashState}

/-! ### One command performed, as an equation -/

/-- A command that answers next hands its engine to the commands after it. -/
theorem performAll_cons (h : perform i s = .next e) (rest : List Instr) :
    performAll (i :: rest) s = performAll rest (s.setEngine e) := by
  simp only [performAll, h]

/-- The engine after INIT (R212). -/
def Engine.initDone (e : Engine) : Engine :=
  { e with h := IV, done := true, err := .none, cur := .none, seq := ⟨.idle, 0⟩ }

theorem perform_init (hb : s.busy = false) : perform .init s = .next s.initDone := by
  obtain ⟨-, -, hinit⟩ := initLoadsTheInitialValues s hb
  exact hinit

theorem perform_pad (hb : s.busy = false) (hi : s.inputInvalid = false) (hp : pad s.cfg.lenField s.message = .ok p)
    (hl : p.length = 64 * n) :
    perform .pad s = .next { s.toEngine with
      padbuf := Cells.numbered 0 p, nblk := BitVec.ofNat 32 n, blkidx := 0,
      done := true, err := .none, cur := .none, seq := ⟨.idle, 0⟩ } := by
  have hpass : s.check (some .pad) = .none := by simp [Engine.check_pad, hi]
  have hstep : (s.clearFlags.start .pad ⟨.pad, 0⟩).step = .next _ := Engine.step_pad_pad rfl rfl
  rw [Engine.padStep_ok (e := s.clearFlags.start .pad ⟨.pad, 0⟩) hp, Engine.pad_record, hl,
    Nat.mul_div_cancel_left n (by decide)] at hstep
  exact (perform_start hb (by decide) hpass rfl).trans (Engine.run_one hstep)

theorem perform_block (hb : s.busy = false) (hlt : s.blkidx.toNat < s.nblk.toNat) :
    perform .block s = .next { s.toEngine with
      h := compress (expand s.block) s.h, w := expand s.block, wv := s.h.roundsTo (expand s.block) 64,
      blkidx := s.blkidx + 1, done := true, err := .none, cur := .none, seq := ⟨.idle, 0⟩ } := by
  obtain ⟨-, hperform⟩ := blockCompressesOneBlock s hb
  obtain ⟨-, -, -, hblock⟩ := hperform hlt
  exact hblock

theorem perform_encode (hb : s.busy = false) :
    perform .encode s = .next { s.toEngine with
      hex := encodeHex s.h, done := true, err := .none, cur := .none, seq := ⟨.idle, 0⟩ } := by
  obtain ⟨-, -, hencode⟩ := encodeRendersTheChainingValue s hb
  exact hencode

/-! ### The engine between two commands -/

/-- The engine after PAD of p's n + 1 blocks, INIT, and BLOCK on the first k of them; W and WV hold w and v. -/
def Engine.blocksDone (e : Engine) (p : List Byte) (n k : Nat) (w : Schedule) (v : HashState) : Engine :=
  { e with
    padbuf := Cells.numbered 0 p, nblk := BitVec.ofNat 32 (n + 1), blkidx := BitVec.ofNat 32 k,
    h := compressTo p IV k, w := w, wv := v, done := true, err := .none, cur := .none, seq := ⟨.idle, 0⟩ }

theorem Engine.blocksDone_block (hl : p.length = 64 * (n + 1)) (hn : n + 1 < 2 ^ 32) (hk : k ≤ n) :
    (e.blocksDone p n k w v).block = blockOf p k := by
  refine Engine.block_of_held (by omega) ?_ (Engine.padByte_numbered rfl)
  rw [Engine.blocksDone, BitVec.toNat_ofNat, Nat.mod_eq_of_lt (by omega)]

theorem Engine.blocksDone_left (hn : n + 1 < 2 ^ 32) (hk : k ≤ n) :
    (e.blocksDone p n k w v).blkidx.toNat < (e.blocksDone p n k w v).nblk.toNat := by
  simp only [Engine.blocksDone, BitVec.toNat_ofNat, Nat.mod_eq_of_lt hn]
  omega

/-- BLOCK takes up the next of the n + 1 blocks (R214). -/
theorem perform_block_blocksDone (hl : p.length = 64 * (n + 1)) (hn : n + 1 < 2 ^ 32) (hk : k ≤ n) :
    perform .block (s.setEngine (e.blocksDone p n k w v)) = .next (e.blocksDone p n (k + 1)
      (expand (blockOf p k)) ((compressTo p IV k).roundsTo (expand (blockOf p k)) 64)) := by
  have hnext : BitVec.ofNat 32 (k + 1) = BitVec.ofNat 32 k + 1 := BitVec.ofNat_add ..
  rw [perform_block rfl (Engine.blocksDone_left hn hk), State.setEngine_toEngine, Engine.blocksDone_block hl hn hk]
  simp only [Engine.blocksDone, compressTo, hnext]

/-- BLOCK once per block left: from block k of n + 1 on, m + 1 BLOCKs lead past the last one, n = k + m. -/
theorem performAll_blocks (hl : p.length = 64 * (n + 1)) (hn : n + 1 < 2 ^ 32) (m : Nat) (hk : k + m = n)
    (rest : List Instr) :
    performAll (List.replicate (m + 1) .block ++ rest) (s.setEngine (e.blocksDone p n k w v)) =
      performAll rest (s.setEngine (e.blocksDone p n (n + 1)
        (expand (blockOf p n)) ((compressTo p IV n).roundsTo (expand (blockOf p n)) 64))) := by
  induction m generalizing k w v with
  | zero =>
    obtain rfl : k = n := hk
    rw [List.replicate_one, List.singleton_append, performAll_cons (perform_block_blocksDone hl hn (Nat.le_refl k)),
      State.setEngine_setEngine]
  | succ m ih =>
    rw [List.replicate_succ, List.cons_append, performAll_cons (perform_block_blocksDone hl hn (by omega)),
      State.setEngine_setEngine]
    exact ih (by omega)

/-- ENCODE between two BLOCKs writes HEX alone (R215). -/
theorem perform_encode_blocksDone :
    perform .encode (s.setEngine (e.blocksDone p n k w v)) =
      .next ((e.blocksDone p n k w v).setHex (encodeHex (compressTo p IV k))) :=
  perform_encode rfl

/-- With the last block done and its digest rendered, the engine is the one that HASH leaves (R294). -/
theorem Engine.blocksDone_setHex :
    (e.blocksDone p n (n + 1) (expand (blockOf p n)) ((compressTo p IV n).roundsTo (expand (blockOf p n)) 64)).setHex
      (encodeHex (compressTo p IV (n + 1))) = e.hashDone p n := by
  rw [Engine.blocksDone, Engine.setHex, Engine.hashDone]

/-- All the BLOCKs and ENCODE, from PAD and INIT done. -/
theorem performAll_blocks_encode (hl : p.length = 64 * (n + 1)) (hn : n + 1 < 2 ^ 32) :
    performAll (List.replicate (n + 1) .block ++ [.encode]) (s.setEngine (e.blocksDone p n 0 w v)) =
      .next (e.hashDone p n) := by
  rw [performAll_blocks hl hn n (Nat.zero_add n), performAll_cons perform_encode_blocksDone,
    Engine.blocksDone_setHex, performAll, State.setEngine_toEngine]

/-! ### The two orders of PAD and INIT -/

theorem performAll_pad_init (hb : s.busy = false) (hi : s.inputInvalid = false)
    (hp : pad s.cfg.lenField s.message = .ok p) (hl : p.length = 64 * (n + 1)) (rest : List Instr) :
    performAll (.pad :: .init :: rest) s = performAll rest (s.setEngine (s.blocksDone p n 0 s.w s.wv)) := by
  rw [performAll_cons (perform_pad hb hi hp hl), performAll_cons (perform_init rfl)]
  rfl

theorem performAll_init_pad (hb : s.busy = false) (hi : s.inputInvalid = false)
    (hp : pad s.cfg.lenField s.message = .ok p) (hl : p.length = 64 * (n + 1)) (rest : List Instr) :
    performAll (.init :: .pad :: rest) s = performAll rest (s.setEngine (s.blocksDone p n 0 s.w s.wv)) := by
  rw [performAll_cons (perform_init hb), performAll_cons (perform_pad (s := s.setEngine s.initDone) rfl hi hp hl)]
  rfl

/-- Settles O31: PAD and INIT commute, and from where they lead the BLOCKs and ENCODE reach HASH's final engine. -/
theorem stepwiseCommandsEqualHash : Obligations.StepwiseCommandsEqualHash := by
  intro s hb hi
  obtain ⟨p, n, hp, hl, hblocks, -⟩ := Engine.run_hashDone hi
  have hn : s.messageBlocks < 2 ^ 32 := padLen_blocks_lt s.cfg.lenField s.msgLen
  rw [hblocks] at hn ⊢
  rw [perform_hash_hashDone hb hi hp hl]
  exact ⟨(performAll_pad_init hb hi hp hl _).trans (performAll_blocks_encode hl hn),
    (performAll_init_pad hb hi hp hl _).trans (performAll_blocks_encode hl hn)⟩

end Sys2Proof.Machine
